-- ==== Sys2Proof/Word.lean ====
section
/-! DEFINITION. The word types of the engine (00_scope.md R9, R11; 30_encoding.md R93, R108). -/

namespace Sys2Proof

/-- One byte of a frame or of `DMEM`. -/
abbrev Byte := BitVec 8

/-- A bit-plane word, a set or clear mask, a register: `W = 32` (00_scope.md R9). -/
abbrev Word := BitVec 32

/-- A pin number 0..31: the bit index of the line in every 32-bit word (10_state.md R21). -/
abbrev Pin := BitVec 5

/-- A command word `CMD[127:0]` (30_encoding.md R93). -/
abbrev Command := BitVec 128

/-- A response word `RSP[63:0]` (30_encoding.md R108). -/
abbrev Response := BitVec 64

end Sys2Proof
end

