-- ==== Sys2Proof/Syntax.lean ====
section
/-! DEFINITION. The commands of the engine: one constructor for each row of spec/opcode_table.json, operands as the
fields of its format (30_encoding.md R94 to R104). -/

namespace Sys2Proof

/-- The transmission strategy, `CMD[32]` of `BUSCFG` (00_scope.md R3, 30_encoding.md R95). -/
inductive Strategy where
  | direct
  | dma
deriving DecidableEq, Repr

/-- A command. Every operand is an immediate of the command word (10_state.md R32). -/
inductive Instr where
  /-- `NOP` (40_bus_commands.md R130) -/
  | nop
  /-- `BUSCFG clk, strat, freq` (R131) -/
  | buscfg (pin : Pin) (strat : Strategy) (freq : Word)
  /-- `REGLINE pin, len` (R132) -/
  | regline (pin : Pin) (len : Word)
  /-- `SETBYTE pin, pos, val` (R133) -/
  | setbyte (pin : Pin) (pos : Word) (val : Byte)
  /-- `TRANSMIT` (41_transmit_direct.md R160) -/
  | transmit
  /-- `RDREG addr, pin` (R135) -/
  | rdreg (addr : BitVec 8) (pin : Pin)
  /-- `CLRERR` (R136) -/
  | clrerr
  /-- `MKWS2801 pin, count, order` (43_strip_factory.md R234) -/
  | mkws2801 (pin : Pin) (ord : BitVec 3) (count : BitVec 16)
  /-- `MKLPD6803 pin, count, order` (R235) -/
  | mklpd6803 (pin : Pin) (ord : BitVec 3) (count : BitVec 16)
  /-- `MKLPD8806 pin, count, order` (R236) -/
  | mklpd8806 (pin : Pin) (ord : BitVec 3) (count : BitVec 16)
  /-- `MKAPA102 pin, count, order` (R237) -/
  | mkapa102 (pin : Pin) (ord : BitVec 3) (count : BitVec 16)
  /-- `MKSK9822 pin, count, order` (R238) -/
  | mksk9822 (pin : Pin) (ord : BitVec 3) (count : BitVec 16)
  /-- `SETPIX8 pin, idx, r, g, b` (44_pixel_encoders.md R262) -/
  | setpix8 (pin : Pin) (idx : BitVec 16) (r g b : Byte)
  /-- `SETPIX16 pin, idx, r, g, b` (R263) -/
  | setpix16 (pin : Pin) (idx : BitVec 16) (r g b : BitVec 16)
  /-- `SETBRT pin, rs, gs, bs` (R280) -/
  | setbrt (pin : Pin) (rs gs bs : Word)
  /-- `RMSTRIP pin` (R240) -/
  | rmstrip (pin : Pin)
deriving DecidableEq, Repr

end Sys2Proof
end

