-- ==== Sys2Proof/WellFormed.lean ====
section
/-! DEFINITION. Which commands are well formed. Every operand field holds every value of its width (30_encoding.md
R109); the one command with a further condition is `RDREG` (30_encoding.md R105 (c)). A constructor with `ORD` 6 or 7
decodes (R105) and so is well formed. -/

namespace Sys2Proof

/-- The registers of 10_state.md R50: bus registers 0x00..0x0E, with pin operand 0; strip registers 0x20..0x29 of any
pin. -/
def registerDefined (addr : BitVec 8) (pin : Pin) : Bool :=
  (addr.toNat ≤ 0x0E && pin == 0#5) || (0x20 ≤ addr.toNat && addr.toNat ≤ 0x29)

/-- The command is the meaning of some legal command word. -/
def Instr.wf : Instr → Bool
  | .nop => true
  | .buscfg _ _ _ => true
  | .regline _ _ => true
  | .setbyte _ _ _ => true
  | .transmit => true
  | .rdreg addr pin => registerDefined addr pin
  | .clrerr => true
  | .mkws2801 _ _ _ => true
  | .mklpd6803 _ _ _ => true
  | .mklpd8806 _ _ _ => true
  | .mkapa102 _ _ _ => true
  | .mksk9822 _ _ _ => true
  | .setpix8 _ _ _ _ _ => true
  | .setpix16 _ _ _ _ _ => true
  | .setbrt _ _ _ _ => true
  | .rmstrip _ => true

end Sys2Proof
end

