-- ==== Sys2Proof/Decode.lean ====
section
/-! DEFINITION. Command words to commands and back (30_encoding.md R93 to R105). `decode` is total on all 128-bit
words and rejects by name; `encode` writes the word of a command from the same format rules. -/

namespace Sys2Proof

/-- Why a command word is illegal, the three clauses of 30_encoding.md R105. -/
inductive DecodeError where
  /-- (a) `OPC` is not in R104 -/
  | opcode
  /-- (b) a bit the format lists as zero is 1 -/
  | reserved
  /-- (c) `RDREG` of an undefined register, or of a bus register with `PIN != 0` -/
  | register
deriving DecidableEq, Repr

/-! The opcode map, 30_encoding.md R104. -/

def Opc.nop : BitVec 8 := 0x00#8
def Opc.buscfg : BitVec 8 := 0x01#8
def Opc.regline : BitVec 8 := 0x02#8
def Opc.setbyte : BitVec 8 := 0x03#8
def Opc.transmit : BitVec 8 := 0x04#8
def Opc.rdreg : BitVec 8 := 0x05#8
def Opc.clrerr : BitVec 8 := 0x06#8
def Opc.mkws2801 : BitVec 8 := 0x10#8
def Opc.mklpd6803 : BitVec 8 := 0x11#8
def Opc.mklpd8806 : BitVec 8 := 0x12#8
def Opc.mkapa102 : BitVec 8 := 0x13#8
def Opc.mksk9822 : BitVec 8 := 0x14#8
def Opc.setpix8 : BitVec 8 := 0x18#8
def Opc.setpix16 : BitVec 8 := 0x19#8
def Opc.setbrt : BitVec 8 := 0x1A#8
def Opc.rmstrip : BitVec 8 := 0x1B#8

/-- The opcode of a command, which its response echoes in `RSP[15:8]` (R108). -/
def Instr.opcode : Instr → BitVec 8
  | .nop => Opc.nop
  | .buscfg _ _ _ => Opc.buscfg
  | .regline _ _ => Opc.regline
  | .setbyte _ _ _ => Opc.setbyte
  | .transmit => Opc.transmit
  | .rdreg _ _ => Opc.rdreg
  | .clrerr => Opc.clrerr
  | .mkws2801 _ _ _ => Opc.mkws2801
  | .mklpd6803 _ _ _ => Opc.mklpd6803
  | .mklpd8806 _ _ _ => Opc.mklpd8806
  | .mkapa102 _ _ _ => Opc.mkapa102
  | .mksk9822 _ _ _ => Opc.mksk9822
  | .setpix8 _ _ _ _ _ => Opc.setpix8
  | .setpix16 _ _ _ _ _ => Opc.setpix16
  | .setbrt _ _ _ _ => Opc.setbrt
  | .rmstrip _ => Opc.rmstrip

/-! The fields common to all formats (R93). -/

/-- `OPC = CMD[7:0]` -/
def Field.opc (w : Command) : BitVec 8 := w.extractLsb' 0 8
/-- `PIN = CMD[12:8]` -/
def Field.pin (w : Command) : Pin := w.extractLsb' 8 5
/-- `ORD = CMD[15:13]` -/
def Field.ord (w : Command) : BitVec 3 := w.extractLsb' 13 3
/-- `IDX = CMD[31:16]` -/
def Field.idx (w : Command) : BitVec 16 := w.extractLsb' 16 16

/-- The slice of `len` bits from bit `lo` up is all zero. -/
def Field.zero (w : Command) (lo len : Nat) : Bool := w.extractLsb' lo len == 0#len

/-- `STRAT` (R95): 0 direct, 1 DMA. -/
def Strategy.ofBit (b : BitVec 1) : Strategy := if b = 1#1 then .dma else .direct

/-- The bit `STRAT` of a strategy (R95). -/
def Strategy.bit : Strategy → BitVec 1
  | .direct => 0#1
  | .dma => 1#1

/-- A command whose format's must-be-zero bits are as `ok` says: R105 (b). -/
def Decode.zeroed (ok : Bool) (i : Instr) : Except DecodeError Instr :=
  if ok then .ok i else .error .reserved

/-- Format N (R94): `CMD[127:8] = 0`. -/
def Decode.formatN (w : Command) (i : Instr) : Except DecodeError Instr :=
  Decode.zeroed (Field.zero w 8 120) i

/-- Format C (R95). -/
def Decode.formatC (w : Command) : Except DecodeError Instr :=
  Decode.zeroed (Field.zero w 13 3 && Field.zero w 16 16 && Field.zero w 33 31 && Field.zero w 96 32)
    (.buscfg (Field.pin w) (Strategy.ofBit (w.extractLsb' 32 1)) (w.extractLsb' 64 32))

/-- Format L (R96). -/
def Decode.formatL (w : Command) : Except DecodeError Instr :=
  Decode.zeroed (Field.zero w 13 19 && Field.zero w 64 64) (.regline (Field.pin w) (w.extractLsb' 32 32))

/-- Format Y (R97). -/
def Decode.formatY (w : Command) : Except DecodeError Instr :=
  Decode.zeroed (Field.zero w 13 19 && Field.zero w 72 56)
    (.setbyte (Field.pin w) (w.extractLsb' 32 32) (w.extractLsb' 64 8))

/-- Format G (R98), then the register check of R105 (c). -/
def Decode.formatG (w : Command) : Except DecodeError Instr :=
  if Field.zero w 13 19 && Field.zero w 40 88 then
    if (w.extractLsb' 32 8).toNat ≤ 0x0E ∧ Field.pin w = 0#5 ∨
        0x20 ≤ (w.extractLsb' 32 8).toNat ∧ (w.extractLsb' 32 8).toNat ≤ 0x29 then
      .ok (.rdreg (w.extractLsb' 32 8) (Field.pin w))
    else .error .register
  else .error .reserved

/-- Format M (R99): the operands pin, order and count of the constructor `mk`. -/
def Decode.formatM (w : Command) (mk : Pin → BitVec 3 → BitVec 16 → Instr) : Except DecodeError Instr :=
  Decode.zeroed (Field.zero w 32 96) (mk (Field.pin w) (Field.ord w) (Field.idx w))

/-- Format P8 (R100). -/
def Decode.formatP8 (w : Command) : Except DecodeError Instr :=
  Decode.zeroed (Field.zero w 13 3 && Field.zero w 56 72)
    (.setpix8 (Field.pin w) (Field.idx w) (w.extractLsb' 32 8) (w.extractLsb' 40 8) (w.extractLsb' 48 8))

/-- Format P16 (R100). -/
def Decode.formatP16 (w : Command) : Except DecodeError Instr :=
  Decode.zeroed (Field.zero w 13 3 && Field.zero w 80 48)
    (.setpix16 (Field.pin w) (Field.idx w) (w.extractLsb' 32 16) (w.extractLsb' 48 16) (w.extractLsb' 64 16))

/-- Format S (R102). -/
def Decode.formatS (w : Command) : Except DecodeError Instr :=
  Decode.zeroed (Field.zero w 13 19)
    (.setbrt (Field.pin w) (w.extractLsb' 32 32) (w.extractLsb' 64 32) (w.extractLsb' 96 32))

/-- Format D (R103): `CMD[127:13] = 0`. -/
def Decode.formatD (w : Command) : Except DecodeError Instr :=
  Decode.zeroed (Field.zero w 13 115) (.rmstrip (Field.pin w))

/-- The command of a command word, or why the word is illegal (R104, R105). -/
def decode (w : Command) : Except DecodeError Instr :=
  if Field.opc w = Opc.nop then Decode.formatN w .nop
  else if Field.opc w = Opc.buscfg then Decode.formatC w
  else if Field.opc w = Opc.regline then Decode.formatL w
  else if Field.opc w = Opc.setbyte then Decode.formatY w
  else if Field.opc w = Opc.transmit then Decode.formatN w .transmit
  else if Field.opc w = Opc.rdreg then Decode.formatG w
  else if Field.opc w = Opc.clrerr then Decode.formatN w .clrerr
  else if Field.opc w = Opc.mkws2801 then Decode.formatM w .mkws2801
  else if Field.opc w = Opc.mklpd6803 then Decode.formatM w .mklpd6803
  else if Field.opc w = Opc.mklpd8806 then Decode.formatM w .mklpd8806
  else if Field.opc w = Opc.mkapa102 then Decode.formatM w .mkapa102
  else if Field.opc w = Opc.mksk9822 then Decode.formatM w .mksk9822
  else if Field.opc w = Opc.setpix8 then Decode.formatP8 w
  else if Field.opc w = Opc.setpix16 then Decode.formatP16 w
  else if Field.opc w = Opc.setbrt then Decode.formatS w
  else if Field.opc w = Opc.rmstrip then Decode.formatD w
  else .error .opcode

/-- A field's value at the bits from `lo` up, every other bit 0. -/
def Field.place {n : Nat} (lo : Nat) (v : BitVec n) : Command := v.setWidth 128 <<< lo

/-- Format M's word (R99). -/
def encodeM (opc : BitVec 8) (pin : Pin) (ord : BitVec 3) (count : BitVec 16) : Command :=
  Field.place 0 opc ||| Field.place 8 pin ||| Field.place 13 ord ||| Field.place 16 count

/-- The command word of a command: each operand at the bits its format gives it (R93 to R103), zero elsewhere. -/
def encode : Instr → Command
  | .nop => Field.place 0 Opc.nop
  | .buscfg pin strat freq =>
    Field.place 0 Opc.buscfg ||| Field.place 8 pin ||| Field.place 32 strat.bit ||| Field.place 64 freq
  | .regline pin len => Field.place 0 Opc.regline ||| Field.place 8 pin ||| Field.place 32 len
  | .setbyte pin pos val =>
    Field.place 0 Opc.setbyte ||| Field.place 8 pin ||| Field.place 32 pos ||| Field.place 64 val
  | .transmit => Field.place 0 Opc.transmit
  | .rdreg addr pin => Field.place 0 Opc.rdreg ||| Field.place 8 pin ||| Field.place 32 addr
  | .clrerr => Field.place 0 Opc.clrerr
  | .mkws2801 pin ord count => encodeM Opc.mkws2801 pin ord count
  | .mklpd6803 pin ord count => encodeM Opc.mklpd6803 pin ord count
  | .mklpd8806 pin ord count => encodeM Opc.mklpd8806 pin ord count
  | .mkapa102 pin ord count => encodeM Opc.mkapa102 pin ord count
  | .mksk9822 pin ord count => encodeM Opc.mksk9822 pin ord count
  | .setpix8 pin idx r g b =>
    Field.place 0 Opc.setpix8 ||| Field.place 8 pin ||| Field.place 16 idx ||| Field.place 32 r ||| Field.place 40 g |||
      Field.place 48 b
  | .setpix16 pin idx r g b =>
    Field.place 0 Opc.setpix16 ||| Field.place 8 pin ||| Field.place 16 idx ||| Field.place 32 r |||
      Field.place 48 g ||| Field.place 64 b
  | .setbrt pin rs gs bs =>
    Field.place 0 Opc.setbrt ||| Field.place 8 pin ||| Field.place 32 rs ||| Field.place 64 gs ||| Field.place 96 bs
  | .rmstrip pin => Field.place 0 Opc.rmstrip ||| Field.place 8 pin

/-! The opcode table (R104): a word is a row's command when its bits under the row's mask are the row's pattern. The
table alone decodes every word but for the register check of R105 (c). -/

/-- One row of spec/opcode_table.json: `mask` has a 1 at `OPC` and at every must-be-zero bit. -/
structure OpcodeRow where
  pattern : Command
  mask : Command
deriving DecidableEq, Repr

/-- The mask of format N (R94). -/
def OpcodeRow.maskN : Command := 0xFFFFFFFFFFFFFFFFFFFFFFFFFFFFFFFF#128
/-- The mask of format C (R95). -/
def OpcodeRow.maskC : Command := 0xFFFFFFFF00000000FFFFFFFEFFFFE0FF#128
/-- The mask of format L (R96). -/
def OpcodeRow.maskL : Command := 0xFFFFFFFFFFFFFFFF00000000FFFFE0FF#128
/-- The mask of format Y (R97). -/
def OpcodeRow.maskY : Command := 0xFFFFFFFFFFFFFF0000000000FFFFE0FF#128
/-- The mask of format G (R98). -/
def OpcodeRow.maskG : Command := 0xFFFFFFFFFFFFFFFFFFFFFF00FFFFE0FF#128
/-- The mask of format M (R99). -/
def OpcodeRow.maskM : Command := 0xFFFFFFFFFFFFFFFFFFFFFFFF000000FF#128
/-- The mask of format P8 (R100). -/
def OpcodeRow.maskP8 : Command := 0xFFFFFFFFFFFFFFFFFF0000000000E0FF#128
/-- The mask of format P16 (R100). -/
def OpcodeRow.maskP16 : Command := 0xFFFFFFFFFFFF0000000000000000E0FF#128
/-- The mask of format S (R102). -/
def OpcodeRow.maskS : Command := 0x000000000000000000000000FFFFE0FF#128
/-- The mask of format D (R103). -/
def OpcodeRow.maskD : Command := 0xFFFFFFFFFFFFFFFFFFFFFFFFFFFFE0FF#128

/-- The row of a command. -/
def Instr.row : Instr → OpcodeRow
  | .nop => ⟨0x00#128, OpcodeRow.maskN⟩
  | .buscfg _ _ _ => ⟨0x01#128, OpcodeRow.maskC⟩
  | .regline _ _ => ⟨0x02#128, OpcodeRow.maskL⟩
  | .setbyte _ _ _ => ⟨0x03#128, OpcodeRow.maskY⟩
  | .transmit => ⟨0x04#128, OpcodeRow.maskN⟩
  | .rdreg _ _ => ⟨0x05#128, OpcodeRow.maskG⟩
  | .clrerr => ⟨0x06#128, OpcodeRow.maskN⟩
  | .mkws2801 _ _ _ => ⟨0x10#128, OpcodeRow.maskM⟩
  | .mklpd6803 _ _ _ => ⟨0x11#128, OpcodeRow.maskM⟩
  | .mklpd8806 _ _ _ => ⟨0x12#128, OpcodeRow.maskM⟩
  | .mkapa102 _ _ _ => ⟨0x13#128, OpcodeRow.maskM⟩
  | .mksk9822 _ _ _ => ⟨0x14#128, OpcodeRow.maskM⟩
  | .setpix8 _ _ _ _ _ => ⟨0x18#128, OpcodeRow.maskP8⟩
  | .setpix16 _ _ _ _ _ => ⟨0x19#128, OpcodeRow.maskP16⟩
  | .setbrt _ _ _ _ => ⟨0x1A#128, OpcodeRow.maskS⟩
  | .rmstrip _ => ⟨0x1B#128, OpcodeRow.maskD⟩

/-- All rows, in the table's order. -/
def opcodeTable : List OpcodeRow :=
  [⟨0x00#128, OpcodeRow.maskN⟩, ⟨0x01#128, OpcodeRow.maskC⟩, ⟨0x02#128, OpcodeRow.maskL⟩,
   ⟨0x03#128, OpcodeRow.maskY⟩, ⟨0x04#128, OpcodeRow.maskN⟩, ⟨0x05#128, OpcodeRow.maskG⟩,
   ⟨0x06#128, OpcodeRow.maskN⟩, ⟨0x10#128, OpcodeRow.maskM⟩, ⟨0x11#128, OpcodeRow.maskM⟩,
   ⟨0x12#128, OpcodeRow.maskM⟩, ⟨0x13#128, OpcodeRow.maskM⟩, ⟨0x14#128, OpcodeRow.maskM⟩,
   ⟨0x18#128, OpcodeRow.maskP8⟩, ⟨0x19#128, OpcodeRow.maskP16⟩, ⟨0x1A#128, OpcodeRow.maskS⟩,
   ⟨0x1B#128, OpcodeRow.maskD⟩]

/-- The command the decoder reads from a table row's word: `w` is taken as `nbits` bits, those above are 0, and the
result is the 128-bit word on the command port. -/
def decodeTableWord (nbits w : Nat) : Option Instr :=
  match decode (BitVec.ofNat 128 (w % 2 ^ nbits)) with
  | .ok i => some i
  | .error _ => none

end Sys2Proof
end

