-- ==== Sys2Proof/Config.lean ====
section
/-! DEFINITION. What an instance of the engine fixes (00_scope.md R10) and the environment's free values
(00_scope.md R12 `draw`; 93_implementation_defined.md U3, U13). -/

namespace Sys2Proof

/-- The implementation parameters of 00_scope.md R10, arguments of the model: a machine carries one value of this
type in its state and no step changes it (log 1). `GPIO_CLR_ADDR` and `ENGINE_ID` are fixed by the spec and are
definitions. -/
structure Params where
  /-- `VALID_PINS` -/
  validPins : Word
  /-- `MAX_BYTES` -/
  maxBytes : Nat
  /-- `MIN_WRITES` -/
  minWrites : Nat
  /-- `CAL_N` -/
  calN : Nat
  /-- `CAL_DEFAULT_REPEAT` -/
  calDefaultRepeat : Nat
  /-- `CAL_DEFAULT_BUSY` -/
  calDefaultBusy : Nat
  /-- `MAX_SPAN`, bytes -/
  maxSpan : Nat
  /-- `DMA_BASE` -/
  dmaBase : Word
  /-- `DMA_MEM_BYTES` -/
  dmaMemBytes : Nat
  /-- `GPIO_SET_ADDR` -/
  gpioSetAddr : Word
  /-- `SK_RTAB_R` -/
  skRtabR : Vector Word 32
  /-- `SK_RTAB_GB` -/
  skRtabGB : Vector Word 32
deriving DecidableEq, Repr

/-- The constraint column of 00_scope.md R10. -/
structure Params.Legal (P : Params) : Prop where
  validPins_two : 2 ≤ (List.range 32).countP P.validPins.getLsbD
  maxBytes_pos : 1 ≤ P.maxBytes
  maxBytes_le : P.maxBytes ≤ 2 ^ 27
  minWrites_pos : 1 ≤ P.minWrites
  calN_pos : 1 ≤ P.calN
  calDefaultRepeat_ge : P.minWrites ≤ P.calDefaultRepeat
  maxSpan_ge : 8 ≤ P.maxSpan
  dmaBase_aligned : P.dmaBase.toNat % 32 = 0
  dmaBase_pos : 0 < P.dmaBase.toNat
  dmaMemBytes_aligned : P.dmaMemBytes % 32 = 0
  dmaMemBytes_ge : 64 ≤ P.dmaMemBytes
  dmaMem_fits : P.dmaBase.toNat + P.dmaMemBytes ≤ 2 ^ 32
  gpioSetAddr_aligned : P.gpioSetAddr.toNat % 8 = 0
  gpioSetAddr_outside : P.gpioSetAddr.toNat < P.dmaBase.toNat ∨ P.dmaBase.toNat + P.dmaMemBytes ≤ P.gpioSetAddr.toNat

/-- One reading of the time base: the inputs `time_ok` and `time_ns` (30_encoding.md R91). -/
structure TimeRead where
  ok : Bool
  ns : BitVec 64
deriving DecidableEq, Repr

/-- The n-th draw's `time_ok`, when no reading was supplied in advance: a free value (log 2). -/
opaque Config.timeOk : Nat → Bool

/-- The n-th draw's `time_ns`, when no reading was supplied in advance: a free value (log 2). -/
opaque Config.timeNs : Nat → BitVec 64

/-- The n-th draw's `dma_fault`, when no sample was supplied in advance: a free value (log 2). -/
opaque Config.dmaFault : Nat → Bool

end Sys2Proof
end

