-- ==== Sys2Proof/Machine/Tables.lean ====
section
/-! DEFINITION. The reciprocal table (10_state.md R46) and the platform of the spec's own examples
(95_test_vectors.md, Conventions). -/

namespace Sys2Proof.Machine

/-- `RTAB_APA[0..31]`, the 32 values R46 lists: `(31 << 16) div L` for L in 1..31, entry 0 unused. -/
def rtabApa : Vector Word 32 :=
  #v[0x000000#32, 0x1F0000#32, 0x0F8000#32, 0x0A5555#32, 0x07C000#32, 0x063333#32, 0x052AAA#32, 0x046DB6#32,
     0x03E000#32, 0x0371C7#32, 0x031999#32, 0x02D174#32, 0x029555#32, 0x026276#32, 0x0236DB#32, 0x021111#32,
     0x01F000#32, 0x01D2D2#32, 0x01B8E3#32, 0x01A1AF#32, 0x018CCC#32, 0x0179E7#32, 0x0168BA#32, 0x01590B#32,
     0x014AAA#32, 0x013D70#32, 0x01313B#32, 0x0125ED#32, 0x011B6D#32, 0x0111A7#32, 0x010888#32, 0x010000#32]

/-- The parameters of the conventions of 95_test_vectors.md, `CAL_N` and `MIN_WRITES` those of its program P1, the
calibration defaults those of its vector V27. The spec leaves all of them OPEN (00_scope.md R10): this instance is the
value of `params` after reset and nothing more (DESIGN CHOICE, log 1). -/
def exampleParams : Params where
  validPins := 0xFFFFFFFF#32
  maxBytes := 4096
  minWrites := 2
  calN := 1000
  calDefaultRepeat := 8
  calDefaultBusy := 0
  maxSpan := 64
  dmaBase := 0x40000000#32
  dmaMemBytes := 0x100000
  gpioSetAddr := 0x50000000#32
  skRtabR := rtabApa
  skRtabGB := rtabApa

end Sys2Proof.Machine
end

