-- ==== Sys2Proof/Machine/State.lean ====
section
/-! DEFINITION. The state of the engine (10_state.md R20), the reasons a step can stop, and the state after reset
(10_state.md R53). -/

namespace Sys2Proof.Machine

/-- `PHASE` (10_state.md R22). The value 3 never occurs. -/
inductive Phase where
  /-- 0: no bus exists yet -/
  | unconfigured
  /-- 1, OPEN: lines may be registered -/
  | opened
  /-- 2, LOCKED: the topology is fixed -/
  | locked
deriving DecidableEq, Repr

/-- `STRIP[p].PROTO`, the protocol codes of 00_scope.md R2. -/
inductive Proto where
  | ws2801
  | lpd6803
  | lpd8806
  | apa102
  | sk9822
deriving DecidableEq, Repr

/-- `STRIP[p].ORD`, the component orders of 30_encoding.md R101, named by their wire order. -/
inductive Order where
  | rgb
  | rbg
  | grb
  | gbr
  | brg
  | bgr
deriving DecidableEq, Repr

/-- A colour channel (44_pixel_encoders.md, opening words: "for X in R, G, B"). -/
inductive Chan where
  | red
  | green
  | blue
deriving DecidableEq, Repr

/-- One entry of the strip context file (10_state.md R34). -/
structure Strip where
  /-- `VALID` -/
  valid : Bool
  /-- `PROTO` -/
  proto : Proto
  /-- `ORD` -/
  ord : Order
  /-- `COUNT` -/
  count : BitVec 16
  /-- `RS`, UQ16.16 -/
  rs : Word
  /-- `GS`, UQ16.16 -/
  gs : Word
  /-- `BS`, UQ16.16 -/
  bs : Word
  /-- `LEVEL0` -/
  level0 : BitVec 5
  /-- `COMP_R`, UQ16.16 -/
  compR : Word
  /-- `COMP_G`, UQ16.16 -/
  compG : Word
  /-- `COMP_B`, UQ16.16 -/
  compB : Word
deriving DecidableEq, Repr

/-- A strip entry after reset: `VALID = 0` (R53); the other fields 0, which the spec leaves open (DESIGN CHOICE,
log 4). -/
def Strip.blank : Strip where
  valid := false
  proto := .ws2801
  ord := .rgb
  count := 0#16
  rs := 0#32
  gs := 0#32
  bs := 0#32
  level0 := 0#5
  compR := 0#32
  compG := 0#32
  compB := 0#32

/-- `PH`: which logical write of the tick comes next (10_state.md R39). -/
inductive ShiftPhase where
  /-- A = 0: clock low -/
  | low
  /-- B = 1: clock high -/
  | high
  /-- FINAL = 2 -/
  | final
deriving DecidableEq, Repr

/-- `DMACS`, the three flags of the DMA channel status (10_state.md R41). -/
structure Dmacs where
  /-- `ACTIVE`, bit 0 -/
  active : Bool
  /-- `END`, bit 1 -/
  ended : Bool
  /-- `ERROR`, bit 8 -/
  error : Bool
deriving DecidableEq, Repr

/-- `SUBCAUSE`: why the sequencer stopped (42_transmit_dma.md R210). -/
inductive SubCause where
  /-- 0: none -/
  | none
  /-- 1, `CB_ADDR` -/
  | cbAddr
  /-- 2, `CB_CTRL` -/
  | cbCtrl
  /-- 3, `CB_GEOM` -/
  | cbGeom
  /-- 4, `SRC_FAULT` -/
  | srcFault
  /-- 5, `DST_FAULT` -/
  | dstFault
  /-- 6, `EXT_FAULT` -/
  | extFault
deriving DecidableEq, Repr

/-- One operation on the output port (60_exceptions.md R326). -/
inductive GpioOp where
  /-- `GpioSet(m)` -/
  | set (mask : Word)
  /-- `GpioClr(m)` -/
  | clr (mask : Word)
deriving DecidableEq, Repr

/-- What the host does to the engine (70_reset_and_hazards.md R361). -/
inductive HostEvent where
  /-- a command word presented on the command port -/
  | command (w : Command)
  /-- `rst_n` asserted (R350) -/
  | reset
  /-- a command word presented, and `rst_n` asserted while it runs, after `ops` output operations of it (R352) -/
  | commandReset (w : Command) (ops : Nat)
deriving DecidableEq, Repr

/-- The machine. Engine state is 10_state.md R20; `params`, `timeIn`, `dmaFaultIn` and `drawNo` are the model's own
(log 1, log 2); the rest are the ports and the environment (30_encoding.md R91, 10_state.md R52). -/
structure State where
  /-- the platform parameters of 00_scope.md R10; no step changes them -/
  params : Params
  /-- `PHASE` (R22) -/
  phase : Phase
  /-- `FATAL` (R23) -/
  fatal : Bool
  /-- `BUSY` (R24) -/
  busy : Bool
  /-- `CLKPIN` (R25) -/
  clkPin : Pin
  /-- `STRATEGY` (R25) -/
  strategy : Strategy
  /-- `FREQ` (R25) -/
  freq : Word
  /-- `DATAMASK` (R26) -/
  dataMask : Word
  /-- `SIZE` (R27) -/
  size : Word
  /-- `PLANE` (R27): the nonzero words by tick, in the canonical form of `Memory.wf` -/
  plane : List (Nat × Word)
  /-- `CAL_DONE` (R29) -/
  calDone : Bool
  /-- `CALREP` (R29) -/
  calRep : Word
  /-- `CALBUSY` (R29) -/
  calBusy : Word
  /-- `ERRFLAGS` (R30) -/
  errFlags : BitVec 16
  /-- `LASTERR` (R30) -/
  lastErr : BitVec 16
  /-- `TXCOUNT` (R31) -/
  txCount : Word
  /-- `STRIP[0..31]` (R33) -/
  strips : Vector Strip 32
  /-- `TICK` (R39) -/
  tick : Word
  /-- `PH` (R39) -/
  ph : ShiftPhase
  /-- `DMACS` (R41) -/
  dmacs : Dmacs
  /-- `CONBLK` (R43) -/
  conblk : Word
  /-- `SRCP` (R42) -/
  srcp : Word
  /-- `DSTP` (R42) -/
  dstp : Word
  /-- `ROWCNT` (R42) -/
  rowCnt : BitVec 16
  /-- `ROWNO` (R42) -/
  rowNo : Word
  /-- `SUBCAUSE` (R42) -/
  subCause : SubCause
  /-- `CHAIN_BUILT` (R44) -/
  chainBuilt : Bool
  /-- `NCB` (R44) -/
  ncb : Word
  /-- `ROWBASE` (R44) -/
  rowBase : Word
  /-- `DMEM` (R45): the nonzero bytes by bus address, in the canonical form of `Memory.wf` -/
  dmem : List Host.Cell
  /-- `rsp_valid` and `rsp_data` (30_encoding.md R91, R108) -/
  rsp : Option Response
  /-- `LINES` (R52) -/
  lines : Word
  /-- `PhysTrace` (R52), oldest first -/
  physTrace : List GpioOp
  /-- the pins the GPIO collaborator has in output mode (60_exceptions.md R327) -/
  outPins : Word
  /-- the `gpio_outen_req` requests since reset, oldest first (60_exceptions.md R327) -/
  outenTrace : List Pin
  /-- what the host will do next, first first (70_reset_and_hazards.md R361; log 6) -/
  hostIn : List HostEvent
  /-- readings of the time base supplied in advance (log 2) -/
  timeIn : List TimeRead
  /-- samples of `dma_fault` supplied in advance (log 2) -/
  dmaFaultIn : List Bool
  /-- how many draws were made: selects the next free value (log 2) -/
  drawNo : Nat
deriving DecidableEq, Repr

/-- Why the machine stops. No state a run reaches meets either (Safety.lean, `Inv`; log 8). -/
inductive Fault where
  /-- Raised by `State.busSetBytes` when an encoder or a constructor asks for a plane word that does not exist
  (20_memory.md R63: `pos < SIZE`, `DATAMASK[p] = 1` are preconditions). Safe: the model stops, no value is made up. -/
  | planeMissing
  /-- Raised by `State.memWrites` when the build or copy step of `TRANSMIT` asks for a byte outside `DMEM`
  (20_memory.md R65, R67). Safe: the model stops, no value is made up. -/
  | dmemUnmapped
deriving DecidableEq, Repr

/-- Why an instruction has no meaning. -/
inductive Refusal where
  /-- Raised by `exec` for a command without a meaning; this model has none such. Safe. -/
  | notModelled (mnemonic : String)
deriving DecidableEq, Repr

/-- The machine right after reset: the table of 10_state.md R53. Where that table says unspecified the value is 0 or
empty (DESIGN CHOICE, log 3, log 4, log 5, log 13); the platform is the one of the spec's examples (log 1); no host
event and no environment value is supplied in advance (log 2, log 6). -/
def State.reset : State where
  params := exampleParams
  phase := .unconfigured
  fatal := false
  busy := false
  clkPin := 0#5
  strategy := .direct
  freq := 0#32
  dataMask := 0#32
  size := 0#32
  plane := []
  calDone := false
  calRep := 0#32
  calBusy := 0#32
  errFlags := 0#16
  lastErr := 0#16
  txCount := 0#32
  strips := Vector.replicate 32 Strip.blank
  tick := 0#32
  ph := .low
  dmacs := { active := false, ended := false, error := false }
  conblk := 0#32
  srcp := 0#32
  dstp := 0#32
  rowCnt := 0#16
  rowNo := 0#32
  subCause := .none
  chainBuilt := false
  ncb := 0#32
  rowBase := 0#32
  dmem := []
  rsp := none
  lines := 0#32
  physTrace := []
  outPins := 0#32
  outenTrace := []
  hostIn := []
  timeIn := []
  dmaFaultIn := []
  drawNo := 0

end Sys2Proof.Machine
end

