-- ==== Sys2Proof/Machine/Layout.lean ====
section
/-! DEFINITION. Lengths that the spec computes: the frame of each protocol (43_strip_factory.md R231) and the DMA
memory a buffer needs (42_transmit_dma.md R191). -/

namespace Sys2Proof.Machine

/-- `ceil_div(a, b)` (00_scope.md R11). -/
def ceilDiv (a b : Nat) : Nat := (a + b - 1) / b

/-- `START_LEN` (R231). -/
def Proto.startLen : Proto → Nat
  | .ws2801 => 0
  | .lpd6803 => 4
  | .lpd8806 => 1
  | .apa102 => 4
  | .sk9822 => 4

/-- `PIXW`, bytes of one pixel (R231). -/
def Proto.pixW : Proto → Nat
  | .ws2801 => 3
  | .lpd6803 => 2
  | .lpd8806 => 3
  | .apa102 => 4
  | .sk9822 => 4

/-- `END_LEN` for `n` pixels (R231; 90_conflicts.md C1). -/
def Proto.endLen (p : Proto) (n : Nat) : Nat :=
  match p with
  | .ws2801 => 0
  | .lpd6803 => 4
  | .lpd8806 => 0
  | .apa102 => 4 + ceilDiv n 16
  | .sk9822 => 4 + ceilDiv n 16

/-- `FRAMELEN = START_LEN + PIXW*COUNT + END_LEN` (10_state.md R35). -/
def Proto.frameLen (p : Proto) (n : Nat) : Nat := p.startLen + p.pixW * n + p.endLen n

/-- The bytes of a black pixel (R231). -/
def Proto.black : Proto → List Byte
  | .ws2801 => [0x00#8, 0x00#8, 0x00#8]
  | .lpd6803 => [0x80#8, 0x00#8]
  | .lpd8806 => [0x80#8, 0x80#8, 0x80#8]
  | .apa102 => [0xE1#8, 0x00#8, 0x00#8, 0x00#8]
  | .sk9822 => [0xE1#8, 0x00#8, 0x00#8, 0x00#8]

/-- The all-black frame of `n` pixels: start bytes, pixels, end bytes (R231). -/
def Proto.blackFrame (p : Proto) (n : Nat) : List Byte :=
  List.replicate p.startLen 0x00#8 ++ (List.replicate n p.black).flatten ++ List.replicate (p.endLen n) 0x00#8

/-- `NROWS(n)`, the logical writes of a frame of `n` bytes (R191, 41_transmit_direct.md R162). -/
def nRows (n : Nat) : Nat := 16 * n + 1

/-- `RPC`, rows of one control block (R191). -/
def rowsPerBlock (P : Params) : Nat := min (P.maxSpan / 8) 65535

/-- `NCB_NEEDED(n)` (R191). -/
def ncbNeeded (P : Params) (n : Nat) : Nat := ceilDiv (nRows n) (rowsPerBlock P)

/-- `NeedBytes(n)` (R191). -/
def needBytes (P : Params) (n : Nat) : Nat := 32 * ncbNeeded P n + 8 * nRows n

/-- `GPIO_CLR_ADDR`, fixed at `GPIO_SET_ADDR + 4` (00_scope.md R10). -/
def gpioClrAddr (P : Params) : Word := P.gpioSetAddr + 4#32

/-- `ENGINE_ID`, fixed by the spec (00_scope.md R1, R10). -/
def engineId : Word := 0x53505801#32

end Sys2Proof.Machine
end

