-- ==== Sys2Proof/Machine/Operands.lean ====
section
/-! DEFINITION. What the commands compute from their operands: component orders (30_encoding.md R101), the fixed-point
arithmetic and the pixel bytes of each protocol (44_pixel_encoders.md R264 to R273), the brightness levels (R281). All
quantities are unsigned; products are exact (R265). -/

namespace Sys2Proof.Machine

/-- The order with code `ORD`; 6 and 7 are reserved (30_encoding.md R101). -/
def Order.ofCode (c : BitVec 3) : Option Order :=
  match c.toNat with
  | 0 => some .rgb
  | 1 => some .rbg
  | 2 => some .grb
  | 3 => some .gbr
  | 4 => some .brg
  | 5 => some .bgr
  | _ => none

/-- The code of an order (R101). -/
def Order.code : Order → BitVec 3
  | .rgb => 0#3
  | .rbg => 1#3
  | .grb => 2#3
  | .gbr => 3#3
  | .brg => 4#3
  | .bgr => 5#3

/-- `slotX`: the place of channel X on the wire (R101). -/
def Order.slot : Order → Chan → Nat
  | .rgb, .red => 0 | .rgb, .green => 1 | .rgb, .blue => 2
  | .rbg, .red => 0 | .rbg, .green => 2 | .rbg, .blue => 1
  | .grb, .red => 1 | .grb, .green => 0 | .grb, .blue => 2
  | .gbr, .red => 2 | .gbr, .green => 0 | .gbr, .blue => 1
  | .brg, .red => 1 | .brg, .green => 2 | .brg, .blue => 0
  | .bgr, .red => 2 | .bgr, .green => 1 | .bgr, .blue => 0

/-- The channel at a slot 0, 1, 2: the letters of the order's name (R101). -/
def Order.chanAt : Order → Nat → Chan
  | .rgb, 0 => .red | .rgb, 1 => .green | .rgb, _ => .blue
  | .rbg, 0 => .red | .rbg, 1 => .blue | .rbg, _ => .green
  | .grb, 0 => .green | .grb, 1 => .red | .grb, _ => .blue
  | .gbr, 0 => .green | .gbr, 1 => .blue | .gbr, _ => .red
  | .brg, 0 => .blue | .brg, 1 => .red | .brg, _ => .green
  | .bgr, 0 => .blue | .bgr, 1 => .green | .bgr, _ => .red

/-- The code of a protocol (00_scope.md R2). -/
def Proto.code : Proto → BitVec 3
  | .ws2801 => 0#3
  | .lpd6803 => 1#3
  | .lpd8806 => 2#3
  | .apa102 => 3#3
  | .sk9822 => 4#3

/-- The constructor command of a protocol (43_strip_factory.md R233). -/
def Proto.constructor (proto : Proto) (pin : Pin) (ord : BitVec 3) (count : BitVec 16) : Instr :=
  match proto with
  | .ws2801 => .mkws2801 pin ord count
  | .lpd6803 => .mklpd6803 pin ord count
  | .lpd8806 => .mklpd8806 pin ord count
  | .apa102 => .mkapa102 pin ord count
  | .sk9822 => .mksk9822 pin ord count

/-- `1.0` in UQ16.16 (00_scope.md R11). -/
def one : Word := 0x00010000#32

/-- `sat_32(v)` as a register value (00_scope.md R11). -/
def sat32 (v : Nat) : Word := BitVec.ofNat 32 (min v (2 ^ 32 - 1))

/-- `clamp(v, lo, hi)` (00_scope.md R11). -/
def clamp (v lo hi : Nat) : Nat := max lo (min v hi)

/-- The brightness scale `S.XS` of channel X. -/
def Strip.scale (S : Strip) : Chan → Word
  | .red => S.rs
  | .green => S.gs
  | .blue => S.bs

/-- The component multiplier `S.COMP_X` of channel X. -/
def Strip.comp (S : Strip) : Chan → Word
  | .red => S.compR
  | .green => S.compG
  | .blue => S.compB

/-- `RTAB(proto, X)` (10_state.md R47); the protocols that never read it take `RTAB_APA` (R281). -/
def rtab (P : Params) : Proto → Chan → Vector Word 32
  | .sk9822, .red => P.skRtabR
  | .sk9822, .green => P.skRtabGB
  | .sk9822, .blue => P.skRtabGB
  | .ws2801, _ => rtabApa
  | .lpd6803, _ => rtabApa
  | .lpd8806, _ => rtabApa
  | .apa102, _ => rtabApa

/-- Entry `level` of a table. -/
def rtabAt (T : Vector Word 32) (level : BitVec 5) : Nat := (T[level.toNat]'level.isLt).toNat

/-- `(c * s) >> 16`: a value times a UQ16.16 scale, rounded down (R264, R265). -/
def scaled (c s : Nat) : Nat := (c * s) >>> 16

/-- `Scale8(c, s)` (R264). -/
def scale8 (c s : Nat) : Nat := min 255 (scaled c s)

/-- The colour operands of a pixel write, by channel. -/
def chanValue {w : Nat} (r g b : BitVec w) : Chan → Nat
  | .red => r.toNat
  | .green => g.toNat
  | .blue => b.toNat

/-- WS2801 (R266): the three colour bytes in wire order. -/
def ws2801Pixel (S : Strip) (v : Chan → Nat) : List Byte :=
  [0, 1, 2].map fun k => BitVec.ofNat 8 (scale8 (v (S.ord.chanAt k)) (S.scale (S.ord.chanAt k)).toNat)

/-- LPD6803 (R268): field `k` of the pixel word, 5 bits. -/
def lpd6803Field (S : Strip) (v : Chan → Nat) (k : Nat) : BitVec 5 :=
  BitVec.ofNat 5 (scale8 (v (S.ord.chanAt k)) (S.scale (S.ord.chanAt k)).toNat >>> 3)

/-- LPD6803 (R268, 30_encoding.md R113): `WORD = {1, F0, F1, F2}`. -/
def lpd6803Word (S : Strip) (v : Chan → Nat) : BitVec 16 :=
  1#1 ++ lpd6803Field S v 0 ++ lpd6803Field S v 1 ++ lpd6803Field S v 2

/-- LPD6803 (R268): high byte first (20_memory.md R79). -/
def lpd6803Pixel (S : Strip) (v : Chan → Nat) : List Byte :=
  [(lpd6803Word S v).extractLsb' 8 8, (lpd6803Word S v).extractLsb' 0 8]

/-- LPD8806 (R270): the three colour bytes in wire order, top bit forced to 1. -/
def lpd8806Pixel (S : Strip) (v : Chan → Nat) : List Byte :=
  [0, 1, 2].map fun k =>
    0x80#8 ||| BitVec.ofNat 8 (scale8 (v (S.ord.chanAt k)) (S.scale (S.ord.chanAt k)).toNat >>> 1)

/-- The brightness byte `0xE0 | level` (30_encoding.md R115). -/
def brightnessByte (level : BitVec 5) : Byte := 0xE0#8 ||| level.setWidth 8

/-- APA102 and SK9822, 8-bit path (R272): the strip's own level and multipliers. -/
def apaPixel8 (S : Strip) (v : Chan → Nat) : List Byte :=
  brightnessByte S.level0 ::
    [0, 1, 2].map fun k =>
      BitVec.ofNat 8 (min 255 (scaled (v (S.ord.chanAt k)) (S.comp (S.ord.chanAt k)).toNat))

/-- `w_X`: the 16-bit intensity wanted at level 31 (R273). -/
def apaWanted (S : Strip) (v : Chan → Nat) (X : Chan) : Nat := min 65535 (scaled (v X) (S.scale X).toNat)

/-- `Lp`: the pixel's own level, 1..31 (R273). -/
def apaLevel (S : Strip) (v : Chan → Nat) : Nat :=
  ((max (max (apaWanted S v .red) (apaWanted S v .green)) (apaWanted S v .blue) * 31) >>> 16) + 1

/-- APA102 and SK9822, 16-bit path (R273). -/
def apaPixel16 (P : Params) (S : Strip) (v : Chan → Nat) : List Byte :=
  brightnessByte (BitVec.ofNat 5 (apaLevel S v)) ::
    [0, 1, 2].map fun k =>
      BitVec.ofNat 8 (min 255 ((apaWanted S v (S.ord.chanAt k) *
        rtabAt (rtab P S.proto (S.ord.chanAt k)) (BitVec.ofNat 5 (apaLevel S v))) >>> 24))

/-- The bytes of `SetPixel8` (R262): dispatch by protocol (43_strip_factory.md R241). -/
def pixelBytes8 (S : Strip) (v : Chan → Nat) : List Byte :=
  match S.proto with
  | .ws2801 => ws2801Pixel S v
  | .lpd6803 => lpd6803Pixel S v
  | .lpd8806 => lpd8806Pixel S v
  | .apa102 => apaPixel8 S v
  | .sk9822 => apaPixel8 S v

/-- The bytes of `SetPixel16` (R263): the 8-bit protocols round down to 8 bits first (R267, R269, R271). -/
def pixelBytes16 (P : Params) (S : Strip) (v : Chan → Nat) : List Byte :=
  match S.proto with
  | .ws2801 => ws2801Pixel S (fun X => v X >>> 8)
  | .lpd6803 => lpd6803Pixel S (fun X => v X >>> 8)
  | .lpd8806 => lpd8806Pixel S (fun X => v X >>> 8)
  | .apa102 => apaPixel16 P S v
  | .sk9822 => apaPixel16 P S v

/-- The position of pixel `i`'s first byte (10_state.md R35). -/
def Strip.pixelBase (S : Strip) (i : Nat) : Nat := S.proto.startLen + S.proto.pixW * i

/-- `LEVEL0` for three scales (R281). -/
def level0Of (rs gs bs : Word) : BitVec 5 :=
  BitVec.ofNat 5 (clamp ((max (max rs.toNat gs.toNat) bs.toNat * 31 + 0xFFFF) >>> 16) 1 31)

/-- `COMP_X` for a scale, a table and a level (R281). -/
def compOf (xs : Word) (T : Vector Word 32) (level : BitVec 5) : Word := sat32 (scaled xs.toNat (rtabAt T level))

/-- `SETBRT`'s effect on the strip entry: the scales and what is recomputed from them (R280, R281). -/
def Strip.withScales (P : Params) (S : Strip) (rs gs bs : Word) : Strip :=
  { S with
    rs := rs, gs := gs, bs := bs
    level0 := level0Of rs gs bs
    compR := compOf rs (rtab P S.proto .red) (level0Of rs gs bs)
    compG := compOf gs (rtab P S.proto .green) (level0Of rs gs bs)
    compB := compOf bs (rtab P S.proto .blue) (level0Of rs gs bs) }

/-- The entry a constructor writes (43_strip_factory.md R233): scales 1.0, level 31, multipliers 1.0. -/
def Strip.fresh (proto : Proto) (ord : Order) (count : BitVec 16) : Strip where
  valid := true
  proto := proto
  ord := ord
  count := count
  rs := one
  gs := one
  bs := one
  level0 := 31#5
  compR := one
  compG := one
  compB := one

/-- `FRAMELEN` of a strip (10_state.md R35). -/
def Strip.frameLen (S : Strip) : Nat := S.proto.frameLen S.count.toNat

/-- Consecutive bytes with their positions, from `base` up. -/
def placed (base : Nat) : List Byte → List (Nat × Byte)
  | [] => []
  | v :: vs => (base, v) :: placed (base + 1) vs

end Sys2Proof.Machine
end

