-- ==== Sys2Proof/Machine/Flags.lean ====
section
/-! DEFINITION. Status codes, the error record's bits, and the flag words a register read assembles (60_exceptions.md
R310, 10_state.md R30, R41, R48, R50, 30_encoding.md R108). The engine has no arithmetic flags (10_state.md R48). -/

namespace Sys2Proof.Machine

/-- The nonzero status codes (R310). `OK` is 0 and is no error. -/
inductive Err where
  /-- 1, `ERR_ILLEGAL` -/
  | illegal
  /-- 2, `ERR_STATE` -/
  | state
  /-- 3, `ERR_PIN` -/
  | pin
  /-- 4, `ERR_LOCKED` -/
  | locked
  /-- 5, `ERR_RANGE` -/
  | range
  /-- 6, `ERR_ALLOC` -/
  | alloc
  /-- 7, `ERR_DMA` -/
  | dma
  /-- 8, `ERR_FATAL` -/
  | fatal
  /-- 9, `ERR_STRIP` -/
  | strip
deriving DecidableEq, Repr

/-- The code of an error (R310). -/
def Err.code : Err → BitVec 8
  | .illegal => 1#8
  | .state => 2#8
  | .pin => 3#8
  | .locked => 4#8
  | .range => 5#8
  | .alloc => 6#8
  | .dma => 7#8
  | .fatal => 8#8
  | .strip => 9#8

/-- The status code `OK` (R310). -/
def okCode : BitVec 8 := 0#8

/-- The sticky bit of an error in `ERRFLAGS` (10_state.md R30). -/
def Err.flag (e : Err) : BitVec 16 := 1#16 <<< e.code.toNat

/-- The code of a sub-cause (42_transmit_dma.md R210). -/
def SubCause.code : SubCause → BitVec 8
  | .none => 0#8
  | .cbAddr => 1#8
  | .cbCtrl => 2#8
  | .cbGeom => 3#8
  | .srcFault => 4#8
  | .dstFault => 5#8
  | .extFault => 6#8

/-- `LASTERR`: sub-cause [15:8], code [7:0] (10_state.md R30). -/
def lastErrOf (e : Err) (sub : SubCause) : BitVec 16 := sub.code ++ e.code

/-- `RSP`: value [63:32], sub-cause [31:16], opcode echo [15:8], status [7:0] (30_encoding.md R108). -/
def rspOf (code opc : BitVec 8) (sub : SubCause) (value : Word) : Response := value ++ 0#8 ++ sub.code ++ opc ++ code

/-- The `STATUS` register (10_state.md R50). -/
def State.statusWord (s : State) : Word :=
  0#25 ++ BitVec.ofBool s.chainBuilt ++ s.strategy.bit ++ BitVec.ofBool s.calDone ++ BitVec.ofBool s.fatal ++
    BitVec.ofBool s.busy ++ BitVec.ofBool (s.phase == .locked) ++ BitVec.ofBool (s.phase != .unconfigured)

/-- The `DMACS` register (10_state.md R41, R50). -/
def Dmacs.word (d : Dmacs) : Word :=
  0#23 ++ BitVec.ofBool d.error ++ 0#6 ++ BitVec.ofBool d.ended ++ BitVec.ofBool d.active

/-- The `SCTL` register of a strip that exists (10_state.md R50). -/
def Strip.ctlWord (S : Strip) : Word := S.count ++ 0#9 ++ S.ord.code ++ S.proto.code ++ BitVec.ofBool S.valid

end Sys2Proof.Machine
end

