-- ==== Sys2Proof/Machine/Memory.lean ====
section
/-! DEFINITION. Sparse memory in one canonical form: indexes strictly rising, no zero value listed. The plane is such a
memory of words by tick (10_state.md R27), `DMEM` one of bytes by bus address (10_state.md R45). -/

namespace Sys2Proof.Machine

/-- What an unlisted index reads as: 0. For the plane this is the zero-fill of 10_state.md R28; for `DMEM`, whose
contents after reset the spec leaves open, a DESIGN CHOICE (log 5). -/
def Memory.unlisted (w : Nat) : BitVec w := 0#w

/-- The value at index `a`. -/
def Memory.read {w : Nat} : List (Nat × BitVec w) → Nat → BitVec w
  | [], _ => Memory.unlisted w
  | (b, v) :: m, a => if b = a then v else Memory.read m a

/-- Store `v` at index `a`: the entries below, the new entry unless it is what an unlisted index reads as, the entries
above. -/
def Memory.write {w : Nat} (m : List (Nat × BitVec w)) (a : Nat) (v : BitVec w) : List (Nat × BitVec w) :=
  m.filter (fun e => e.1 < a) ++ (if v = Memory.unlisted w then [] else [(a, v)]) ++ m.filter (fun e => a < e.1)

/-- Only the indexes below `n` exist from here on. -/
def Memory.below {w : Nat} (m : List (Nat × BitVec w)) (n : Nat) : List (Nat × BitVec w) :=
  m.filter (fun e => e.1 < n)

/-- The canonical form. -/
def Memory.wf {w : Nat} (m : List (Nat × BitVec w)) : Bool :=
  decide (m.Pairwise (fun x y => x.1 < y.1)) && m.all (fun e => e.2 != Memory.unlisted w)

/-- `MemRead(a, 4)`: little-endian (20_memory.md R67). -/
def Memory.readWord (m : List Host.Cell) (a : Nat) : Word :=
  Memory.read m (a + 3) ++ Memory.read m (a + 2) ++ Memory.read m (a + 1) ++ Memory.read m a

/-- `MemWrite(a, 4, v)`: little-endian (20_memory.md R67). -/
def Memory.writeWord (m : List Host.Cell) (a : Nat) (v : Word) : List Host.Cell :=
  Memory.write
    (Memory.write
      (Memory.write (Memory.write m a (v.extractLsb' 0 8)) (a + 1) (v.extractLsb' 8 8))
      (a + 2) (v.extractLsb' 16 8))
    (a + 3) (v.extractLsb' 24 8)

end Sys2Proof.Machine
end

