-- ==== Sys2Proof/Machine/Ops.lean ====
section
/-! DEFINITION. The shared operations: ending a command (`State.respond`, and `State.raise`, the one way a command
fails), the gates of the common prologue, the output port, the environment's draws, the bus byte store, `DMEM`. -/

namespace Sys2Proof.Machine

/-! Ending a command (30_encoding.md R108, 60_exceptions.md R312). -/

/-- `Respond(OK, value)` (R108). -/
def State.respond (s : State) (opc : BitVec 8) (value : Word) : State :=
  { s with rsp := some (rspOf okCode opc .none value) }

/-- `raise Err(code)` (R312): the one way a command fails. The sticky bit is set, `LASTERR` takes code and sub-cause,
the response carries them; nothing is saved, nothing is vectored and there is no return (R324). `sub` is not `none`
for `ERR_DMA` only. -/
def State.raise (s : State) (opc : BitVec 8) (e : Err) (sub : SubCause) : State :=
  { s with
    errFlags := s.errFlags ||| e.flag
    lastErr := lastErrOf e sub
    rsp := some (rspOf e.code opc sub 0#32) }

/-- The outcome of a command that fails by a check (R312): a next state. -/
def fails (s : State) (opc : BitVec 8) (e : Err) : Host.Outcome State Fault Refusal := .next (s.raise opc e .none)

/-- The common prologue's steps 2 and 3 (60_exceptions.md R313) for every command but `NOP`, `BUSCFG`, `RDREG`,
`CLRERR`: the error it ends with, if any. -/
def State.gate (s : State) : Option Err :=
  if s.fatal then some .fatal else if s.phase = .unconfigured then some .state else none

/-- The same two steps for `BUSCFG` (R313). -/
def State.gateBuscfg (s : State) : Option Err :=
  if s.fatal then some .fatal else if s.phase = .unconfigured then none else some .state

/-! Pins, masks and strips (10_state.md R21, R25, R26, R33). -/

/-- `bit(p)` (00_scope.md R11). -/
def pinBit (p : Pin) : Word := BitVec.twoPow 32 p.toNat

/-- `VALID_PINS[p] = 1` (R21), the answer of `gpio_outen_ok` (30_encoding.md R91). -/
def State.pinValid (s : State) (p : Pin) : Bool := s.params.validPins.getLsbD p.toNat

/-- `DATAMASK[p] = 1` (R26). -/
def State.registered (s : State) (p : Pin) : Bool := s.dataMask.getLsbD p.toNat

/-- `CLKBIT` (R25). -/
def State.clkBit (s : State) : Word := pinBit s.clkPin

/-- `OUTS` (R26). -/
def State.outs (s : State) : Word := s.dataMask ||| s.clkBit

/-- `STRIP[p]` (R33). -/
def State.strip (s : State) (p : Pin) : Strip := s.strips[p.toNat]'p.isLt

/-- `STRIP[p] <- S` (R33). -/
def State.setStrip (s : State) (p : Pin) (S : Strip) : State := { s with strips := s.strips.set p.toNat S p.isLt }

/-! The output port (60_exceptions.md R326, R327, 10_state.md R52). -/

/-- The level of the lines after an operation (R52). -/
def GpioOp.apply (l : Word) : GpioOp → Word
  | .set m => l ||| m
  | .clr m => l &&& ~~~m

/-- The level of the lines after a list of operations. -/
def linesAfter (l : Word) (ops : List GpioOp) : Word := ops.foldl GpioOp.apply l

/-- The engine issues these operations, in this order. -/
def State.issue (s : State) (ops : List GpioOp) : State :=
  { s with lines := linesAfter s.lines ops, physTrace := s.physTrace ++ ops }

/-- The values of `LINES & mask` after each operation, before merging (10_state.md R52). -/
def levels (mask l : Word) : List GpioOp → List Word
  | [] => []
  | op :: ops => (GpioOp.apply l op &&& mask) :: levels mask (GpioOp.apply l op) ops

/-- Consecutive equal values merged into one. -/
def merged : List Word → List Word
  | [] => []
  | v :: vs =>
    match merged vs with
    | [] => [v]
    | u :: us => if v = u then u :: us else v :: u :: us

/-- `Waveform(mask)` of a list of operations issued from level `l` (10_state.md R52): the level after each operation,
calibration writes included, consecutive equal values merged. -/
def waveform (mask l : Word) (ops : List GpioOp) : List Word := merged (levels mask l ops)

/-- The operations of a command without its calibration writes, the empty clear operations at the head
(41_transmit_direct.md R170): a frame begins with a set operation (R163), so no write of the frame is dropped. -/
def logicalOps (ops : List GpioOp) : List GpioOp := ops.dropWhile (· = .clr 0#32)

/-- The waveform of the frame in a command's operations, the list 41_transmit_direct.md R171 writes out: it begins with
the level the first logical write makes. It differs from `waveform` for a first direct `TRANSMIT` only (log 10). -/
def frameWaveform (mask l : Word) (ops : List GpioOp) : List Word := waveform mask l (logicalOps ops)

/-- Request output mode for a pin: one `gpio_outen_req` (60_exceptions.md R327). Every caller has checked `pinValid`,
so the collaborator answers ok and the pin is an output from then on. The level of a pin at the moment it becomes an
output is not defined by the source (R327, 93_implementation_defined.md U6): that its bit of `LINES` stays as it was is
the model's choice (log 21). -/
def State.requestOutput (s : State) (p : Pin) : State :=
  { s with outPins := s.outPins ||| pinBit p, outenTrace := s.outenTrace ++ [p] }

/-! The environment's draws (00_scope.md R12; log 2): the next value supplied in advance, else the next free value. -/

/-- `draw (ok, t) from (time_ok, time_ns)` (41_transmit_direct.md R168). -/
def State.drawTime (s : State) : TimeRead × State :=
  match s.timeIn with
  | t :: ts => (t, { s with timeIn := ts, drawNo := s.drawNo + 1 })
  | [] => ({ ok := Config.timeOk s.drawNo, ns := Config.timeNs s.drawNo }, { s with drawNo := s.drawNo + 1 })

/-- `draw f` from `dma_fault` (42_transmit_dma.md R208). -/
def State.drawFault (s : State) : Bool × State :=
  match s.dmaFaultIn with
  | f :: fs => (f, { s with dmaFaultIn := fs, drawNo := s.drawNo + 1 })
  | [] => (Config.dmaFault s.drawNo, { s with drawNo := s.drawNo + 1 })

/-! The bus byte store (20_memory.md R62 to R64). -/

/-- `PLANE[t]` (10_state.md R27). -/
def State.planeAt (s : State) (t : Nat) : Word := Memory.read s.plane t

/-- One of the 8 updates of `BusSetByte` (R63): bit `p` of word `t`. -/
def planeSetBit (p : Pin) (pl : List (Nat × Word)) (t : Nat) (b : Bool) : List (Nat × Word) :=
  Memory.write pl t (if b then Memory.read pl t ||| pinBit p else Memory.read pl t &&& ~~~pinBit p)

/-- The loop of `BusSetByte(p, pos, v)` (R63): `k` in 0..7, bit `7-k` of `v` into word `8*pos + k`. -/
def busSetByte (p : Pin) (pl : List (Nat × Word)) (pos : Nat) (v : Byte) : List (Nat × Word) :=
  (List.range 8).foldl (fun pl k => planeSetBit p pl (8 * pos + k) (v.getLsbD (7 - k))) pl

/-- Calls of `BusSetByte` in order. -/
def busSetAll (p : Pin) (pl : List (Nat × Word)) (ws : List (Nat × Byte)) : List (Nat × Word) :=
  ws.foldl (fun pl w => busSetByte p pl w.1 w.2) pl

/-- Calls of `BusSetByte` for pin `p`, under its preconditions `DATAMASK[p] = 1`, `pos < SIZE` (R63), which every
caller meets in every reachable state (log 8). -/
def State.busSetBytes (s : State) (p : Pin) (ws : List (Nat × Byte)) : Except Fault State :=
  if s.registered p && ws.all (fun w => w.1 < s.size.toNat) then .ok { s with plane := busSetAll p s.plane ws }
  else .error .planeMissing

/-- `Byte(p, pos)` (R64): bit `7-k` is bit `p` of `PLANE[8*pos + k]`. -/
def State.byteAt (s : State) (p : Pin) (pos : Nat) : Byte :=
  BitVec.ofBool ((s.planeAt (8 * pos)).getLsbD p.toNat) ++ BitVec.ofBool ((s.planeAt (8 * pos + 1)).getLsbD p.toNat) ++
    BitVec.ofBool ((s.planeAt (8 * pos + 2)).getLsbD p.toNat) ++
    BitVec.ofBool ((s.planeAt (8 * pos + 3)).getLsbD p.toNat) ++
    BitVec.ofBool ((s.planeAt (8 * pos + 4)).getLsbD p.toNat) ++
    BitVec.ofBool ((s.planeAt (8 * pos + 5)).getLsbD p.toNat) ++
    BitVec.ofBool ((s.planeAt (8 * pos + 6)).getLsbD p.toNat) ++
    BitVec.ofBool ((s.planeAt (8 * pos + 7)).getLsbD p.toNat)

/-- `Stream(p)` (R64). -/
def State.stream (s : State) (p : Pin) : List Byte := (List.range s.size.toNat).map (s.byteAt p)

/-- The effect of registering a line with `len` bytes (40_bus_commands.md R132): output mode, the mask bit, and growth
of the buffer, the new words zero (10_state.md R28). -/
def State.registerLine (s : State) (p : Pin) (len : Nat) : State :=
  let s := s.requestOutput p
  let s := { s with dataMask := s.dataMask ||| pinBit p }
  if len > s.size.toNat then
    { s with plane := Memory.below s.plane (8 * s.size.toNat), size := BitVec.ofNat 32 len }
  else s

/-- The checks `ERR_LOCKED`, then `ERR_PIN`, of a registration (40_bus_commands.md R132, 43_strip_factory.md R233). -/
def State.lockPinError (s : State) (p : Pin) : Option Err :=
  if s.phase = .locked then some .locked
  else if !s.pinValid p || p == s.clkPin then some .pin
  else none

/-- The capacity check of a registration of `len` bytes (R132 (3), R233 (4)). -/
def State.overCapacity (s : State) (len : Nat) : Bool := len > s.params.maxBytes

/-- The DMA memory check of a registration of `len` bytes (R132 (4), R233 (5), 42_transmit_dma.md R192). -/
def State.imageTooLarge (s : State) (len : Nat) : Bool :=
  s.strategy == .dma && decide (needBytes s.params (max s.size.toNat len) > s.params.dmaMemBytes)

/-- The fatal form of `ERR_ALLOC` (60_exceptions.md R319): `FATAL <- 1; raise Err(ERR_ALLOC)`. -/
def failsFatally (s : State) (opc : BitVec 8) : Host.Outcome State Fault Refusal :=
  .next (({ s with fatal := true }).raise opc .alloc .none)

/-! `DMEM` and its bus addresses (20_memory.md R65 to R68). -/

/-- The four bytes at bus address `a` lie in `DMEM` (R65). -/
def State.wordInDmem (s : State) (a : Nat) : Bool :=
  s.params.dmaBase.toNat ≤ a && a + 4 ≤ s.params.dmaBase.toNat + s.params.dmaMemBytes

/-- `MemWrite(a, 4, v)` for each pair, in order (R67). The engine's own build and copy steps stay inside `DMEM` in
every reachable state (log 8). -/
def State.memWrites (s : State) (ws : List (Nat × Word)) : Except Fault State :=
  if ws.all (fun w => s.wordInDmem w.1) then
    .ok { s with dmem := ws.foldl (fun m w => Memory.writeWord m w.1 w.2) s.dmem }
  else .error .dmemUnmapped

/-- `MemRead(a, 4)` (R67). -/
def State.memRead (s : State) (a : Nat) : Word := Memory.readWord s.dmem a

end Sys2Proof.Machine
end

