-- ==== Sys2Proof/Machine/BusCommands.lean ====
section
/-! DEFINITION. The meanings of `NOP`, `BUSCFG`, `REGLINE`, `SETBYTE`, `RDREG`, `CLRERR` (40_bus_commands.md). -/

namespace Sys2Proof.Machine

/-- `NOP` (R130). -/
def execNop (s : State) : Host.Outcome State Fault Refusal := .next (s.respond Opc.nop 0#32)

/-- The effect of `BUSCFG` (R131): the bus is created. -/
def State.configure (s : State) (pin : Pin) (strat : Strategy) (freq : Word) : State :=
  { s.requestOutput pin with clkPin := pin, strategy := strat, freq := freq, phase := .opened }

/-- `BUSCFG clk, strat, freq` (R131). -/
def execBuscfg (pin : Pin) (strat : Strategy) (freq : Word) (s : State) : Host.Outcome State Fault Refusal :=
  match s.gateBuscfg with
  | some e => fails s Opc.buscfg e
  | none =>
    if s.pinValid pin then .next ((s.configure pin strat freq).respond Opc.buscfg 0#32)
    else fails s Opc.buscfg .pin

/-- `REGLINE pin, len` (R132). -/
def execRegline (pin : Pin) (len : Word) (s : State) : Host.Outcome State Fault Refusal :=
  match s.gate with
  | some e => fails s Opc.regline e
  | none =>
    match s.lockPinError pin with
    | some e => fails s Opc.regline e
    | none =>
      if s.overCapacity len.toNat then fails s Opc.regline .alloc
      else if s.imageTooLarge len.toNat then failsFatally s Opc.regline
      else
        .next ((s.registerLine pin len.toNat).respond Opc.regline (s.registerLine pin len.toNat).size)

/-- `SETBYTE pin, pos, val` (R133). -/
def execSetbyte (pin : Pin) (pos : Word) (val : Byte) (s : State) : Host.Outcome State Fault Refusal :=
  match s.gate with
  | some e => fails s Opc.setbyte e
  | none =>
    if !s.registered pin then fails s Opc.setbyte .pin
    else if pos.toNat ≥ s.size.toNat then fails s Opc.setbyte .range
    else
      match s.busSetBytes pin [(pos.toNat, val)] with
      | .ok t => .next (t.respond Opc.setbyte 0#32)
      | .error f => .fault f

/-- A bus register, addresses 0x00 to 0x0E (10_state.md R50). -/
def State.busRegister (s : State) (addr : Nat) : Option Word :=
  match addr with
  | 0x00 => some engineId
  | 0x01 => some s.statusWord
  | 0x02 => some (s.errFlags.setWidth 32)
  | 0x03 => some (s.clkPin.setWidth 32)
  | 0x04 => some s.dataMask
  | 0x05 => some s.size
  | 0x06 => some s.freq
  | 0x07 => some s.calRep
  | 0x08 => some s.calBusy
  | 0x09 => some s.txCount
  | 0x0A => some s.dmacs.word
  | 0x0B => some s.conblk
  | 0x0C => some s.ncb
  | 0x0D => some s.rowBase
  | 0x0E => some (s.lastErr.setWidth 32)
  | _ => none

/-- A strip register of a strip that exists, addresses 0x20 to 0x29 (10_state.md R50). -/
def Strip.register (S : Strip) (addr : Nat) : Option Word :=
  match addr with
  | 0x20 => some S.ctlWord
  | 0x21 => some S.rs
  | 0x22 => some S.gs
  | 0x23 => some S.bs
  | 0x24 => some (S.level0.setWidth 32)
  | 0x25 => some S.compR
  | 0x26 => some S.compG
  | 0x27 => some S.compB
  | 0x28 => some (BitVec.ofNat 32 S.frameLen)
  | 0x29 => some (BitVec.ofNat 32 S.proto.startLen)
  | _ => none

/-- `CSR(a, p)` (10_state.md R49): bus registers with pin operand 0; strip registers of any pin, 0 where no strip
exists; every other address undefined. -/
def State.csr (s : State) (addr : BitVec 8) (pin : Pin) : Option Word :=
  if addr.toNat < 0x20 then if pin = 0#5 then s.busRegister addr.toNat else none
  else (Strip.register (s.strip pin) addr.toNat).map fun v => if (s.strip pin).valid then v else 0#32

/-- `RDREG addr, pin` (R135). The decoder has refused an undefined register; for a term that is not well formed the
meaning is the same error (log 17). -/
def execRdreg (addr : BitVec 8) (pin : Pin) (s : State) : Host.Outcome State Fault Refusal :=
  match s.csr addr pin with
  | some v => .next (s.respond Opc.rdreg v)
  | none => fails s Opc.rdreg .illegal

/-- `CLRERR` (R136). -/
def execClrerr (s : State) : Host.Outcome State Fault Refusal :=
  .next (({ s with errFlags := 0#16, lastErr := 0#16 }).respond Opc.clrerr 0#32)

end Sys2Proof.Machine
end

