-- ==== Sys2Proof/Machine/Pixels.lean ====
section
/-! DEFINITION. The meanings of `SETPIX8`, `SETPIX16`, `SETBRT` (44_pixel_encoders.md). -/

namespace Sys2Proof.Machine

/-- The common contract of a pixel write (R260, R261): the gate, the strip, the silent index check, then `PIXW` calls
of `BusSetByte` from the pixel's first position. `bytes` are the pixel's bytes for the strip. -/
def setPixel (opc : BitVec 8) (pin : Pin) (idx : BitVec 16) (bytes : Strip → List Byte) (s : State) :
    Host.Outcome State Fault Refusal :=
  match s.gate with
  | some e => fails s opc e
  | none =>
    if !(s.strip pin).valid then fails s opc .strip
    else if idx.toNat ≥ (s.strip pin).count.toNat then .next (s.respond opc 0#32)
    else
      match s.busSetBytes pin (placed ((s.strip pin).pixelBase idx.toNat) (bytes (s.strip pin))) with
      | .ok t => .next (t.respond opc 0#32)
      | .error f => .fault f

/-- `SETPIX8 pin, idx, r, g, b` (R262). -/
def execSetpix8 (pin : Pin) (idx : BitVec 16) (r g b : Byte) (s : State) : Host.Outcome State Fault Refusal :=
  setPixel Opc.setpix8 pin idx (fun S => pixelBytes8 S (chanValue r g b)) s

/-- `SETPIX16 pin, idx, r, g, b` (R263). -/
def execSetpix16 (pin : Pin) (idx : BitVec 16) (r g b : BitVec 16) (s : State) : Host.Outcome State Fault Refusal :=
  setPixel Opc.setpix16 pin idx (fun S => pixelBytes16 s.params S (chanValue r g b)) s

/-- `SETBRT pin, rs, gs, bs` (R280, R281). -/
def execSetbrt (pin : Pin) (rs gs bs : Word) (s : State) : Host.Outcome State Fault Refusal :=
  match s.gate with
  | some e => fails s Opc.setbrt e
  | none =>
    if (s.strip pin).valid then
      .next ((s.setStrip pin ((s.strip pin).withScales s.params rs gs bs)).respond Opc.setbrt 0#32)
    else fails s Opc.setbrt .strip

end Sys2Proof.Machine
end

