-- ==== Sys2Proof/Machine/StripFactory.lean ====
section
/-! DEFINITION. The meanings of the five constructors and of `RMSTRIP` (43_strip_factory.md). -/

namespace Sys2Proof.Machine

/-- The effect of a constructor before the pre-seed (R233 steps 1 and 2): register the line, create the handle. -/
def State.createStrip (s : State) (proto : Proto) (pin : Pin) (ord : Order) (count : BitVec 16) : State :=
  (s.registerLine pin (proto.frameLen count.toNat)).setStrip pin (Strip.fresh proto ord count)

/-- `Mk(proto, p, n, ord)` (R233): the body of the five constructors; `opc` is the command's own opcode, for the
response. -/
def mkStrip (opc : BitVec 8) (proto : Proto) (pin : Pin) (ord : BitVec 3) (count : BitVec 16) (s : State) :
    Host.Outcome State Fault Refusal :=
  match s.gate with
  | some e => fails s opc e
  | none =>
    match s.lockPinError pin with
    | some e => fails s opc e
    | none =>
      match Order.ofCode ord with
      | none => fails s opc .strip
      | some o =>
        if (s.strip pin).valid then fails s opc .strip
        else if s.overCapacity (proto.frameLen count.toNat) then fails s opc .alloc
        else if s.imageTooLarge (proto.frameLen count.toNat) then failsFatally s opc
        else
          match (s.createStrip proto pin o count).busSetBytes pin (placed 0 (proto.blackFrame count.toNat)) with
          | .ok t => .next (t.respond opc t.size)
          | .error f => .fault f

/-- `MKWS2801 pin, count, order` (R234). -/
def execMkws2801 (pin : Pin) (ord : BitVec 3) (count : BitVec 16) (s : State) : Host.Outcome State Fault Refusal :=
  mkStrip Opc.mkws2801 .ws2801 pin ord count s

/-- `MKLPD6803 pin, count, order` (R235). -/
def execMklpd6803 (pin : Pin) (ord : BitVec 3) (count : BitVec 16) (s : State) : Host.Outcome State Fault Refusal :=
  mkStrip Opc.mklpd6803 .lpd6803 pin ord count s

/-- `MKLPD8806 pin, count, order` (R236). -/
def execMklpd8806 (pin : Pin) (ord : BitVec 3) (count : BitVec 16) (s : State) : Host.Outcome State Fault Refusal :=
  mkStrip Opc.mklpd8806 .lpd8806 pin ord count s

/-- `MKAPA102 pin, count, order` (R237). -/
def execMkapa102 (pin : Pin) (ord : BitVec 3) (count : BitVec 16) (s : State) : Host.Outcome State Fault Refusal :=
  mkStrip Opc.mkapa102 .apa102 pin ord count s

/-- `MKSK9822 pin, count, order` (R238). -/
def execMksk9822 (pin : Pin) (ord : BitVec 3) (count : BitVec 16) (s : State) : Host.Outcome State Fault Refusal :=
  mkStrip Opc.mksk9822 .sk9822 pin ord count s

/-- `RMSTRIP pin` (R240). -/
def execRmstrip (pin : Pin) (s : State) : Host.Outcome State Fault Refusal :=
  match s.gate with
  | some e => fails s Opc.rmstrip e
  | none =>
    if (s.strip pin).valid then
      .next ((s.setStrip pin { s.strip pin with valid := false }).respond Opc.rmstrip 0#32)
    else fails s Opc.rmstrip .strip

end Sys2Proof.Machine
end

