-- ==== Sys2Proof/Machine/Shifter.lean ====
section
/-! DEFINITION. The frame's logical writes, the direct strategy's shifter and its calibration (41_transmit_direct.md
R161 to R170). -/

namespace Sys2Proof.Machine

/-! The logical writes of a frame (R162). Index `r` is `2t` for `A(t)`, `2t+1` for `B(t)`, `16*SIZE` for `FINAL`. -/

/-- `D0(t)`: the registered lines that are low at tick `t` (R162). -/
def State.lowLines (s : State) (t : Nat) : Word := s.dataMask &&& ~~~s.planeAt t

/-- `SetMask(r)` (R162). -/
def State.setMask (s : State) (r : Nat) : Word :=
  if r < 16 * s.size.toNat then
    if r % 2 = 0 then s.planeAt (r / 2) else s.planeAt (r / 2) ||| s.clkBit
  else 0#32

/-- `ClrMask(r)` (R162). -/
def State.clrMask (s : State) (r : Nat) : Word :=
  if r < 16 * s.size.toNat then
    if r % 2 = 0 then s.lowLines (r / 2) ||| s.clkBit else s.lowLines (r / 2)
  else s.dataMask ||| s.clkBit

/-- The two operations of logical write `r`, set first (R163). -/
def State.rowOps (s : State) (r : Nat) : List GpioOp := [.set (s.setMask r), .clr (s.clrMask r)]

/-- Logical writes `0 .. n-1`, each pair once. -/
def State.frameOps (s : State) (n : Nat) : List GpioOp := (List.range n).flatMap s.rowOps

/-- `LogicalWrite(SetMask(r), ClrMask(r))` of the direct strategy (R163): the pair `CALREP` times. The `CALBUSY` busy
cycles after it have no port activity and no duration here (log 15). -/
def State.logicalWrite (s : State) (r : Nat) : State :=
  s.issue (List.replicate s.calRep.toNat (s.rowOps r)).flatten

/-! The shifter (R161, 10_state.md R39, R40). -/

/-- (`TICK`, `PH`) names logical write `r` (R39). -/
def State.atWrite (s : State) (r : Nat) : State :=
  if r < 16 * s.size.toNat then
    { s with tick := BitVec.ofNat 32 (r / 2), ph := if r % 2 = 0 then .low else .high }
  else { s with tick := BitVec.ofNat 32 (8 * s.size.toNat), ph := .final }

/-- The index of the logical write (`TICK`, `PH`) names (R39). -/
def State.nextWrite (s : State) : Nat :=
  match s.ph with
  | .low => 2 * s.tick.toNat
  | .high => 2 * s.tick.toNat + 1
  | .final => 16 * s.size.toNat

/-- `n` logical writes from index `r` on, the position moved on after each (R40). -/
def State.shift (s : State) (r : Nat) : Nat → State
  | 0 => s
  | n + 1 => ((s.logicalWrite r).atWrite (r + 1)).shift (r + 1) n

/-- The rest of the frame from the position (`TICK`, `PH`) to `FINAL` (R161). -/
def State.shiftRest (s : State) : State := s.shift s.nextWrite (nRows s.size.toNat - s.nextWrite)

/-! Calibration (R168 to R170). -/

/-- The fallback pair (R169). -/
def defaultTiming (P : Params) : Word × Word :=
  (BitVec.ofNat 32 P.calDefaultRepeat, BitVec.ofNat 32 P.calDefaultBusy)

/-- `budget` (R168): ns for one logical write, times `CAL_N`. -/
def calBudget (P : Params) (freq : Word) : Nat := 1000000000 / (2 * freq.toNat) * P.calN

/-- `rep` (R168), for `tw` ns of measured register writes. -/
def calRepeats (P : Params) (freq : Word) (tw : Nat) : Nat := max P.minWrites (calBudget P freq / (2 * tw))

/-- `left` (R168). -/
def calLeft (P : Params) (freq : Word) (tw : Nat) : Nat :=
  calBudget P freq - min (calBudget P freq) (2 * calRepeats P freq tw * tw)

/-- (`CALREP`, `CALBUSY`) from the three clock reads (R168). -/
def solveTiming (P : Params) (freq : Word) (r0 r1 r2 : TimeRead) : Word × Word :=
  if !(r0.ok && r1.ok && r2.ok) || decide (r1.ns.toNat ≤ r0.ns.toNat) || decide (r2.ns.toNat ≤ r1.ns.toNat) then
    defaultTiming P
  else if freq = 0#32 then (sat32 P.minWrites, 0#32)
  else
    (sat32 (calRepeats P freq (r1.ns.toNat - r0.ns.toNat)),
      sat32 (calLeft P freq (r1.ns.toNat - r0.ns.toNat) / (r2.ns.toNat - r1.ns.toNat)))

/-- `Calibrate()` (R168): three clock reads, `CAL_N` empty clear operations between the first two (R170). -/
def State.calibrate (s : State) : State :=
  let (r0, s) := s.drawTime
  let s := s.issue (List.replicate s.params.calN (.clr 0#32))
  let (r1, s) := s.drawTime
  let (r2, s) := s.drawTime
  { s with
    calRep := (solveTiming s.params s.freq r0 r1 r2).1
    calBusy := (solveTiming s.params s.freq r0 r1 r2).2
    calDone := true }

/-- `TransmitDirect()` up to its first logical write (R161): calibrate once, stand at the first write (R39; log 19
for the strategy that has none). -/
def State.startDirect (s : State) : State := (if s.calDone then s else s.calibrate).atWrite 0

end Sys2Proof.Machine
end

