-- ==== Sys2Proof/Machine/Sequencer.lean ====
section
/-! DEFINITION. The DMA strategy: the control-block chain, the frame image, start and reset of the channel, and the
replay sequencer for any content of `DMEM` (42_transmit_dma.md). -/

namespace Sys2Proof.Machine

/-! Memory layout, the chain and the image (R193 to R196). -/

/-- The words of control block `k` of `count`, with their bus addresses (R193, 30_encoding.md R110). -/
def State.blockWords (s : State) (count rowBase k : Nat) : List (Nat × Word) :=
  let a := s.params.dmaBase.toNat + 32 * k
  let rpc := rowsPerBlock s.params
  let rows := min rpc (nRows s.size.toNat - k * rpc)
  [(a, 0x00000001#32),
   (a + 4, BitVec.ofNat 32 (rowBase + 8 * k * rpc)),
   (a + 8, s.params.gpioSetAddr),
   (a + 12, BitVec.ofNat 16 rows ++ 8#16),
   (a + 16, 0xFFF80000#32),
   (a + 20, if k + 1 < count then BitVec.ofNat 32 (s.params.dmaBase.toNat + 32 * (k + 1)) else 0#32),
   (a + 24, 0#32),
   (a + 28, 0#32)]

/-- Every word `BuildChain` writes (R193). -/
def State.chainWords (s : State) : List (Nat × Word) :=
  let count := ncbNeeded s.params s.size.toNat
  (List.range count).flatMap (s.blockWords count (s.params.dmaBase.toNat + 32 * count))

/-- `BuildChain()` (R193), then `CHAIN_BUILT <- 1` (R190). -/
def State.buildChain (s : State) : Except Fault State :=
  let count := ncbNeeded s.params s.size.toNat
  State.memWrites
    { s with
      ncb := BitVec.ofNat 32 count
      rowBase := BitVec.ofNat 32 (s.params.dmaBase.toNat + 32 * count)
      chainBuilt := true }
    s.chainWords

/-- Every word `CopyImage` writes: row `r` is `[SetMask(r), ClrMask(r)]` (R195, R196). -/
def State.imageWords (s : State) : List (Nat × Word) :=
  (List.range (nRows s.size.toNat)).flatMap fun r =>
    [(s.rowBase.toNat + 8 * r, s.setMask r), (s.rowBase.toNat + 8 * r + 4, s.clrMask r)]

/-- `CopyImage()` (R196). -/
def State.copyImage (s : State) : Except Fault State := s.memWrites s.imageWords

/-! Start and reset of the channel (R197, R199). -/

/-- `DmaStart()` (R197). -/
def State.dmaStart (s : State) : State :=
  { s with
    dmacs := { active := true, ended := false, error := false }
    subCause := .none
    rowNo := 0#32
    conblk := s.params.dmaBase }

/-- `DmaReset()` (R199). -/
def State.dmaReset (s : State) : State :=
  { s with dmacs := { active := false, ended := false, error := false }, conblk := 0#32 }

/-! The sequencer (R200 to R210). It goes on while `DMACS.ACTIVE` is 1. -/

/-- `stop(k)` (R210). -/
def State.stop (s : State) (k : SubCause) : State :=
  { s with dmacs := { s.dmacs with active := false, error := true }, subCause := k }

/-- The word the sequencer would read at `a`, unless the access is misaligned or outside `DMEM` (R205, R207). -/
def State.fetchWord? (s : State) (a : Nat) : Option Word :=
  if a % 4 = 0 ∧ s.wordInDmem a then some (s.memRead a) else none

/-- Where a word for the bus address `a` goes: the two GPIO registers and nothing else (R205, 20_memory.md R65). -/
def State.gpioAt (s : State) (a v : Word) : Option GpioOp :=
  if a = s.params.gpioSetAddr then some (.set v)
  else if a = gpioClrAddr s.params then some (.clr v)
  else none

/-- One word transfer of a row (R205). -/
def State.transferWord (s : State) : State :=
  match s.fetchWord? s.srcp.toNat with
  | none => s.stop .srcFault
  | some v =>
    match s.gpioAt s.dstp v with
    | none => s.stop .dstFault
    | some op => { s.issue [op] with srcp := s.srcp + 4#32, dstp := s.dstp + 4#32 }

/-- After the two transfers of a row (R206): `ss` and `ds` are the sign-extended strides. -/
def State.endRow (s : State) (ss ds : Word) : State :=
  { s with srcp := s.srcp + ss, dstp := s.dstp + ds, rowCnt := s.rowCnt - 1#16, rowNo := s.rowNo + 1#32 }

/-- The two word transfers of a row and its end (R205, R206). -/
def State.transferRow (s : State) (ss ds : Word) : State :=
  if s.transferWord.dmacs.active then
    if s.transferWord.transferWord.dmacs.active then s.transferWord.transferWord.endRow ss ds
    else s.transferWord.transferWord
  else s.transferWord

/-- One row step: sample `dma_fault` (R208), then the transfers. -/
def State.rowStep (s : State) (ss ds : Word) : State :=
  let (f, s) := s.drawFault
  if f then s.stop .extFault else s.transferRow ss ds

/-- The row loop (R204) for the `n` rows left in the control block. -/
def State.runRows (ss ds : Word) : Nat → State → State
  | 0, s => s
  | n + 1, s => if (s.rowStep ss ds).dmacs.active then State.runRows ss ds n (s.rowStep ss ds) else s.rowStep ss ds

/-- The address check of a fetch (R203). -/
def State.blockAddrOk (s : State) : Bool :=
  s.conblk.toNat % 32 == 0 && decide (s.params.dmaBase.toNat ≤ s.conblk.toNat) &&
    decide (s.conblk.toNat + 32 ≤ s.params.dmaBase.toNat + s.params.dmaMemBytes)

/-- Word `i` of the control block at `CONBLK` (R200). -/
def State.blockWord (s : State) (i : Nat) : Word := s.memRead (s.conblk.toNat + 4 * i)

/-- `ROWS = w[3][31:16]` (30_encoding.md R110). -/
def geomRows (w : Word) : BitVec 16 := w.extractLsb' 16 16

/-- `ROW_BYTES = w[3][15:0]` (30_encoding.md R110). -/
def geomRowBytes (w : Word) : BitVec 16 := w.extractLsb' 0 16

/-- Validation of the fetched control block, in the order of R202: the sub-cause it stops with, if any. -/
def State.blockError (s : State) : Option SubCause :=
  if s.blockWord 0 ≠ 1#32 ∨ s.blockWord 6 ≠ 0#32 ∨ s.blockWord 7 ≠ 0#32 then some .cbCtrl
  else if geomRowBytes (s.blockWord 3) ≠ 8#16 ∨ geomRows (s.blockWord 3) = 0#16 ∨
      8 * (geomRows (s.blockWord 3)).toNat > s.params.maxSpan then some .cbGeom
  else none

/-- `SRC_STRIDE`, sign-extended (R201). -/
def srcStride (w : Word) : Word := (w.extractLsb' 0 16).signExtend 32

/-- `DST_STRIDE`, sign-extended (R201). -/
def dstStride (w : Word) : Word := (w.extractLsb' 16 16).signExtend 32

/-- Load of a valid control block (R201). -/
def State.loadBlock (s : State) : State :=
  { s with srcp := s.blockWord 1, dstp := s.blockWord 2, rowCnt := geomRows (s.blockWord 3) }

/-- The link at the end of a control block (R209). -/
def State.link (s : State) (next : Word) : State :=
  if next = 0#32 then { s with conblk := next, dmacs := { s.dmacs with ended := true, active := false } }
  else { s with conblk := next }

/-- One control block: fetch, validate, load, rows, link (R200 to R209). -/
def State.runBlock (s : State) : State :=
  if !s.blockAddrOk then s.stop .cbAddr
  else
    match s.blockError with
    | some k => s.stop k
    | none =>
      let s' := State.runRows (srcStride (s.blockWord 4)) (dstStride (s.blockWord 4))
        (geomRows (s.blockWord 3)).toNat s.loadBlock
      if s'.dmacs.active then s'.link (s.blockWord 5) else s'

/-- At most `n` control blocks, until the sequencer stops (R200). -/
def State.runBlocks : Nat → State → State
  | 0, s => s
  | n + 1, s => if s.dmacs.active then State.runBlocks n s.runBlock else s

/-- One round of the sequencer: as many control blocks as `DMEM` can hold, and one more. A chain that is still active
after a round has come back to a control block it has been at: it is cyclic (R212). -/
def State.sequencerRound (s : State) : State := State.runBlocks (s.params.dmaMemBytes / 32 + 1) s

/-- `TransmitDma()` up to the start of the sequencer (R190). (`TICK`, `PH`) stay as they are: 10_state.md R39 says what
they are under the direct strategy, and that a DMA `TRANSMIT` does not set them is the model's choice (log 19). -/
def State.startDma (s : State) : Except Fault State :=
  match (if s.chainBuilt then Except.ok s else s.buildChain) with
  | .error f => .error f
  | .ok s =>
    match s.copyImage with
    | .error f => .error f
    | .ok s => .ok s.dmaStart

end Sys2Proof.Machine
end

