-- ==== Sys2Proof/Machine/Transmit.lean ====
section
/-! DEFINITION. The meaning of `TRANSMIT` (41_transmit_direct.md R160): start, run, finish. A chain the engine built is
run to its end in the one step; a cyclic chain, which only a state no run reaches can hold, leaves the machine busy
(42_transmit_dma.md R212; log 7). -/

namespace Sys2Proof.Machine

/-- `BUSY <- 1` and the lock, taken before any output (R160). -/
def State.occupy (s : State) : State :=
  { s with busy := true, phase := if s.phase = .opened then .locked else s.phase }

/-- The strategy's part before the first logical write (R161, 42_transmit_dma.md R190). -/
def State.beginTransmit (s : State) : Except Fault State :=
  match s.strategy with
  | .direct => .ok s.occupy.startDirect
  | .dma => s.occupy.startDma

/-- The strategy's output: the rest of the frame, or one round of the sequencer. -/
def State.runTransmit (s : State) : State :=
  match s.strategy with
  | .direct => s.shiftRest
  | .dma => if s.dmacs.active then s.sequencerRound else s

/-- A `TRANSMIT` that ends with `OK` (R160). -/
def State.endOk (s : State) : State :=
  State.respond { s with txCount := s.txCount + 1#32, busy := false } Opc.transmit 0#32

/-- A `TRANSMIT` that ends with `ERR_DMA` (R160, 60_exceptions.md R320). `TXCOUNT` is not incremented
(42_transmit_dma.md R211; log 12 for the words of D41). -/
def State.endDmaError (s : State) : State :=
  State.raise { s with busy := false } Opc.transmit .dma s.subCause

/-- The end of `TRANSMIT` once the output has stopped (R160, 42_transmit_dma.md R190, R198, R199); while the sequencer
is active there is none. -/
def State.finishTransmit (s : State) : State :=
  match s.strategy with
  | .direct => s.endOk
  | .dma =>
    if s.dmacs.active then s
    else if s.dmacs.error then s.dmaReset.endDmaError
    else s.dmaReset.endOk

/-- A busy machine goes on with its `TRANSMIT` (R212 of 42_transmit_dma.md; log 7). -/
def State.resume (s : State) : State := s.runTransmit.finishTransmit

/-- `TRANSMIT` (R160). -/
def execTransmit (s : State) : Host.Outcome State Fault Refusal :=
  match s.gate with
  | some e => fails s Opc.transmit e
  | none =>
    match s.beginTransmit with
    | .ok t => .next t.resume
    | .error f => .fault f

end Sys2Proof.Machine
end

