-- ==== Sys2Proof/Machine/Dispatch.lean ====
section
/-! DEFINITION. One command: dispatch to its meaning (30_encoding.md R104). -/

namespace Sys2Proof.Machine

def exec (i : Instr) (s : State) : Host.Outcome State Fault Refusal :=
  match i with
  | .nop => Sys2Proof.Machine.execNop s
  | .buscfg pin strat freq => Sys2Proof.Machine.execBuscfg pin strat freq s
  | .regline pin len => Sys2Proof.Machine.execRegline pin len s
  | .setbyte pin pos val => Sys2Proof.Machine.execSetbyte pin pos val s
  | .transmit => Sys2Proof.Machine.execTransmit s
  | .rdreg addr pin => Sys2Proof.Machine.execRdreg addr pin s
  | .clrerr => Sys2Proof.Machine.execClrerr s
  | .mkws2801 pin ord count => Sys2Proof.Machine.execMkws2801 pin ord count s
  | .mklpd6803 pin ord count => Sys2Proof.Machine.execMklpd6803 pin ord count s
  | .mklpd8806 pin ord count => Sys2Proof.Machine.execMklpd8806 pin ord count s
  | .mkapa102 pin ord count => Sys2Proof.Machine.execMkapa102 pin ord count s
  | .mksk9822 pin ord count => Sys2Proof.Machine.execMksk9822 pin ord count s
  | .setpix8 pin idx r g b => Sys2Proof.Machine.execSetpix8 pin idx r g b s
  | .setpix16 pin idx r g b => Sys2Proof.Machine.execSetpix16 pin idx r g b s
  | .setbrt pin rs gs bs => Sys2Proof.Machine.execSetbrt pin rs gs bs s
  | .rmstrip pin => Sys2Proof.Machine.execRmstrip pin s

end Sys2Proof.Machine
end

