-- ==== Sys2Proof/Machine/CommandPort.lean ====
section
/-! DEFINITION. The command port and the reset pin: accepting a command word, an illegal word's answer, and reset at
any time (30_encoding.md R92, R105, 60_exceptions.md R311, 70_reset_and_hazards.md R350 to R352, R361). -/

namespace Sys2Proof.Machine

/-- The event at the head of `hostIn` is taken: the port shows no response until the command ends (R92; log 18). -/
def State.accept (s : State) (rest : List HostEvent) : State := { s with hostIn := rest, rsp := none }

/-- `rst_n` asserted (R350, R351): engine state at its reset values; the platform, the lines, the pins' output modes
and what the environment will do are not the engine's and stay. -/
def State.resetPin (s : State) : State :=
  { State.reset with
    params := s.params
    lines := s.lines
    outPins := s.outPins
    hostIn := s.hostIn
    timeIn := s.timeIn
    dmaFaultIn := s.dmaFaultIn
    drawNo := s.drawNo }

/-- An accepted command word: decoded and executed, or answered with `ERR_ILLEGAL`, its `CMD[7:0]` echoed (R311). -/
def runCommand (w : Command) (s : State) : Host.Outcome State Fault Refusal :=
  match decode w with
  | .ok i => exec i s
  | .error _ => fails s (Field.opc w) .illegal

/-- The operations a command issued, from the state `s` it was accepted in to the state `t` it left. -/
def opsIssued (s t : State) : List GpioOp := t.physTrace.drop s.physTrace.length

/-- Reset while a command runs, after `n` of its output operations (R352): the lines stay where the last completed
operation left them, nothing is answered. Environment values supplied in advance are dropped, so that what is drawn
later is free (log 9). -/
def State.abandon (s t : State) (n : Nat) : State :=
  { t.resetPin with
    lines := linesAfter s.lines ((opsIssued s t).take n)
    timeIn := []
    dmaFaultIn := [] }

/-- One step of the whole machine. A busy machine accepts no command (20_memory.md R72): it goes on with its
`TRANSMIT`, or is reset. Otherwise it takes the host's next event; with none it is idle (R374). -/
def hostStep (s : State) : Host.Outcome State Fault Refusal :=
  match s.busy, s.hostIn with
  | true, .reset :: rest => .next (s.accept rest).resetPin
  | true, _ => .next s.resume
  | false, [] => .next s
  | false, .reset :: rest => .next (s.accept rest).resetPin
  | false, .command w :: rest => runCommand w (s.accept rest)
  | false, .commandReset w n :: rest =>
    match runCommand w (s.accept rest) with
    | .next t => .next ((s.accept rest).abandon t n)
    | .fault f => .fault f
    | .refused r => .refused r

/-- The host's next event is the command word whose bits are `w`, taken as `nbits` bits, and the port is open. -/
def State.present (s : State) (nbits w : Nat) : State :=
  { s with busy := false, hostIn := .command (BitVec.ofNat 128 (w % 2 ^ nbits)) :: s.hostIn }

end Sys2Proof.Machine
end

