-- ==== Sys2Proof/Machine/Step.lean ====
section
/-! DEFINITION. The step function, and how a command word is put where the next step takes it (log 6). -/

namespace Sys2Proof.Machine

/-- One step of the machine: one event of the host (CommandPort.lean, `hostStep`). -/
def step (s : State) : Host.Outcome State Fault Refusal := hostStep s

/-- `s` with the command word `w` of `nbits` bits presented on the command port, so that the next step runs it. -/
def State.withFetchWord (s : State) (nbits w : Nat) : State := s.present nbits w

end Sys2Proof.Machine
end

