-- ==== Sys2Proof/Safety.lean ====
section
/-! DEFINITION. The words the statements are written in: when a command may have its effect, what a frame is on the
wire, the samples the environment will give, and the invariant of the machine. -/

namespace Sys2Proof.Machine

/-! Responses and the error record. -/

/-- The response word of a command that ends with `OK` (30_encoding.md R108). -/
def okRsp (opc : BitVec 8) (value : Word) : Response := value ++ 0#16 ++ opc ++ 0x00#8

/-- The response word of a command that ends with the status `code` (30_encoding.md R108). -/
def errRsp (code opc sub : BitVec 8) : Response := 0#32 ++ 0#8 ++ sub ++ opc ++ code

/-- The status of the response on the port, `RSP[7:0]`. -/
def State.status (s : State) : Option (BitVec 8) := s.rsp.map fun r => r.extractLsb' 0 8

/-- The state after a command that failed by a check with the status `code`: the error record and the response have
changed, nothing else (60_exceptions.md R312). -/
def State.failed (s : State) (opc code : BitVec 8) : State :=
  { s with
    errFlags := s.errFlags ||| 1#16 <<< code.toNat
    lastErr := code.setWidth 16
    rsp := some (errRsp code opc 0x00#8) }

/-- The status codes a command can end with: the column "raised by" of 60_exceptions.md R310. -/
def statusCodes : Instr → List (BitVec 8)
  | .nop => [0#8]
  | .rdreg _ _ => [0#8]
  | .clrerr => [0#8]
  | .buscfg _ _ _ => [0#8, 2#8, 3#8, 8#8]
  | .regline _ _ => [0#8, 2#8, 3#8, 4#8, 6#8, 8#8]
  | .setbyte _ _ _ => [0#8, 2#8, 3#8, 5#8, 8#8]
  | .transmit => [0#8, 2#8, 7#8, 8#8]
  | .mkws2801 _ _ _ => [0#8, 2#8, 3#8, 4#8, 6#8, 8#8, 9#8]
  | .mklpd6803 _ _ _ => [0#8, 2#8, 3#8, 4#8, 6#8, 8#8, 9#8]
  | .mklpd8806 _ _ _ => [0#8, 2#8, 3#8, 4#8, 6#8, 8#8, 9#8]
  | .mkapa102 _ _ _ => [0#8, 2#8, 3#8, 4#8, 6#8, 8#8, 9#8]
  | .mksk9822 _ _ _ => [0#8, 2#8, 3#8, 4#8, 6#8, 8#8, 9#8]
  | .setpix8 _ _ _ _ _ => [0#8, 2#8, 8#8, 9#8]
  | .setpix16 _ _ _ _ _ => [0#8, 2#8, 8#8, 9#8]
  | .setbrt _ _ _ _ => [0#8, 2#8, 8#8, 9#8]
  | .rmstrip _ => [0#8, 2#8, 8#8, 9#8]

/-- The four rows of the gating table of 60_exceptions.md R318. -/
inductive GateRow where
  /-- `NOP`, `RDREG`, `CLRERR` -/
  | always
  /-- `BUSCFG` -/
  | creates
  /-- `REGLINE` and the constructors -/
  | registers
  /-- the rest -/
  | usesBus
deriving DecidableEq, Repr

/-- The row of a command. -/
def gateRow : Instr → GateRow
  | .nop => .always
  | .rdreg _ _ => .always
  | .clrerr => .always
  | .buscfg _ _ _ => .creates
  | .regline _ _ => .registers
  | .mkws2801 _ _ _ => .registers
  | .mklpd6803 _ _ _ => .registers
  | .mklpd8806 _ _ _ => .registers
  | .mkapa102 _ _ _ => .registers
  | .mksk9822 _ _ _ => .registers
  | .setbyte _ _ _ => .usesBus
  | .setpix8 _ _ _ _ _ => .usesBus
  | .setpix16 _ _ _ _ _ => .usesBus
  | .setbrt _ _ _ _ => .usesBus
  | .rmstrip _ => .usesBus
  | .transmit => .usesBus

/-- The cell of the gating table of 60_exceptions.md R318: the status a command ends with before its own checks; none
where the cell says ok. -/
def State.gateCell (s : State) (i : Instr) : Option (BitVec 8) :=
  match gateRow i, s.fatal, s.phase with
  | .always, _, _ => none
  | .creates, true, _ => some 8#8
  | .creates, false, .unconfigured => none
  | .creates, false, .opened => some 2#8
  | .creates, false, .locked => some 2#8
  | .registers, true, _ => some 8#8
  | .registers, false, .unconfigured => some 2#8
  | .registers, false, .opened => none
  | .registers, false, .locked => some 4#8
  | .usesBus, true, _ => some 8#8
  | .usesBus, false, .unconfigured => some 2#8
  | .usesBus, false, .opened => none
  | .usesBus, false, .locked => none

/-! Reset. -/

/-- Every value the table of 10_state.md R53 gives, and the closed response port of 70_reset_and_hazards.md R350. -/
structure State.AtReset (t : State) : Prop where
  phase : t.phase = .unconfigured
  flags : t.fatal = false ∧ t.busy = false ∧ t.calDone = false ∧ t.chainBuilt = false
  bus : t.clkPin = 0#5 ∧ t.strategy = .direct ∧ t.freq = 0#32
  buffer : t.dataMask = 0#32 ∧ t.size = 0#32
  calibration : t.calRep = 0#32 ∧ t.calBusy = 0#32
  record : t.errFlags = 0#16 ∧ t.lastErr = 0#16 ∧ t.txCount = 0#32
  strips : ∀ p, (t.strip p).valid = false
  channel : t.dmacs = { active := false, ended := false, error := false } ∧ t.conblk = 0#32
  chain : t.ncb = 0#32 ∧ t.rowBase = 0#32
  trace : t.physTrace = []
  port : t.rsp = none

/-! When a command has its effect. -/

/-- The common prologue lets a command through that needs a bus (60_exceptions.md R313 steps 2 and 3). -/
abbrev State.Ready (s : State) : Prop := s.fatal = false ∧ s.phase ≠ .unconfigured

/-- A registration of `len` bytes for a pin passes every check of 40_bus_commands.md R132, the same as checks (1), (2),
(4), (5) of 43_strip_factory.md R233. -/
structure State.CanRegister (s : State) (pin : Pin) (len : Nat) : Prop where
  not_fatal : s.fatal = false
  opened : s.phase = .opened
  pin_valid : s.pinValid pin = true
  not_clock : pin ≠ s.clkPin
  capacity : len ≤ s.params.maxBytes
  fits : s.strategy = .dma → needBytes s.params (max s.size.toNat len) ≤ s.params.dmaMemBytes

/-- A pixel write of the strip on a pin has its effect: the checks of 44_pixel_encoders.md R262, and the strip's frame
lies in the buffer of a registered line (10_state.md R37). -/
structure State.CanWritePixel (s : State) (pin : Pin) (idx : BitVec 16) : Prop where
  ready : s.Ready
  strip_valid : (s.strip pin).valid = true
  index_in_range : idx.toNat < (s.strip pin).count.toNat
  registered : s.registered pin = true
  frame_fits : (s.strip pin).frameLen ≤ s.size.toNat

/-! What a constructor and a pixel write leave. -/

/-- `FRAMELEN` of `n` pixels as 43_strip_factory.md R231 writes it. -/
def frameBytes (proto : Proto) (n : Nat) : Nat :=
  match proto with
  | .ws2801 => 3 * n
  | .lpd6803 => 2 * n + 8
  | .lpd8806 => 3 * n + 1
  | .apa102 => 4 * n + 8 + (n + 15) / 16
  | .sk9822 => 4 * n + 8 + (n + 15) / 16

/-- The byte at a position of the all-black frame of `n` pixels as 43_strip_factory.md R231 gives it. -/
def blackByte (proto : Proto) (n pos : Nat) : Byte :=
  match proto with
  | .ws2801 => 0x00#8
  | .lpd6803 => if 4 ≤ pos ∧ pos < 4 + 2 * n ∧ pos % 2 = 0 then 0x80#8 else 0x00#8
  | .lpd8806 => if 1 ≤ pos ∧ pos < 1 + 3 * n then 0x80#8 else 0x00#8
  | .apa102 => if 4 ≤ pos ∧ pos < 4 + 4 * n ∧ pos % 4 = 0 then 0xE1#8 else 0x00#8
  | .sk9822 => if 4 ≤ pos ∧ pos < 4 + 4 * n ∧ pos % 4 = 0 then 0xE1#8 else 0x00#8

/-- `t` is what a pixel write leaves of `s`, apart from the pixel's own bytes: the answer `OK`; of the state only the
plane changed; of the plane only the `width` bytes from `base` up of the pin's own line (44_pixel_encoders.md R260,
R277). -/
structure State.PixelWritten (s t : State) (opc : BitVec 8) (pin : Pin) (base width : Nat) : Prop where
  answer : t.rsp = some (okRsp opc 0#32)
  frame : { t with plane := s.plane, rsp := s.rsp } = s
  others : ∀ q pos, ¬(q = pin ∧ base ≤ pos ∧ pos < base + width) → t.byteAt q pos = s.byteAt q pos

/-! A frame on the output port. -/

/-- The operations of a direct `TRANSMIT` after calibration: every logical write `CALREP` times
(41_transmit_direct.md R161, R163). -/
def State.directOps (s : State) : List GpioOp :=
  (List.range (nRows s.size.toNat)).flatMap fun r => (List.replicate s.calRep.toNat (s.rowOps r)).flatten

/-- A byte's bits in the order they are sent (20_memory.md R62). -/
def msbFirst (v : Byte) : List Bool := (List.range 8).map fun k => v.getLsbD (7 - k)

/-- What a chip on data line `p` latches from a list of operations issued from level `l`: the line's level at each
rising edge of the clock line (41_transmit_direct.md R165, R166). -/
def latched (clk p : Pin) (l : Word) : List GpioOp → List Bool
  | [] => []
  | op :: ops =>
    if l.getLsbD clk.toNat = false ∧ (GpioOp.apply l op).getLsbD clk.toNat = true then
      (GpioOp.apply l op).getLsbD p.toNat :: latched clk p (GpioOp.apply l op) ops
    else latched clk p (GpioOp.apply l op) ops

/-- How often the clock line rises in a list of operations issued from level `l` (70_reset_and_hazards.md R373). -/
def risingEdges (clk : Pin) (l : Word) (ops : List GpioOp) : Nat := (latched clk clk l ops).length

/-! The environment. -/

/-- The `n`-th sample of `dma_fault` from now on (log 2). -/
def State.faultSample (s : State) (n : Nat) : Bool :=
  match s.dmaFaultIn[n]? with
  | some f => f
  | none => Config.dmaFault (s.drawNo + n)

/-- The `n`-th reading of the time base from now on (log 2). -/
def State.timeSample (s : State) (n : Nat) : TimeRead :=
  match s.timeIn[n]? with
  | some t => t
  | none => { ok := Config.timeOk (s.drawNo + n), ns := Config.timeNs (s.drawNo + n) }

/-! The invariant. -/

/-- The chain in `DMEM` is the one 42_transmit_dma.md R193 builds for the buffer's length (R194, 20_memory.md R77). -/
structure State.ChainIntact (s : State) : Prop where
  ncb : s.ncb = BitVec.ofNat 32 (ncbNeeded s.params s.size.toNat)
  rowBase : s.rowBase = BitVec.ofNat 32 (s.params.dmaBase.toNat + 32 * ncbNeeded s.params s.size.toNat)
  words : ∀ w ∈ s.chainWords, s.memRead w.1 = w.2

/-- The rows in `DMEM` are the image of the plane (42_transmit_dma.md R195, R196). -/
structure State.ImageIntact (s : State) : Prop where
  set : ∀ r < nRows s.size.toNat, s.memRead (s.rowBase.toNat + 8 * r) = s.setMask r
  clr : ∀ r < nRows s.size.toNat, s.memRead (s.rowBase.toNat + 8 * r + 4) = s.clrMask r

/-- The lanes of every bit-plane word are lines that are registered (10_state.md R28 (a)). -/
def State.LanesRegistered (s : State) : Prop := ∀ t, s.planeAt t &&& ~~~s.dataMask = 0#32

/-- The invariants the spec states of one strip entry (10_state.md R37). `PROTO <= 4` and `ORD <= 5` hold by type. -/
structure State.StripOk (s : State) (p : Pin) : Prop where
  registered : s.registered p = true
  not_clock : p ≠ s.clkPin
  frame_fits : (s.strip p).frameLen ≤ s.size.toNat
  level_pos : (s.strip p).proto = .apa102 ∨ (s.strip p).proto = .sk9822 → 1 ≤ (s.strip p).level0.toNat

/-- The invariant of the machine between two steps: the parameter constraints of 00_scope.md R10 and every invariant
10_state.md and 60_exceptions.md state. -/
structure Inv (s : State) : Prop where
  /-- 00_scope.md R10 -/
  params : s.params.Legal
  /-- 10_state.md R24 -/
  idle : s.busy = false
  /-- 10_state.md R41 -/
  channel_idle : s.dmacs = { active := false, ended := false, error := false }
  /-- 10_state.md R43 -/
  conblk_idle : s.conblk = 0#32
  /-- 10_state.md R26 -/
  clock_not_data : s.dataMask &&& s.clkBit = 0#32
  /-- 10_state.md R26 -/
  lines_valid : s.dataMask &&& ~~~s.params.validPins = 0#32
  /-- 40_bus_commands.md R131 -/
  clock_valid : s.phase ≠ .unconfigured → s.pinValid s.clkPin = true
  /-- 10_state.md R53: before `BUSCFG` there is no line and no length -/
  no_bus : s.phase = .unconfigured → s.dataMask = 0#32 ∧ s.size = 0#32 ∧ s.strategy = .direct
  /-- 60_exceptions.md R318 -/
  fatal_open : s.fatal = true → s.phase = .opened ∧ s.strategy = .dma
  /-- 10_state.md R27 -/
  size_le : s.size.toNat ≤ s.params.maxBytes
  /-- 42_transmit_dma.md R192 -/
  image_fits : s.strategy = .dma → needBytes s.params s.size.toNat ≤ s.params.dmaMemBytes
  /-- the canonical form of the plane -/
  plane_wf : Memory.wf s.plane = true
  /-- 10_state.md R27: no word at or above `8*SIZE` -/
  plane_bounded : ∀ e ∈ s.plane, e.1 < 8 * s.size.toNat
  /-- 10_state.md R28 (a) -/
  lanes : s.LanesRegistered
  /-- 10_state.md R37 -/
  strips : ∀ p, (s.strip p).valid = true → s.StripOk p
  /-- 10_state.md R30: bits 0 and 10 to 15 of `ERRFLAGS` are 0 -/
  err_reserved : s.errFlags &&& 0xFC01#16 = 0#16
  /-- 10_state.md R29: `CALREP >= MIN_WRITES` once calibrated, where the parameters fit their 32-bit registers (log 11) -/
  calibrated : s.calDone = true → s.params.calDefaultRepeat < 2 ^ 32 → s.params.minWrites ≤ s.calRep.toNat
  /-- 10_state.md R29, R53: until the calibration both counts hold their reset values -/
  uncalibrated : s.calDone = false → s.calRep = 0#32 ∧ s.calBusy = 0#32
  /-- 10_state.md R29: under `STRATEGY = 1` there is no calibration -/
  dma_uncalibrated : s.strategy = .dma → s.calDone = false
  /-- 10_state.md R29, R44: both are written by a first `TRANSMIT`, which locks the bus -/
  locked_once_sent : s.calDone = true ∨ s.chainBuilt = true → s.phase = .locked
  /-- 10_state.md R44 -/
  no_chain : s.chainBuilt = false → s.ncb = 0#32 ∧ s.rowBase = 0#32
  /-- 10_state.md R44, 42_transmit_dma.md R194 -/
  chain : s.chainBuilt = true → s.strategy = .dma ∧ s.ChainIntact
  /-- the canonical form of `DMEM` -/
  dmem_wf : Memory.wf s.dmem = true
  /-- 10_state.md R45: nothing is stored outside `DMEM` -/
  dmem_bounded : ∀ e ∈ s.dmem, s.params.dmaBase.toNat ≤ e.1 ∧ e.1 < s.params.dmaBase.toNat + s.params.dmaMemBytes

end Sys2Proof.Machine
end

