-- ==== Sys2Proof/Certificates/Slice0/Obligations.lean ====
section
/-! DEFINITION. The statements for the provers. Each names the rules of spec/ it formalises; "the frame" is the clause
that says what is unchanged: an equation of whole states for every field but the plane, and for the plane its byte view
`State.byteAt` (20_memory.md R64), which covers every bit of it. -/

open Sys2Proof Sys2Proof.Machine

/-! Encoding (30_encoding.md). -/

/-- R93 to R103: the decoder reads back every well-formed command from its word, with every operand at every value. -/
def Obligations.DecodeEncodeRoundTrip : Prop := ∀ i : Instr, i.wf = true → decode (encode i) = .ok i

/-- R93 to R105: a word that decodes is the word of the command it decodes to, and that command is well formed; so each
legal word has one meaning and no bit of a word is ignored. -/
def Obligations.EncodeDecodedWord : Prop :=
  ∀ (w : Command) (i : Instr), decode w = .ok i → encode i = w ∧ i.wf = true

/-- R104, R105: a word is legal exactly when it matches a row of the opcode table and, for `RDREG`, names a defined
register; and the row it matches is its command's. -/
def Obligations.DecoderFollowsOpcodeTable : Prop :=
  ∀ w : Command,
    ((∃ i, decode w = .ok i) ↔
      ∃ row ∈ opcodeTable, w &&& row.mask = row.pattern ∧
        (row.pattern = 0x05#128 → registerDefined (w.extractLsb' 32 8) (w.extractLsb' 8 5) = true)) ∧
    ∀ i, decode w = .ok i → w &&& i.row.mask = i.row.pattern

/-- 95_test_vectors.md V1 to V20 and X1 to X6: words of the spec and the commands they stand for. -/
def Obligations.SpecWordsDecode : Prop :=
  decode 0x00000000_00000000_00000000_00000000#128 = .ok .nop ∧
  decode 0x00000000_000F4240_00000000_00000401#128 = .ok (.buscfg 4#5 .direct 1000000#32) ∧
  decode 0x00000000_00000000_00000001_00000401#128 = .ok (.buscfg 4#5 .dma 0#32) ∧
  decode 0x00000000_00000000_00000001_00000502#128 = .ok (.regline 5#5 1#32) ∧
  decode 0x00000000_000000A5_00000002_00000503#128 = .ok (.setbyte 5#5 2#32 0xA5#8) ∧
  decode 0x00000000_00000000_00000000_00000004#128 = .ok .transmit ∧
  decode 0x00000000_00000000_00000024_00000705#128 = .ok (.rdreg 0x24#8 7#5) ∧
  decode 0x00000000_00000000_00000000_00000006#128 = .ok .clrerr ∧
  decode 0x00000000_00000000_00000000_00100510#128 = .ok (.mkws2801 5#5 0#3 16#16) ∧
  decode 0x00000000_00000000_00000000_00024812#128 = .ok (.mklpd8806 8#5 2#3 2#16) ∧
  decode 0x00000000_00000000_00000000_0011A713#128 = .ok (.mkapa102 7#5 5#3 17#16) ∧
  decode 0x00000000_00000000_00030201_00090718#128 = .ok (.setpix8 7#5 9#16 1#8 2#8 3#8) ∧
  decode 0x00000000_00000001_8000FFFF_00010719#128 = .ok (.setpix16 7#5 1#16 0xFFFF#16 0x8000#16 1#16) ∧
  decode 0x00004000_00008000_00010000_0000071A#128 = .ok (.setbrt 7#5 0x10000#32 0x8000#32 0x4000#32) ∧
  decode 0x00000000_00000000_00000000_0000071B#128 = .ok (.rmstrip 7#5) ∧
  decode 0x00000000_00000000_00000000_00000007#128 = .error .opcode ∧
  decode 0x80000000_00000000_00000000_00000004#128 = .error .reserved ∧
  decode 0x00000000_00000000_0000000F_00000005#128 = .error .register

/-! The command port (30_encoding.md R92, 20_memory.md R72) and reset (70_reset_and_hazards.md R350 to R352). -/

/-- R92: an idle machine takes the command word the host presents and executes the command the decoder reads from it,
with the response port closed meanwhile (log 18). The same for a word put in place by `withFetchWord`. -/
def Obligations.StepRunsDecodedCommand : Prop :=
  ∀ (s : State) (w : Command) (i : Instr), decode w = .ok i →
    (∀ rest, s.busy = false → s.hostIn = .command w :: rest →
      step s = exec i { s with hostIn := rest, rsp := none }) ∧
    step (s.withFetchWord 128 w.toNat) = exec i { s with busy := false, rsp := none }

/-- 60_exceptions.md R311: a word that does not decode ends with `ERR_ILLEGAL`, in every phase and also when
`FATAL = 1`; its low byte is echoed; only the error record changes. -/
def Obligations.IllegalWordAnswered : Prop :=
  ∀ (s : State) (w : Command) (rest : List HostEvent) (e : DecodeError),
    s.busy = false → s.hostIn = .command w :: rest → decode w = .error e →
    step s = .next (({ s with hostIn := rest, rsp := none } : State).failed (w.extractLsb' 0 8) 1#8)

/-- R72: a busy machine takes no command from the port, and no other event but reset. -/
def Obligations.BusyPortTakesNoCommand : Prop :=
  ∀ s : State, s.busy = true → (∀ rest, s.hostIn ≠ .reset :: rest) → ∃ t, step s = .next t ∧ t.hostIn = s.hostIn

/-- 70_reset_and_hazards.md R374: with no event from the host an idle machine holds all its state. -/
def Obligations.IdleMachineHoldsState : Prop := ∀ s : State, s.busy = false → s.hostIn = [] → step s = .next s

/-- 10_state.md R53: the state after reset has every value the table gives. -/
def Obligations.ResetValues : Prop := State.reset.AtReset

/-- R350, R351: reset is taken at any time, busy or idle, and from every state leaves the values of the table; the
lines, the pins' output modes and the platform are as before. -/
def Obligations.ResetPinResetsEngine : Prop :=
  ∀ (s : State) (rest : List HostEvent), s.hostIn = .reset :: rest →
    ∃ t, step s = .next t ∧ t.AtReset ∧ t.hostIn = rest ∧ t.lines = s.lines ∧ t.outPins = s.outPins ∧
      t.params = s.params

/-- R352: a reset while a command runs, after `n` of its output operations: no response, no further operation, the lines
where the last operation left them, the engine at its reset values. R352 speaks of `TRANSMIT`: that the host may place such
a reset after any number of operations, and during any command, and that the pin a command makes an output is in output
mode whenever the reset comes (the last clause), are the model's choice (log 9). -/
def Obligations.ResetAbandonsCommand : Prop :=
  ∀ (s t : State) (w : Command) (i : Instr) (n : Nat) (rest : List HostEvent),
    s.busy = false → s.hostIn = .commandReset w n :: rest → decode w = .ok i →
    exec i { s with hostIn := rest, rsp := none } = .next t →
    ∃ u, step s = .next u ∧ u.AtReset ∧ u.hostIn = rest ∧
      u.lines = linesAfter s.lines ((opsIssued s t).take n) ∧ u.outPins = t.outPins

/-! The invariant. -/

/-- The state after reset meets the invariant; its platform is the model's choice (log 1). -/
def Obligations.ResetMeetsInvariant : Prop := Inv State.reset

/-- Every step keeps the invariant, whatever the host does: the strip invariants of 10_state.md R37 and the other
invariants of 10_state.md; so no `TRANSMIT` of a machine that meets it hangs. -/
def Obligations.StepKeepsInvariant : Prop := ∀ s t : State, Inv s → step s = .next t → Inv t

/-- A machine that meets the invariant takes every step: no fault, no refusal, whatever word the host presents
(70_reset_and_hazards.md section 3, "every sequence has a defined outcome"). -/
def Obligations.InvariantMachineNeverStops : Prop := ∀ s : State, Inv s → ∃ t, step s = .next t

/-! Status codes and the error record (60_exceptions.md). -/

/-- R318: the gating table, every cell: the status named, and nothing but the error record changed; where the cell says
ok the command does not end with `ERR_FATAL`, `ERR_STATE` or `ERR_LOCKED`. -/
def Obligations.GateTable : Prop :=
  (∀ (i : Instr) (s : State) (c : BitVec 8), s.gateCell i = some c → exec i s = .next (s.failed i.opcode c)) ∧
  (∀ (i : Instr) (s t : State), s.gateCell i = none → exec i s = .next t → (i = .transmit → t.busy = false) →
    t.status ≠ some 8#8 ∧ t.status ≠ some 2#8 ∧ t.status ≠ some 4#8) ∧
  ∀ s : State, Inv s → s.fatal = true → s.phase = .opened ∧ s.strategy = .dma

/-- R310, 30_encoding.md R108: a command that has ended shows one response, with its opcode, with a status the table
gives it, and with a sub-cause for `ERR_DMA` only. -/
def Obligations.CommandEndsWithItsStatus : Prop :=
  ∀ (i : Instr) (s t : State), i.wf = true → exec i s = .next t → (i = .transmit → t.busy = false) →
    ∃ r, t.rsp = some r ∧ r.extractLsb' 8 8 = i.opcode ∧ r.extractLsb' 0 8 ∈ statusCodes i ∧
      (r.extractLsb' 16 16 ≠ 0#16 → r.extractLsb' 0 8 = 7#8)

/-- R312, R336: a command other than `TRANSMIT` that ends with a nonzero status has changed nothing but the error
record, and `FATAL` for the fatal form of `ERR_ALLOC` alone. -/
def Obligations.FailureLeavesOnlyItsRecord : Prop :=
  ∀ (i : Instr) (s t : State) (c : BitVec 8), i ≠ .transmit → exec i s = .next t → t.status = some c → c ≠ 0#8 →
    t = s.failed i.opcode c ∨
      (c = 6#8 ∧ gateRow i = .registers ∧ s.strategy = .dma ∧
        t = ({ s with fatal := true } : State).failed i.opcode 6#8)

/-- 10_state.md R22, 60_exceptions.md R316: the phase changes by a `BUSCFG` from `UNCONFIGURED` to `OPEN` and by a
`TRANSMIT` from `OPEN` to `LOCKED` and in no other way; under the lock no command changes the topology. -/
def Obligations.PhaseOnlyAdvances : Prop :=
  ∀ (i : Instr) (s t : State), exec i s = .next t →
    (t.phase = s.phase ∨ (gateRow i = .creates ∧ s.phase = .unconfigured ∧ t.phase = .opened) ∨
      (i = .transmit ∧ s.phase = .opened ∧ t.phase = .locked)) ∧
    (s.phase = .locked → t.phase = .locked ∧ t.dataMask = s.dataMask ∧ t.size = s.size ∧ t.clkPin = s.clkPin ∧
      t.strategy = s.strategy ∧ t.freq = s.freq)

/-- R312, last sentence: a command that ends with `OK` leaves `ERRFLAGS` and `LASTERR` unchanged (`CLRERR`, whose effect
they are, apart). -/
def Obligations.OkLeavesErrorRecord : Prop :=
  ∀ (i : Instr) (s t : State), i ≠ .clrerr → exec i s = .next t → (i = .transmit → t.busy = false) →
    t.status = some 0#8 → t.errFlags = s.errFlags ∧ t.lastErr = s.lastErr

/-! Bus commands (40_bus_commands.md). -/

/-- R130. -/
def Obligations.NopAnswersOk : Prop :=
  encode .nop = 0#128 ∧ ∀ s : State, exec .nop s = .next { s with rsp := some 0x00000000_00000000#64 }

/-- R136: in every phase and also when `FATAL = 1` the error record is cleared and nothing else changes. -/
def Obligations.ClrerrClearsRecord : Prop :=
  encode .clrerr = 0x06#128 ∧
  ∀ s : State,
    exec .clrerr s = .next { s with errFlags := 0#16, lastErr := 0#16, rsp := some 0x00000000_00000600#64 }

/-- R131: the two checks in order, the effect, the response; nothing else changes, the level of the clock line included. -/
def Obligations.BuscfgCreatesBus : Prop :=
  encode (.buscfg 4#5 .direct 1000000#32) = 0x00000000_000F4240_00000000_00000401#128 ∧
  ∀ (s : State) (clk : Pin) (strat : Strategy) (freq : Word), s.fatal = false →
    (s.phase ≠ .unconfigured → exec (.buscfg clk strat freq) s = .next (s.failed 0x01#8 2#8)) ∧
    (s.phase = .unconfigured → s.params.validPins.getLsbD clk.toNat = false →
      exec (.buscfg clk strat freq) s = .next (s.failed 0x01#8 3#8)) ∧
    (s.phase = .unconfigured → s.params.validPins.getLsbD clk.toNat = true →
      exec (.buscfg clk strat freq) s =
        .next { s with
          clkPin := clk
          strategy := strat
          freq := freq
          phase := .opened
          outPins := s.outPins ||| 1#32 <<< clk.toNat
          outenTrace := s.outenTrace ++ [clk]
          rsp := some (okRsp 0x01#8 0#32) })

/-- R132: in phase `OPEN` (the lock is check (1), see `GateTable`) checks (2) to (4) in order, then the effect: the mask
bit, the growth with zero-fill, the response with the new `SIZE`; every other byte of the plane and every other field
unchanged. That the pin's bit of `LINES` is among the unchanged is the model's choice (log 21). -/
def Obligations.ReglineRegistersLine : Prop :=
  encode (.regline 5#5 48#32) = 0x00000000_00000000_00000030_00000502#128 ∧
  ∀ (s : State) (pin : Pin) (len : Word), s.fatal = false → s.phase ≠ .unconfigured →
    (s.phase = .locked → exec (.regline pin len) s = .next (s.failed 0x02#8 4#8)) ∧
    (s.phase = .opened →
      (s.params.validPins.getLsbD pin.toNat = false ∨ pin = s.clkPin →
        exec (.regline pin len) s = .next (s.failed 0x02#8 3#8)) ∧
      (s.params.validPins.getLsbD pin.toNat = true → pin ≠ s.clkPin →
        (s.params.maxBytes < len.toNat → exec (.regline pin len) s = .next (s.failed 0x02#8 6#8)) ∧
        (len.toNat ≤ s.params.maxBytes →
          (s.strategy = .dma ∧ s.params.dmaMemBytes < needBytes s.params (max s.size.toNat len.toNat) →
            exec (.regline pin len) s = .next (({ s with fatal := true } : State).failed 0x02#8 6#8)) ∧
          ((s.strategy = .dma → needBytes s.params (max s.size.toNat len.toNat) ≤ s.params.dmaMemBytes) →
            ∃ t, exec (.regline pin len) s = .next t ∧
              t.dataMask = s.dataMask ||| 1#32 <<< pin.toNat ∧
              t.size = (if s.size.toNat < len.toNat then len else s.size) ∧
              t.rsp = some (okRsp 0x02#8 t.size) ∧
              t.outPins = s.outPins ||| 1#32 <<< pin.toNat ∧
              t.outenTrace = s.outenTrace ++ [pin] ∧
              (∀ p pos, t.byteAt p pos =
                if s.size.toNat < len.toNat ∧ s.size.toNat ≤ pos then 0x00#8 else s.byteAt p pos) ∧
              { t with
                dataMask := s.dataMask
                size := s.size
                plane := s.plane
                outPins := s.outPins
                outenTrace := s.outenTrace
                rsp := s.rsp } = s))))

/-- R133, 20_memory.md R63, R64: in phases `OPEN` and `LOCKED` the two checks in order, then the one byte is stored;
every other byte of the plane and every other field unchanged. -/
def Obligations.SetbyteStoresByte : Prop :=
  encode (.setbyte 5#5 2#32 0xA5#8) = 0x00000000_000000A5_00000002_00000503#128 ∧
  ∀ (s : State) (pin : Pin) (pos : Word) (val : Byte), s.Ready →
    (s.dataMask.getLsbD pin.toNat = false → exec (.setbyte pin pos val) s = .next (s.failed 0x03#8 3#8)) ∧
    (s.dataMask.getLsbD pin.toNat = true →
      (s.size.toNat ≤ pos.toNat → exec (.setbyte pin pos val) s = .next (s.failed 0x03#8 5#8)) ∧
      (pos.toNat < s.size.toNat →
        ∃ t, exec (.setbyte pin pos val) s = .next t ∧
          t.rsp = some (okRsp 0x03#8 0#32) ∧
          (∀ q x, t.byteAt q x = if q = pin ∧ x = pos.toNat then val else s.byteAt q x) ∧
          (∀ k, k < 8 → (t.planeAt (8 * pos.toNat + k)).getLsbD pin.toNat = val.getLsbD (7 - k)) ∧
          { t with plane := s.plane, rsp := s.rsp } = s))

/-- R135, 10_state.md R49, R50: what `RDREG` answers for each bus register, in every state; only the response changes. -/
def Obligations.RdregReadsBusRegister : Prop :=
  ∀ (s : State) (addr : BitVec 8) (v : Word),
    (addr, v) ∈
      [(0x00#8, 0x53505801#32),
       (0x01#8, (if s.phase ≠ .unconfigured then 0x01#32 else 0#32) ||| (if s.phase = .locked then 0x02#32 else 0#32) |||
         (if s.busy then 0x04#32 else 0#32) ||| (if s.fatal then 0x08#32 else 0#32) |||
         (if s.calDone then 0x10#32 else 0#32) ||| (if s.strategy = .dma then 0x20#32 else 0#32) |||
         (if s.chainBuilt then 0x40#32 else 0#32)),
       (0x02#8, 0#16 ++ s.errFlags), (0x03#8, 0#27 ++ s.clkPin), (0x04#8, s.dataMask), (0x05#8, s.size),
       (0x06#8, s.freq), (0x07#8, s.calRep), (0x08#8, s.calBusy), (0x09#8, s.txCount),
       (0x0A#8, (if s.dmacs.active then 0x001#32 else 0#32) ||| (if s.dmacs.ended then 0x002#32 else 0#32) |||
         (if s.dmacs.error then 0x100#32 else 0#32)),
       (0x0B#8, s.conblk), (0x0C#8, s.ncb), (0x0D#8, s.rowBase), (0x0E#8, 0#16 ++ s.lastErr)] →
    exec (.rdreg addr 0#5) s = .next { s with rsp := some (okRsp 0x05#8 v) }

/-- R135, 10_state.md R49, R50: what `RDREG` answers for each strip register of any pin, 0 where the pin has no strip;
only the response changes. -/
def Obligations.RdregReadsStripRegister : Prop :=
  ∀ (s : State) (pin : Pin) (addr : BitVec 8) (v : Word),
    (addr, v) ∈
      [(0x20#8, (s.strip pin).count ++ 0#9 ++ (s.strip pin).ord.code ++ (s.strip pin).proto.code ++ 1#1),
       (0x21#8, (s.strip pin).rs), (0x22#8, (s.strip pin).gs), (0x23#8, (s.strip pin).bs),
       (0x24#8, 0#27 ++ (s.strip pin).level0), (0x25#8, (s.strip pin).compR), (0x26#8, (s.strip pin).compG),
       (0x27#8, (s.strip pin).compB),
       (0x28#8, BitVec.ofNat 32 (frameBytes (s.strip pin).proto (s.strip pin).count.toNat)),
       (0x29#8, match (s.strip pin).proto with
         | .ws2801 => 0#32 | .lpd6803 => 4#32 | .lpd8806 => 1#32 | .apa102 => 4#32 | .sk9822 => 4#32)] →
    exec (.rdreg addr pin) s =
      .next { s with rsp := some (okRsp 0x05#8 (if (s.strip pin).valid then v else 0#32)) }

/-- R137 under the direct strategy (under DMA it also needs a `DMEM` that holds the image). -/
def Obligations.TwoLinesShareOneLength : Prop :=
  ∀ (s : State) (clk : Pin) (freq : Word),
    s.phase = .unconfigured → s.fatal = false → s.dataMask = 0#32 → s.size = 0#32 →
    clk ≠ 5#5 → clk ≠ 6#5 → s.params.validPins.getLsbD clk.toNat = true →
    s.params.validPins.getLsbD 5 = true → s.params.validPins.getLsbD 6 = true → 48 ≤ s.params.maxBytes →
    ∃ a b c, exec (.buscfg clk .direct freq) s = .next a ∧ exec (.regline 5#5 48#32) a = .next b ∧
      exec (.regline 6#5 32#32) b = .next c ∧
      c.dataMask = 0x60#32 ∧ c.size = 48#32 ∧ ∀ pos, pos < 48 → c.byteAt 6#5 pos = 0x00#8

/-! The strip factory (43_strip_factory.md). -/

/-- R231, R233 to R238: each of the five constructors, once its checks pass, registers the line, creates the handle with
scale 1.0 and level 31, and lays the all-black frame; every other strip, every other byte and every other field are
unchanged, but for the zero-fill of the growth. That the pin's bit of `LINES` is among the unchanged is the model's choice
(log 21). -/
def Obligations.ConstructorLaysBlackFrame : Prop :=
  ∀ (proto : Proto) (s : State) (pin : Pin) (o : Order) (count : BitVec 16),
    s.CanRegister pin (frameBytes proto count.toNat) → (s.strip pin).valid = false → s.params.maxBytes ≤ 2 ^ 27 →
    ∃ t, exec (proto.constructor pin o.code count) s = .next t ∧
      t.dataMask = s.dataMask ||| 1#32 <<< pin.toNat ∧
      t.size.toNat = max s.size.toNat (frameBytes proto count.toNat) ∧
      t.rsp = some (okRsp (proto.constructor pin o.code count).opcode t.size) ∧
      t.outPins = s.outPins ||| 1#32 <<< pin.toNat ∧
      t.outenTrace = s.outenTrace ++ [pin] ∧
      t.strip pin =
        { valid := true, proto := proto, ord := o, count := count, rs := 0x10000#32, gs := 0x10000#32, bs := 0x10000#32,
          level0 := 31#5, compR := 0x10000#32, compG := 0x10000#32, compB := 0x10000#32 } ∧
      (∀ q, q ≠ pin → t.strip q = s.strip q) ∧
      (∀ q pos, t.byteAt q pos =
        if q = pin ∧ pos < frameBytes proto count.toNat then blackByte proto count.toNat pos
        else if s.size.toNat < frameBytes proto count.toNat ∧ s.size.toNat ≤ pos then 0x00#8
        else s.byteAt q pos) ∧
      { t with
        dataMask := s.dataMask
        size := s.size
        plane := s.plane
        strips := s.strips
        outPins := s.outPins
        outenTrace := s.outenTrace
        rsp := s.rsp } = s

/-- R233, R242: the checks of the five constructors, in their order, after the prologue and the lock: the pin, the
strip and the order code, the capacity, the DMA memory. -/
def Obligations.ConstructorChecksInOrder : Prop :=
  ∀ (proto : Proto) (s : State) (pin : Pin) (ord : BitVec 3) (count : BitVec 16),
    s.fatal = false → s.phase = .opened →
    (s.params.validPins.getLsbD pin.toNat = false ∨ pin = s.clkPin →
      exec (proto.constructor pin ord count) s = .next (s.failed (proto.constructor pin ord count).opcode 3#8)) ∧
    (s.params.validPins.getLsbD pin.toNat = true → pin ≠ s.clkPin →
      ((s.strip pin).valid = true ∨ 5 < ord.toNat →
        exec (proto.constructor pin ord count) s = .next (s.failed (proto.constructor pin ord count).opcode 9#8)) ∧
      ((s.strip pin).valid = false → ord.toNat ≤ 5 →
        (s.params.maxBytes < frameBytes proto count.toNat →
          exec (proto.constructor pin ord count) s = .next (s.failed (proto.constructor pin ord count).opcode 6#8)) ∧
        (frameBytes proto count.toNat ≤ s.params.maxBytes → s.strategy = .dma →
          s.params.dmaMemBytes < needBytes s.params (max s.size.toNat (frameBytes proto count.toNat)) →
          exec (proto.constructor pin ord count) s =
            .next (({ s with fatal := true } : State).failed (proto.constructor pin ord count).opcode 6#8))))

/-- R240: in phases `OPEN` and `LOCKED` a strip is destroyed by clearing `VALID`; nothing else changes; on a pin without
a strip the command ends with `ERR_STRIP`. -/
def Obligations.RmstripClearsValid : Prop :=
  encode (.rmstrip 7#5) = 0x00000000_00000000_00000000_0000071B#128 ∧
  ∀ (s : State) (pin : Pin), s.Ready →
    ((s.strip pin).valid = false → exec (.rmstrip pin) s = .next (s.failed 0x1B#8 9#8)) ∧
    ((s.strip pin).valid = true →
      ∃ t, exec (.rmstrip pin) s = .next t ∧ t.rsp = some (okRsp 0x1B#8 0#32) ∧
        t.strip pin = { s.strip pin with valid := false } ∧ (∀ q, q ≠ pin → t.strip q = s.strip q) ∧
        { t with strips := s.strips, rsp := s.rsp } = s)

/-! Pixel encoders (44_pixel_encoders.md). -/

/-- 60_exceptions.md R321 (a): a pixel or brightness command on a pin without a strip ends with `ERR_STRIP`. -/
def Obligations.PixelCommandsNeedStrip : Prop :=
  ∀ (s : State) (pin : Pin), s.Ready → (s.strip pin).valid = false →
    (∀ (idx : BitVec 16) (r g b : Byte), exec (.setpix8 pin idx r g b) s = .next (s.failed 0x18#8 9#8)) ∧
    (∀ (idx : BitVec 16) (r g b : BitVec 16), exec (.setpix16 pin idx r g b) s = .next (s.failed 0x19#8 9#8)) ∧
    (∀ rs gs bs : Word, exec (.setbrt pin rs gs bs) s = .next (s.failed 0x1A#8 9#8)) ∧
    exec (.rmstrip pin) s = .next (s.failed 0x1B#8 9#8)

/-- R261: a pixel write past the end of the strip answers `OK` and changes nothing. -/
def Obligations.OutOfRangePixelIsSilent : Prop :=
  ∀ (s : State) (pin : Pin) (idx : BitVec 16), s.Ready → (s.strip pin).valid = true →
    (s.strip pin).count.toNat ≤ idx.toNat →
    (∀ r g b : Byte, exec (.setpix8 pin idx r g b) s = .next { s with rsp := some (okRsp 0x18#8 0#32) }) ∧
    ∀ r g b : BitVec 16, exec (.setpix16 pin idx r g b) s = .next { s with rsp := some (okRsp 0x19#8 0#32) }

/-- R266, R264, R277: the three bytes of a WS2801 pixel, channel X at its slot, and no other byte. -/
def Obligations.Setpix8EncodesWs2801 : Prop :=
  ∀ (s : State) (pin : Pin) (idx : BitVec 16) (r g b : Byte),
    s.CanWritePixel pin idx → (s.strip pin).proto = .ws2801 →
    ∃ t, exec (.setpix8 pin idx r g b) s = .next t ∧ s.PixelWritten t 0x18#8 pin (3 * idx.toNat) 3 ∧
      ∀ X, t.byteAt pin (3 * idx.toNat + (s.strip pin).ord.slot X) =
        BitVec.ofNat 8 (min 255 (chanValue r g b X * ((s.strip pin).scale X).toNat / 65536))

/-- R268, 30_encoding.md R113: the 16-bit word of an LPD6803 pixel, high byte first, and no other byte. -/
def Obligations.Setpix8EncodesLpd6803 : Prop :=
  ∀ (s : State) (pin : Pin) (idx : BitVec 16) (r g b : Byte),
    s.CanWritePixel pin idx → (s.strip pin).proto = .lpd6803 →
    ∃ t, exec (.setpix8 pin idx r g b) s = .next t ∧ s.PixelWritten t 0x18#8 pin (4 + 2 * idx.toNat) 2 ∧
      (t.byteAt pin (4 + 2 * idx.toNat)).getLsbD 7 = true ∧
      ∀ X, ((t.byteAt pin (4 + 2 * idx.toNat) ++ t.byteAt pin (4 + 2 * idx.toNat + 1)) >>>
          (10 - 5 * (s.strip pin).ord.slot X)).setWidth 5 =
        BitVec.ofNat 5 (min 255 (chanValue r g b X * ((s.strip pin).scale X).toNat / 65536) / 8)

/-- R270, 30_encoding.md R114: the three bytes of an LPD8806 pixel, top bit 1 and seven bits of magnitude, and no other
byte. -/
def Obligations.Setpix8EncodesLpd8806 : Prop :=
  ∀ (s : State) (pin : Pin) (idx : BitVec 16) (r g b : Byte),
    s.CanWritePixel pin idx → (s.strip pin).proto = .lpd8806 →
    ∃ t, exec (.setpix8 pin idx r g b) s = .next t ∧ s.PixelWritten t 0x18#8 pin (1 + 3 * idx.toNat) 3 ∧
      ∀ X, t.byteAt pin (1 + 3 * idx.toNat + (s.strip pin).ord.slot X) =
        0x80#8 ||| BitVec.ofNat 8 (min 255 (chanValue r g b X * ((s.strip pin).scale X).toNat / 65536) / 2)

/-- R272, 30_encoding.md R115: the four bytes of an APA102 or SK9822 pixel on the 8-bit path: the strip's own level and
multipliers; and no other byte. -/
def Obligations.Setpix8EncodesApa102 : Prop :=
  ∀ (s : State) (pin : Pin) (idx : BitVec 16) (r g b : Byte),
    s.CanWritePixel pin idx → (s.strip pin).proto = .apa102 ∨ (s.strip pin).proto = .sk9822 →
    ∃ t, exec (.setpix8 pin idx r g b) s = .next t ∧ s.PixelWritten t 0x18#8 pin (4 + 4 * idx.toNat) 4 ∧
      t.byteAt pin (4 + 4 * idx.toNat) = 0b111#3 ++ (s.strip pin).level0 ∧
      ∀ X, t.byteAt pin (4 + 4 * idx.toNat + 1 + (s.strip pin).ord.slot X) =
        BitVec.ofNat 8 (min 255 (chanValue r g b X * ((s.strip pin).comp X).toNat / 65536))

/-- R273: the four bytes of an APA102 or SK9822 pixel on the 16-bit path: the pixel's own level and the reciprocal
table; and no other byte. -/
def Obligations.Setpix16EncodesApa102 : Prop :=
  ∀ (s : State) (pin : Pin) (idx : BitVec 16) (r g b : BitVec 16),
    s.CanWritePixel pin idx → (s.strip pin).proto = .apa102 ∨ (s.strip pin).proto = .sk9822 →
    let w := fun X => min 65535 (chanValue r g b X * ((s.strip pin).scale X).toNat / 65536)
    let level := max (max (w .red) (w .green)) (w .blue) * 31 / 65536 + 1
    ∃ t, exec (.setpix16 pin idx r g b) s = .next t ∧ s.PixelWritten t 0x19#8 pin (4 + 4 * idx.toNat) 4 ∧
      t.byteAt pin (4 + 4 * idx.toNat) = 0b111#3 ++ BitVec.ofNat 5 level ∧
      ∀ X, t.byteAt pin (4 + 4 * idx.toNat + 1 + (s.strip pin).ord.slot X) =
        BitVec.ofNat 8
          (min 255 (w X * rtabAt (rtab s.params (s.strip pin).proto X) (BitVec.ofNat 5 level) / 16777216))

/-- R274, R267, R269, R271: on the three 8-bit protocols `SETPIX16` has exactly the effect of `SETPIX8` on the high
bytes, in every state; of the response only the opcode echoed, `RSP[15:8]`, differs. A write that passes its checks
answers `OK`. -/
def Obligations.Setpix16IsSetpix8OfHighBytes : Prop :=
  ∀ (s : State) (pin : Pin) (idx : BitVec 16) (r g b : BitVec 16),
    (s.strip pin).proto = .ws2801 ∨ (s.strip pin).proto = .lpd6803 ∨ (s.strip pin).proto = .lpd8806 →
    (match exec (.setpix16 pin idx r g b) s,
        exec (.setpix8 pin idx (r.extractLsb' 8 8) (g.extractLsb' 8 8) (b.extractLsb' 8 8)) s with
    | .next t, .next u => { t with rsp := u.rsp } = u ∧
        ∃ r q, t.rsp = some r ∧ u.rsp = some q ∧ r.extractLsb' 0 8 = q.extractLsb' 0 8 ∧
          r.extractLsb' 16 48 = q.extractLsb' 16 48 ∧ r.extractLsb' 8 8 = 0x19#8 ∧ q.extractLsb' 8 8 = 0x18#8
    | .fault f, .fault f' => f = f'
    | _, _ => False) ∧
    (s.CanWritePixel pin idx →
      ∃ t, exec (.setpix16 pin idx r g b) s = .next t ∧ t.rsp = some (okRsp 0x19#8 0#32))

/-- R276: the bytes of a black pixel, whatever the brightness: only the forced bits remain. -/
def Obligations.ZeroStaysZero : Prop :=
  ∀ (s : State) (pin : Pin) (idx : BitVec 16), s.CanWritePixel pin idx →
    (∃ t, exec (.setpix8 pin idx 0#8 0#8 0#8) s = .next t ∧
      match (s.strip pin).proto with
      | .ws2801 => ∀ k, k < 3 → t.byteAt pin (3 * idx.toNat + k) = 0x00#8
      | .lpd6803 => t.byteAt pin (4 + 2 * idx.toNat) = 0x80#8 ∧ t.byteAt pin (4 + 2 * idx.toNat + 1) = 0x00#8
      | .lpd8806 => ∀ k, k < 3 → t.byteAt pin (1 + 3 * idx.toNat + k) = 0x80#8
      | .apa102 | .sk9822 => t.byteAt pin (4 + 4 * idx.toNat) = 0b111#3 ++ (s.strip pin).level0 ∧
          ∀ k, k < 3 → t.byteAt pin (4 + 4 * idx.toNat + 1 + k) = 0x00#8) ∧
    ∃ t, exec (.setpix16 pin idx 0#16 0#16 0#16) s = .next t ∧
      match (s.strip pin).proto with
      | .ws2801 => ∀ k, k < 3 → t.byteAt pin (3 * idx.toNat + k) = 0x00#8
      | .lpd6803 => t.byteAt pin (4 + 2 * idx.toNat) = 0x80#8 ∧ t.byteAt pin (4 + 2 * idx.toNat + 1) = 0x00#8
      | .lpd8806 => ∀ k, k < 3 → t.byteAt pin (1 + 3 * idx.toNat + k) = 0x80#8
      | .apa102 | .sk9822 => t.byteAt pin (4 + 4 * idx.toNat) = 0xE1#8 ∧
          ∀ k, k < 3 → t.byteAt pin (4 + 4 * idx.toNat + 1 + k) = 0x00#8

/-- R278: no brightness byte has level 0: `SETBRT` chooses a level in 1..31, a pixel write on either path (on the 8-bit
path in a machine that meets the invariant) writes a level other than 0, and a constructor that ends with `OK` has
pre-seeded every pixel of its strip with level 1. -/
def Obligations.BrightnessLevelNeverZero : Prop :=
  (∀ rs gs bs : Word, 1 ≤ (level0Of rs gs bs).toNat ∧ (level0Of rs gs bs).toNat ≤ 31) ∧
  (∀ (s t : State) (pin : Pin) (idx : BitVec 16) (r g b : BitVec 16), s.CanWritePixel pin idx →
    (s.strip pin).proto = .apa102 ∨ (s.strip pin).proto = .sk9822 → exec (.setpix16 pin idx r g b) s = .next t →
    (t.byteAt pin (4 + 4 * idx.toNat)).extractLsb' 0 5 ≠ 0#5) ∧
  (∀ (s t : State) (pin : Pin) (idx : BitVec 16) (r g b : Byte), Inv s → s.CanWritePixel pin idx →
    (s.strip pin).proto = .apa102 ∨ (s.strip pin).proto = .sk9822 → exec (.setpix8 pin idx r g b) s = .next t →
    (t.byteAt pin (4 + 4 * idx.toNat)).extractLsb' 0 5 ≠ 0#5) ∧
  ∀ (proto : Proto) (s t : State) (pin : Pin) (ord : BitVec 3) (count : BitVec 16),
    proto = .apa102 ∨ proto = .sk9822 → exec (proto.constructor pin ord count) s = .next t → t.status = some 0#8 →
    ∀ i, i < count.toNat →
      (proto.blackFrame count.toNat)[4 + 4 * i]? = some 0xE1#8 ∧ (t.byteAt pin (4 + 4 * i)).extractLsb' 0 5 = 1#5

/-- R275: on the 16-bit path of APA102 (and of SK9822 with the default tables) the intensity a colour byte gives,
`o * level / 31`, is at most the wanted `w / 256` and within one step of the byte at that level, plus the table's
rounding. Multiplied out by `31 * 256`. -/
def Obligations.SixteenBitPathIsPrecise : Prop :=
  ∀ (s t : State) (pin : Pin) (idx : BitVec 16) (r g b : BitVec 16) (X : Chan),
    s.CanWritePixel pin idx →
    (s.strip pin).proto = .apa102 ∨
      (s.strip pin).proto = .sk9822 ∧ s.params.skRtabR = rtabApa ∧ s.params.skRtabGB = rtabApa →
    exec (.setpix16 pin idx r g b) s = .next t →
    let w := min 65535 (chanValue r g b X * ((s.strip pin).scale X).toNat / 65536)
    let level := (t.byteAt pin (4 + 4 * idx.toNat)).toNat % 32
    let o := (t.byteAt pin (4 + 4 * idx.toNat + 1 + (s.strip pin).ord.slot X)).toNat
    o * level * 256 ≤ w * 31 ∧ w * 31 < o * level * 256 + 257 * level

/-- R280, R281: `SETBRT` stores the scales and recomputes the level and the multipliers; it writes no byte of the plane
and nothing else. -/
def Obligations.SetbrtRecomputesScales : Prop :=
  encode (.setbrt 7#5 0x8000#32 0x8000#32 0x8000#32) = 0x00008000_00008000_00008000_0000071A#128 ∧
  ∀ (s : State) (pin : Pin) (rs gs bs : Word), s.Ready →
    ((s.strip pin).valid = false → exec (.setbrt pin rs gs bs) s = .next (s.failed 0x1A#8 9#8)) ∧
    ((s.strip pin).valid = true →
      ∃ t, exec (.setbrt pin rs gs bs) s = .next t ∧ t.rsp = some (okRsp 0x1A#8 0#32) ∧
        (t.strip pin).rs = rs ∧ (t.strip pin).gs = gs ∧ (t.strip pin).bs = bs ∧
        (t.strip pin).level0.toNat =
          max 1 (min ((max (max rs.toNat gs.toNat) bs.toNat * 31 + 65535) / 65536) 31) ∧
        (∀ X, ((t.strip pin).comp X).toNat =
          min (((t.strip pin).scale X).toNat *
            rtabAt (rtab s.params (s.strip pin).proto X) (t.strip pin).level0 / 65536) (2 ^ 32 - 1)) ∧
        (t.strip pin).valid = true ∧ (t.strip pin).proto = (s.strip pin).proto ∧
        (t.strip pin).ord = (s.strip pin).ord ∧ (t.strip pin).count = (s.strip pin).count ∧
        (∀ q, q ≠ pin → t.strip q = s.strip q) ∧
        { t with strips := s.strips, rsp := s.rsp } = s)

/-- R282: the hardware level `SETBRT` chooses is non-decreasing in each of the three scales over the whole 32-bit range,
and lies in 1..31. -/
def Obligations.LevelIsMonotone : Prop :=
  ∀ (s t s' t' : State) (pin : Pin) (rs gs bs rs' gs' bs' : Word),
    s.Ready → s'.Ready → (s.strip pin).valid = true → (s'.strip pin).valid = true →
    exec (.setbrt pin rs gs bs) s = .next t → exec (.setbrt pin rs' gs' bs') s' = .next t' →
    rs.toNat ≤ rs'.toNat → gs.toNat ≤ gs'.toNat → bs.toNat ≤ bs'.toNat →
    (t.strip pin).level0.toNat ≤ (t'.strip pin).level0.toNat ∧
      1 ≤ (t.strip pin).level0.toNat ∧ (t.strip pin).level0.toNat ≤ 31

/-- R264: what `Scale8` is, and its laws. -/
def Obligations.ScaleLaws : Prop :=
  (∀ c s, scale8 c s = min 255 (c * s / 65536)) ∧ (∀ c, c ≤ 255 → scale8 c 0x00010000 = c) ∧
  (∀ s, scale8 0 s = 0) ∧ (∀ c c' s s', c ≤ c' → s ≤ s' → scale8 c s ≤ scale8 c' s')

/-- R273: the level the 16-bit path chooses is the least of 1..31 at which the largest wanted intensity still fits, and
with the table of APA102 no colour byte exceeds 255 before the clamp. -/
def Obligations.PixelLevelIsLeast : Prop :=
  ∀ (S : Strip) (r g b : BitVec 16),
    let v := chanValue r g b
    let m := max (max (apaWanted S v .red) (apaWanted S v .green)) (apaWanted S v .blue)
    (1 ≤ apaLevel S v ∧ apaLevel S v ≤ 31) ∧
    (∀ L, 1 ≤ L → L ≤ 31 → (m * 31 < 65536 * L ↔ apaLevel S v ≤ L)) ∧
    ∀ X, apaWanted S v X * rtabAt rtabApa (BitVec.ofNat 5 (apaLevel S v)) / 16777216 ≤ 255

/-! `TRANSMIT` (41_transmit_direct.md). -/

/-- R162: the logical writes of a frame: the masks of each, their number, and that the two masks of each are disjoint
and together are the outputs. The premises are the invariants of 10_state.md R26 and R28. -/
def Obligations.FrameMasks : Prop :=
  ∀ s : State, s.LanesRegistered → s.dataMask &&& s.clkBit = 0#32 →
    nRows s.size.toNat = 16 * s.size.toNat + 1 ∧
    (∀ t, t < 8 * s.size.toNat →
      s.setMask (2 * t) = s.planeAt t ∧ s.clrMask (2 * t) = (s.dataMask &&& ~~~s.planeAt t) ||| s.clkBit ∧
      s.setMask (2 * t + 1) = s.planeAt t ||| s.clkBit ∧ s.clrMask (2 * t + 1) = s.dataMask &&& ~~~s.planeAt t) ∧
    s.setMask (16 * s.size.toNat) = 0#32 ∧ s.clrMask (16 * s.size.toNat) = s.dataMask ||| s.clkBit ∧
    ∀ r, r ≤ 16 * s.size.toNat → s.setMask r &&& s.clrMask r = 0#32 ∧ s.setMask r ||| s.clrMask r = s.outs

/-- R160, R161, R163: a calibrated direct `TRANSMIT` locks the bus, issues the frame, each logical write `CALREP` times,
counts it and answers `OK`; nothing else changes (`TICK` and `PH` are dead between commands, 10_state.md R39). -/
def Obligations.DirectTransmitSendsFrame : Prop :=
  ∀ s : State, s.Ready → s.strategy = .direct → s.calDone = true →
    ∃ t, exec .transmit s = .next t ∧
      t.rsp = some (okRsp 0x04#8 0#32) ∧ t.phase = .locked ∧ t.busy = false ∧ t.txCount = s.txCount + 1#32 ∧
      t.physTrace = s.physTrace ++ s.directOps ∧ t.lines = linesAfter s.lines s.directOps ∧
      { t with
        rsp := s.rsp
        phase := s.phase
        busy := s.busy
        txCount := s.txCount
        physTrace := s.physTrace
        lines := s.lines
        tick := s.tick
        ph := s.ph } = s

/-- R168 to R170: the first direct `TRANSMIT` reads the clock three times, issues `CAL_N` empty clear operations, solves
for the two counts or falls back to the defaults, and then sends the frame; calibration sets no error and changes no
line. The defaults are taken to fit their 32-bit registers (log 11). -/
def Obligations.FirstDirectTransmitCalibrates : Prop :=
  ∀ s : State, s.Ready → s.strategy = .direct → s.calDone = false →
    s.params.calDefaultRepeat < 2 ^ 32 → s.params.calDefaultBusy < 2 ^ 32 →
    let r0 := s.timeSample 0
    let r1 := s.timeSample 1
    let r2 := s.timeSample 2
    let tw := r1.ns.toNat - r0.ns.toNat
    let budget := 1000000000 / (2 * s.freq.toNat) * s.params.calN
    let rep := max s.params.minWrites (budget / (2 * tw))
    ∃ t, exec .transmit s = .next t ∧
      (if r0.ok = false ∨ r1.ok = false ∨ r2.ok = false ∨ r1.ns.toNat ≤ r0.ns.toNat ∨ r2.ns.toNat ≤ r1.ns.toNat then
        t.calRep.toNat = s.params.calDefaultRepeat ∧ t.calBusy.toNat = s.params.calDefaultBusy
      else if s.freq = 0#32 then
        t.calRep.toNat = min s.params.minWrites (2 ^ 32 - 1) ∧ t.calBusy.toNat = 0
      else
        t.calRep.toNat = min rep (2 ^ 32 - 1) ∧
          t.calBusy.toNat = min ((budget - min budget (2 * rep * tw)) / (r2.ns.toNat - r1.ns.toNat)) (2 ^ 32 - 1)) ∧
      t.calDone = true ∧ t.rsp = some (okRsp 0x04#8 0#32) ∧ t.phase = .locked ∧ t.busy = false ∧
      t.txCount = s.txCount + 1#32 ∧
      t.physTrace = s.physTrace ++ List.replicate s.params.calN (GpioOp.clr 0#32) ++
        ({ s with calRep := t.calRep } : State).directOps ∧
      t.lines = linesAfter s.lines ({ s with calRep := t.calRep } : State).directOps ∧
      t.timeIn = s.timeIn.drop 3 ∧ t.drawNo = s.drawNo + 3 ∧
      { t with
        calRep := s.calRep
        calBusy := s.calBusy
        calDone := s.calDone
        rsp := s.rsp
        phase := s.phase
        busy := s.busy
        txCount := s.txCount
        physTrace := s.physTrace
        lines := s.lines
        timeIn := s.timeIn
        drawNo := s.drawNo
        tick := s.tick
        ph := s.ph } = s

/-- R160: in every state, whatever its outcome, a `TRANSMIT` that passes the prologue leaves the bus locked, and leaves
the plane, the topology, the strips and the configuration as they are. -/
def Obligations.TransmitLocksAndKeepsBuffer : Prop :=
  ∀ s t : State, s.Ready → exec .transmit s = .next t →
    t.phase = .locked ∧ t.plane = s.plane ∧ t.size = s.size ∧ t.dataMask = s.dataMask ∧ t.strips = s.strips ∧
      t.clkPin = s.clkPin ∧ t.strategy = s.strategy ∧ t.freq = s.freq ∧ t.fatal = s.fatal ∧ t.params = s.params ∧
      t.outPins = s.outPins ∧ t.outenTrace = s.outenTrace ∧ t.hostIn = s.hostIn

/-- R167: after a `TRANSMIT` that ends with `OK` every output line is low; and no command, whatever its outcome, changes a
line that is no output. The default repeat count is taken to fit its register (log 11); that a line keeps its level when
`REGLINE` or a constructor makes it an output is the model's choice (log 21). -/
def Obligations.TransmitLeavesOutputsLow : Prop :=
  (∀ s t : State, Inv s → s.params.calDefaultRepeat < 2 ^ 32 → exec .transmit s = .next t →
    t.status = some 0#8 → t.lines &&& s.outs = 0#32) ∧
  ∀ (i : Instr) (s t : State), Inv s → exec i s = .next t → t.lines &&& ~~~s.outs = s.lines &&& ~~~s.outs

/-- 60_exceptions.md R326: no command but `TRANSMIT` issues an operation on the output port or changes a line; and no
operation of a `TRANSMIT` has a mask with a bit outside `OUTS`. That a line keeps its level when a command makes it an
output is the model's choice (log 21). -/
def Obligations.OnlyTransmitDrivesTheLines : Prop :=
  (∀ (i : Instr) (s t : State), i ≠ .transmit → exec i s = .next t → t.lines = s.lines ∧ t.physTrace = s.physTrace) ∧
  ∀ s t : State, Inv s → exec .transmit s = .next t → ∀ op ∈ opsIssued s t,
    match op with
    | .set m => m &&& ~~~s.outs = 0#32
    | .clr m => m &&& ~~~s.outs = 0#32

/-- R165, R166: at the rising clock edges of a successful `TRANSMIT` of either strategy the level of every registered
data line is, in order, the bits of its byte stream, most significant bit of the first byte first. -/
def Obligations.ChipsLatchTheStream : Prop :=
  ∀ s t : State, Inv s → s.params.calDefaultRepeat < 2 ^ 32 → exec .transmit s = .next t → t.status = some 0#8 →
    ∀ p, s.registered p = true →
      latched s.clkPin p s.lines (opsIssued s t) = (s.stream p).flatMap msbFirst

/-- 70_reset_and_hazards.md R373: the event counts of a successful `TRANSMIT`. -/
def Obligations.EventCounts : Prop :=
  ∀ s t : State, Inv s → s.params.calDefaultRepeat < 2 ^ 32 → exec .transmit s = .next t → t.status = some 0#8 →
    risingEdges s.clkPin s.lines (opsIssued s t) = 8 * s.size.toNat ∧
    (s.strategy = .dma → (opsIssued s t).length = 2 * (16 * s.size.toNat + 1)) ∧
    (s.strategy = .direct → (opsIssued s t).length =
      2 * t.calRep.toNat * (16 * s.size.toNat + 1) + if s.calDone then 0 else s.params.calN)

/-- R171, 10_state.md R52: a direct and a DMA `TRANSMIT` of the same plane and topology, from the same line levels, that
both succeed give the same waveform of the frame, and the same `Waveform` when the direct bus is calibrated; the
`Waveform` of a first direct `TRANSMIT` has the level before the command at its head, which its calibration writes put
there. That R171's list is the frame's in this case is the model's reading (log 10); the default repeat count is taken to
fit its register (log 11). -/
def Obligations.StrategiesGiveOneWaveform : Prop :=
  ∀ a b t u : State, Inv a → Inv b → a.params.calDefaultRepeat < 2 ^ 32 →
    a.strategy = .direct → b.strategy = .dma →
    b.plane = a.plane → b.size = a.size → b.dataMask = a.dataMask → b.clkPin = a.clkPin → b.lines = a.lines →
    exec .transmit a = .next t → exec .transmit b = .next u → t.status = some 0#8 → u.status = some 0#8 →
    let direct := opsIssued a t
    let dma := waveform b.outs b.lines (opsIssued b u)
    frameWaveform a.outs a.lines direct = dma ∧
      (a.calDone = true → waveform a.outs a.lines direct = dma) ∧
      (a.calDone = false → waveform a.outs a.lines direct = merged ((a.lines &&& a.outs) :: dma)) ∧
      t.lines = u.lines

/-! The DMA strategy (42_transmit_dma.md). -/

/-- R191: the sizes, and that the memory a buffer needs grows with its length. -/
def Obligations.NeedBytesGrows : Prop :=
  ∀ P : Params, P.Legal →
    needBytes P 0 = 40 ∧ (∀ m n, m < n → needBytes P m < needBytes P n) ∧
    ∀ n, nRows n = 16 * n + 1 ∧ rowsPerBlock P = min (P.maxSpan / 8) 65535 ∧ 8 * rowsPerBlock P ≤ P.maxSpan ∧
      ncbNeeded P n = (nRows n + rowsPerBlock P - 1) / rowsPerBlock P ∧
      needBytes P n = 32 * ncbNeeded P n + 8 * nRows n ∧ (n ≤ 2 ^ 27 → needBytes P n < 2 ^ 64)

/-- R190, R193, R196, R199, R213: with no fault sampled, a DMA `TRANSMIT` issues every logical write of the frame, once
and in order, and answers `OK`; the chain and the image are in `DMEM` afterwards, no byte of `DMEM` beyond them and no
other state is changed, and the channel is reset. That `TICK` and `PH` are among the unchanged is the model's choice
(log 19). -/
def Obligations.DmaTransmitReplaysFrame : Prop :=
  ∀ s : State, s.Ready → s.strategy = .dma → s.params.Legal →
    needBytes s.params s.size.toNat ≤ s.params.dmaMemBytes → (s.chainBuilt = true → s.ChainIntact) →
    (∀ r, r < nRows s.size.toNat → s.faultSample r = false) →
    ∃ t, exec .transmit s = .next t ∧
      t.rsp = some (okRsp 0x04#8 0#32) ∧ t.phase = .locked ∧ t.busy = false ∧ t.txCount = s.txCount + 1#32 ∧
      t.physTrace = s.physTrace ++ s.frameOps (nRows s.size.toNat) ∧
      t.lines = linesAfter s.lines (s.frameOps (nRows s.size.toNat)) ∧
      t.dmacs = { active := false, ended := false, error := false } ∧ t.conblk = 0#32 ∧
      t.chainBuilt = true ∧ t.ChainIntact ∧ t.ImageIntact ∧
      (∀ a, a < s.params.dmaBase.toNat ∨ s.params.dmaBase.toNat + needBytes s.params s.size.toNat ≤ a →
        Memory.read t.dmem a = Memory.read s.dmem a) ∧
      t.dmaFaultIn = s.dmaFaultIn.drop (nRows s.size.toNat) ∧ t.drawNo = s.drawNo + nRows s.size.toNat ∧
      { t with
        rsp := s.rsp
        phase := s.phase
        busy := s.busy
        txCount := s.txCount
        physTrace := s.physTrace
        lines := s.lines
        dmacs := s.dmacs
        conblk := s.conblk
        srcp := s.srcp
        dstp := s.dstp
        rowCnt := s.rowCnt
        rowNo := s.rowNo
        subCause := s.subCause
        chainBuilt := s.chainBuilt
        ncb := s.ncb
        rowBase := s.rowBase
        dmem := s.dmem
        dmaFaultIn := s.dmaFaultIn
        drawNo := s.drawNo } = s

/-- R208, R211, 60_exceptions.md R320: when `dma_fault` is first sampled 1 before row `k`, exactly the rows before it are
output and `TRANSMIT` ends with `ERR_DMA`, sub-cause 6; the bus stays locked, the count stands (R211; log 12 for the words
of D41), the channel is reset; the chain and the image are in `DMEM`, no byte of `DMEM` beyond them and no other state is
changed. That `TICK` and `PH` are among the unchanged is the model's choice (log 19). -/
def Obligations.DmaFaultStopsFrame : Prop :=
  ∀ (s : State) (k : Nat), s.Ready → s.strategy = .dma → s.params.Legal →
    needBytes s.params s.size.toNat ≤ s.params.dmaMemBytes → (s.chainBuilt = true → s.ChainIntact) →
    k < nRows s.size.toNat → s.faultSample k = true → (∀ r, r < k → s.faultSample r = false) →
    ∃ t, exec .transmit s = .next t ∧
      t.rsp = some (errRsp 7#8 0x04#8 6#8) ∧ t.errFlags = s.errFlags ||| 0x0080#16 ∧ t.lastErr = 0x0607#16 ∧
      t.phase = .locked ∧ t.busy = false ∧
      t.physTrace = s.physTrace ++ s.frameOps k ∧ t.lines = linesAfter s.lines (s.frameOps k) ∧
      t.dmacs = { active := false, ended := false, error := false } ∧ t.conblk = 0#32 ∧
      t.chainBuilt = true ∧ t.ChainIntact ∧ t.ImageIntact ∧
      (∀ a, a < s.params.dmaBase.toNat ∨ s.params.dmaBase.toNat + needBytes s.params s.size.toNat ≤ a →
        Memory.read t.dmem a = Memory.read s.dmem a) ∧
      t.dmaFaultIn = s.dmaFaultIn.drop (k + 1) ∧ t.drawNo = s.drawNo + (k + 1) ∧
      { t with
        rsp := s.rsp
        errFlags := s.errFlags
        lastErr := s.lastErr
        phase := s.phase
        busy := s.busy
        physTrace := s.physTrace
        lines := s.lines
        dmacs := s.dmacs
        conblk := s.conblk
        srcp := s.srcp
        dstp := s.dstp
        rowCnt := s.rowCnt
        rowNo := s.rowNo
        subCause := s.subCause
        chainBuilt := s.chainBuilt
        ncb := s.ncb
        rowBase := s.rowBase
        dmem := s.dmem
        dmaFaultIn := s.dmaFaultIn
        drawNo := s.drawNo } = s

/-- R202, R203: whatever stands in `DMEM`, a control block at a bad address stops the sequencer with sub-cause 1, one
with a bad control or reserved word with sub-cause 2, one with a bad geometry with sub-cause 3, in this order, with no
output and with nothing loaded. And R210, R211, R199: how a stopped sequencer ends its `TRANSMIT`, for each of the six
sub-causes: `ERR_DMA`, bit 7 of `ERRFLAGS`, the sub-cause's code in `LASTERR[15:8]` and `RSP[23:16]`, the channel reset,
and nothing else changed, `TXCOUNT` included (R211; log 12 for the words of D41). -/
def Obligations.SequencerRejectsBadBlock : Prop :=
  ∀ s : State,
    let a := s.conblk.toNat
    let addrOk := a % 32 = 0 ∧ s.params.dmaBase.toNat ≤ a ∧ a + 32 ≤ s.params.dmaBase.toNat + s.params.dmaMemBytes
    let ctrlOk := s.memRead a = 1#32 ∧ s.memRead (a + 24) = 0#32 ∧ s.memRead (a + 28) = 0#32
    let rows := (s.memRead (a + 12)).extractLsb' 16 16
    let geomOk := (s.memRead (a + 12)).extractLsb' 0 16 = 8#16 ∧ rows ≠ 0#16 ∧ 8 * rows.toNat ≤ s.params.maxSpan
    let stopped := fun k => { s with dmacs := { s.dmacs with active := false, error := true }, subCause := k }
    (¬addrOk → s.runBlock = stopped .cbAddr) ∧
    (addrOk → ¬ctrlOk → s.runBlock = stopped .cbCtrl) ∧
    (addrOk → ctrlOk → ¬geomOk → s.runBlock = stopped .cbGeom) ∧
    (s.strategy = .dma → s.dmacs.active = false → s.dmacs.error = true → ∀ k : BitVec 8,
      (s.subCause, k) ∈
        [(SubCause.cbAddr, 1#8), (.cbCtrl, 2#8), (.cbGeom, 3#8), (.srcFault, 4#8), (.dstFault, 5#8), (.extFault, 6#8)] →
      s.finishTransmit = { s with
        busy := false
        dmacs := { active := false, ended := false, error := false }
        conblk := 0#32
        errFlags := s.errFlags ||| 0x0080#16
        lastErr := k ++ 0x07#8
        rsp := some (0#32 ++ 0#8 ++ k ++ 0x04#8 ++ 0x07#8) })

/-- R205, R207: one word transfer: the source address is checked first (sub-cause 4), then the destination (sub-cause 5); a
good transfer is one operation on the output port, and both pointers move on by 4 modulo 2^32. How `TRANSMIT` reports the
two sub-causes is in `SequencerRejectsBadBlock`. -/
def Obligations.WordTransferChecksAddresses : Prop :=
  ∀ s : State,
    let a := s.srcp.toNat
    let srcOk := a % 4 = 0 ∧ s.params.dmaBase.toNat ≤ a ∧ a + 4 ≤ s.params.dmaBase.toNat + s.params.dmaMemBytes
    let stopped := fun k => { s with dmacs := { s.dmacs with active := false, error := true }, subCause := k }
    let moved := fun op =>
      { s with
        lines := GpioOp.apply s.lines op
        physTrace := s.physTrace ++ [op]
        srcp := s.srcp + 4#32
        dstp := s.dstp + 4#32 }
    (¬srcOk → s.transferWord = stopped .srcFault) ∧
    (srcOk → s.dstp = s.params.gpioSetAddr → s.transferWord = moved (.set (s.memRead a))) ∧
    (srcOk → s.dstp = s.params.gpioSetAddr + 4#32 → s.transferWord = moved (.clr (s.memRead a))) ∧
    (srcOk → s.dstp ≠ s.params.gpioSetAddr → s.dstp ≠ s.params.gpioSetAddr + 4#32 →
      s.transferWord = stopped .dstFault)

/-- 20_memory.md R67: a word written to `DMEM` is stored least significant byte first and read back; every other byte
is as before. -/
def Obligations.DmemIsLittleEndian : Prop :=
  ∀ (m : List Host.Cell) (a : Nat) (v : Word),
    Memory.readWord (Memory.writeWord m a v) a = v ∧
    (∀ k, k < 4 → Memory.read (Memory.writeWord m a v) (a + k) = (v >>> (8 * k)).setWidth 8) ∧
    (∀ b, b < a ∨ a + 4 ≤ b → Memory.read (Memory.writeWord m a v) b = Memory.read m b) ∧
    Memory.readWord m a = Memory.read m (a + 3) ++ Memory.read m (a + 2) ++ Memory.read m (a + 1) ++ Memory.read m a
end

