-- ==== Sys2Proof/Laws/Memory.lean ====
section
/-! SUPPORT. The laws of sparse memory: a read after a write, the canonical form, little-endian words. None needs the
canonical form as a premise but the one that says a write keeps it. -/

namespace Sys2Proof.Machine

variable {w : Nat}

@[simp] theorem Memory.read_nil (a : Nat) : Memory.read ([] : List (Nat × BitVec w)) a = 0#w := rfl

theorem Memory.read_cons (b : Nat) (v : BitVec w) (m : List (Nat × BitVec w)) (a : Nat) :
    Memory.read ((b, v) :: m) a = if b = a then v else Memory.read m a := rfl

/-- An index that is not listed reads as 0. -/
theorem Memory.read_of_not_listed {m : List (Nat × BitVec w)} {a : Nat} (h : ∀ e ∈ m, e.1 ≠ a) :
    Memory.read m a = 0#w := by
  induction m with
  | nil => rfl
  | cons e m ih =>
    obtain ⟨b, v⟩ := e
    rw [Memory.read_cons, if_neg (h (b, v) (List.mem_cons_self ..)), ih fun e he => h e (List.mem_cons_of_mem _ he)]

/-- Reading in an appended list where the first part does not list the index. -/
theorem Memory.read_append_right {m n : List (Nat × BitVec w)} {a : Nat} (h : ∀ e ∈ m, e.1 ≠ a) :
    Memory.read (m ++ n) a = Memory.read n a := by
  induction m with
  | nil => rfl
  | cons e m ih =>
    obtain ⟨b, v⟩ := e
    rw [List.cons_append, Memory.read_cons, if_neg (h (b, v) (List.mem_cons_self ..)),
      ih fun e he => h e (List.mem_cons_of_mem _ he)]

/-- Reading in an appended list where the second part does not list the index. -/
theorem Memory.read_append_left {m n : List (Nat × BitVec w)} {a : Nat} (h : ∀ e ∈ n, e.1 ≠ a) :
    Memory.read (m ++ n) a = Memory.read m a := by
  induction m with
  | nil => rw [List.nil_append, Memory.read_of_not_listed h, Memory.read_nil]
  | cons e m ih =>
    obtain ⟨b, v⟩ := e
    rw [List.cons_append, Memory.read_cons, Memory.read_cons, ih]

/-- A filter on indexes does not change the reading of an index it lets through. -/
theorem Memory.read_filter (m : List (Nat × BitVec w)) (p : Nat → Bool) (a : Nat) :
    Memory.read (m.filter fun e => p e.1) a = if p a then Memory.read m a else 0#w := by
  induction m with
  | nil => simp
  | cons e m ih =>
    obtain ⟨b, v⟩ := e
    by_cases hb : p b
    · rw [List.filter_cons_of_pos (by simpa using hb), Memory.read_cons, ih, Memory.read_cons]
      by_cases hba : b = a
      · subst hba; simp [hb]
      · simp [hba]
    · rw [List.filter_cons_of_neg (by simpa using hb), ih, Memory.read_cons]
      by_cases hba : b = a
      · subst hba; simp [hb]
      · simp [hba]

/-- What a memory reads after a write: the value at the index written, every other index as before. -/
theorem Memory.read_write (m : List (Nat × BitVec w)) (a b : Nat) (v : BitVec w) :
    Memory.read (Memory.write m a v) b = if b = a then v else Memory.read m b := by
  have lo : ∀ c, Memory.read (m.filter fun e => e.1 < a) c = if c < a then Memory.read m c else 0#w := by
    intro c; simpa using Memory.read_filter m (fun x => decide (x < a)) c
  have hi : ∀ c, Memory.read (m.filter fun e => a < e.1) c = if a < c then Memory.read m c else 0#w := by
    intro c; simpa using Memory.read_filter m (fun x => decide (a < x)) c
  have mid : ∀ c, c ≠ a → ∀ e ∈ (if v = Memory.unlisted w then [] else [(a, v)] : List (Nat × BitVec w)), e.1 ≠ c := by
    intro c hc e he; split at he <;> simp_all [eq_comm]
  unfold Memory.write
  rcases Nat.lt_trichotomy b a with h | h | h
  · rw [Memory.read_append_left (n := m.filter _) (by simp; omega),
      Memory.read_append_left (mid b (by omega)), lo, if_pos h, if_neg (by omega)]
  · subst h
    rw [List.append_assoc, Memory.read_append_right (by simp; omega),
      Memory.read_append_left (n := m.filter _) (by simp; omega), if_pos rfl]
    split
    · next hv => rw [hv]; rfl
    · simp [Memory.read_cons]
  · rw [Memory.read_append_right (m := _ ++ _), hi, if_pos h, if_neg (by omega)]
    intro e he
    rcases List.mem_append.1 he with he | he
    · simp at he; omega
    · exact mid b (by omega) e he

theorem Memory.read_write_same (m : List (Nat × BitVec w)) (a : Nat) (v : BitVec w) :
    Memory.read (Memory.write m a v) a = v := by
  rw [Memory.read_write, if_pos rfl]

theorem Memory.read_write_other (m : List (Nat × BitVec w)) {a b : Nat} (v : BitVec w) (h : b ≠ a) :
    Memory.read (Memory.write m a v) b = Memory.read m b := by
  rw [Memory.read_write, if_neg h]

theorem Memory.read_below (m : List (Nat × BitVec w)) (n a : Nat) :
    Memory.read (Memory.below m n) a = if a < n then Memory.read m a else 0#w := by
  simpa [Memory.below] using Memory.read_filter m (fun x => decide (x < n)) a

/-! The canonical form. -/

theorem Memory.wf_iff (m : List (Nat × BitVec w)) :
    Memory.wf m = true ↔ m.Pairwise (fun x y => x.1 < y.1) ∧ ∀ e ∈ m, e.2 ≠ 0#w := by
  simp [Memory.wf, Memory.unlisted]

@[simp] theorem Memory.wf_nil : Memory.wf ([] : List (Nat × BitVec w)) = true := by
  simp [Memory.wf_iff]

/-- Dropping entries keeps the canonical form. -/
theorem Memory.wf_filter {m : List (Nat × BitVec w)} (p : Nat × BitVec w → Bool) (h : Memory.wf m = true) :
    Memory.wf (m.filter p) = true := by
  rw [Memory.wf_iff] at *
  exact ⟨h.1.filter p, fun e he => h.2 e (List.mem_filter.1 he).1⟩

/-- A write keeps the canonical form. -/
theorem Memory.wf_write {m : List (Nat × BitVec w)} (a : Nat) (v : BitVec w) (h : Memory.wf m = true) :
    Memory.wf (Memory.write m a v) = true := by
  have lo := (Memory.wf_iff _).1 (Memory.wf_filter (fun e => decide (e.1 < a)) h)
  have hi := (Memory.wf_iff _).1 (Memory.wf_filter (fun e => decide (a < e.1)) h)
  rw [Memory.wf_iff]
  unfold Memory.write
  constructor
  · rw [List.pairwise_append, List.pairwise_append]
    refine ⟨⟨lo.1, by split <;> simp, ?_⟩, hi.1, ?_⟩
    · intro x hx y hy
      split at hy <;> simp_all
    · intro x hx y hy
      simp only [List.mem_filter, decide_eq_true_eq] at hy
      rcases List.mem_append.1 hx with hx | hx
      · simp only [List.mem_filter, decide_eq_true_eq] at hx; omega
      · split at hx <;> simp_all
  · intro e he
    rcases List.mem_append.1 he with he | he
    · rcases List.mem_append.1 he with he | he
      · exact lo.2 e he
      · split at he <;> simp_all [Memory.unlisted]
    · exact hi.2 e he

/-- Truncation keeps the canonical form. -/
theorem Memory.wf_below {m : List (Nat × BitVec w)} (n : Nat) (h : Memory.wf m = true) :
    Memory.wf (Memory.below m n) = true := Memory.wf_filter _ h

/-- Every index a memory lists after a write is the one written or was listed before. -/
theorem Memory.listed_write {m : List (Nat × BitVec w)} {a : Nat} {v : BitVec w} {e : Nat × BitVec w}
    (h : e ∈ Memory.write m a v) : e = (a, v) ∨ e ∈ m := by
  unfold Memory.write at h
  rcases List.mem_append.1 h with h | h
  · rcases List.mem_append.1 h with h | h
    · exact .inr (List.mem_filter.1 h).1
    · split at h <;> simp_all
  · exact .inr (List.mem_filter.1 h).1

/-- Every entry a truncated memory lists was listed before, at an index below the bound. -/
theorem Memory.listed_below {m : List (Nat × BitVec w)} {n : Nat} {e : Nat × BitVec w} (h : e ∈ Memory.below m n) :
    e ∈ m ∧ e.1 < n := by
  simpa [Memory.below] using h

/-! Little-endian words (20_memory.md R67). -/

/-- What a byte of `DMEM` reads after a word write: one of the four bytes of the word, or as before. -/
theorem Memory.read_writeWord (m : List Host.Cell) (a b : Nat) (v : Word) :
    Memory.read (Memory.writeWord m a v) b =
      if b = a + 3 then v.extractLsb' 24 8 else if b = a + 2 then v.extractLsb' 16 8
      else if b = a + 1 then v.extractLsb' 8 8 else if b = a then v.extractLsb' 0 8 else Memory.read m b := by
  simp only [Memory.writeWord, Memory.read_write]

/-- A byte outside the four written reads as before. -/
theorem Memory.read_writeWord_other (m : List Host.Cell) {a b : Nat} (v : Word) (h : b < a ∨ a + 4 ≤ b) :
    Memory.read (Memory.writeWord m a v) b = Memory.read m b := by
  rw [Memory.read_writeWord, if_neg (by omega), if_neg (by omega), if_neg (by omega), if_neg (by omega)]

/-- The four bytes of a word put together are the word. -/
theorem word_of_bytes (v : Word) :
    (v.extractLsb' 24 8 ++ v.extractLsb' 16 8 ++ v.extractLsb' 8 8 ++ v.extractLsb' 0 8 : BitVec 32) = v := by
  apply BitVec.eq_of_getLsbD_eq
  intro i hi
  simp only [BitVec.getLsbD_append, BitVec.getLsbD_extractLsb']
  by_cases h0 : i < 8
  · simp [h0]
  by_cases h1 : i < 16
  · simp [h0, show i - 8 < 8 by omega, show 8 + (i - 8) = i by omega]
  by_cases h2 : i < 24
  · simp [h0, show ¬ i - 8 < 8 by omega, show i - 8 - 8 < 8 by omega, show 16 + (i - 8 - 8) = i by omega]
  · simp [h0, show ¬ i - 8 < 8 by omega, show ¬ i - 8 - 8 < 8 by omega, show i - 8 - 8 - 8 < 8 by omega,
      show 24 + (i - 8 - 8 - 8) = i by omega]

/-- A word read where it was written. -/
theorem Memory.readWord_writeWord_same (m : List Host.Cell) (a : Nat) (v : Word) :
    Memory.readWord (Memory.writeWord m a v) a = v := by
  unfold Memory.readWord
  simp only [Memory.read_writeWord]
  simpa using word_of_bytes v

/-- A word read apart from the one written. -/
theorem Memory.readWord_writeWord_other (m : List Host.Cell) {a b : Nat} (v : Word) (h : b + 4 ≤ a ∨ a + 4 ≤ b) :
    Memory.readWord (Memory.writeWord m a v) b = Memory.readWord m b := by
  unfold Memory.readWord
  rw [Memory.read_writeWord_other _ _ (by omega), Memory.read_writeWord_other _ _ (by omega),
    Memory.read_writeWord_other _ _ (by omega), Memory.read_writeWord_other _ _ (by omega)]

/-- A word write keeps the canonical form. -/
theorem Memory.wf_writeWord {m : List Host.Cell} (a : Nat) (v : Word) (h : Memory.wf m = true) :
    Memory.wf (Memory.writeWord m a v) = true :=
  Memory.wf_write _ _ (Memory.wf_write _ _ (Memory.wf_write _ _ (Memory.wf_write _ _ h)))

/-- Every byte listed after a word write is one of the four written or was listed before. -/
theorem Memory.listed_writeWord {m : List Host.Cell} {a : Nat} {v : Word} {e : Host.Cell}
    (h : e ∈ Memory.writeWord m a v) : (a ≤ e.1 ∧ e.1 < a + 4) ∨ e ∈ m := by
  unfold Memory.writeWord at h
  rcases Memory.listed_write h with rfl | h
  · left; simp
  rcases Memory.listed_write h with rfl | h
  · left; simp
  rcases Memory.listed_write h with rfl | h
  · left; simp
  rcases Memory.listed_write h with rfl | h
  · left; simp
  exact .inr h

end Sys2Proof.Machine
end

