-- ==== Sys2Proof/Laws/State.lean ====
section
/-! SUPPORT. One lemma for each field of the state and each named update of it, so that no proof unfolds a record
update. -/

namespace Sys2Proof.Machine

variable (s : State)

/-! `Respond(OK, value)` -/

@[simp] theorem State.respond_params (opc : BitVec 8) (v : Word) : (s.respond opc v).params = s.params := rfl
@[simp] theorem State.respond_phase (opc : BitVec 8) (v : Word) : (s.respond opc v).phase = s.phase := rfl
@[simp] theorem State.respond_fatal (opc : BitVec 8) (v : Word) : (s.respond opc v).fatal = s.fatal := rfl
@[simp] theorem State.respond_busy (opc : BitVec 8) (v : Word) : (s.respond opc v).busy = s.busy := rfl
@[simp] theorem State.respond_clkPin (opc : BitVec 8) (v : Word) : (s.respond opc v).clkPin = s.clkPin := rfl
@[simp] theorem State.respond_strategy (opc : BitVec 8) (v : Word) : (s.respond opc v).strategy = s.strategy := rfl
@[simp] theorem State.respond_freq (opc : BitVec 8) (v : Word) : (s.respond opc v).freq = s.freq := rfl
@[simp] theorem State.respond_dataMask (opc : BitVec 8) (v : Word) : (s.respond opc v).dataMask = s.dataMask := rfl
@[simp] theorem State.respond_size (opc : BitVec 8) (v : Word) : (s.respond opc v).size = s.size := rfl
@[simp] theorem State.respond_plane (opc : BitVec 8) (v : Word) : (s.respond opc v).plane = s.plane := rfl
@[simp] theorem State.respond_calDone (opc : BitVec 8) (v : Word) : (s.respond opc v).calDone = s.calDone := rfl
@[simp] theorem State.respond_calRep (opc : BitVec 8) (v : Word) : (s.respond opc v).calRep = s.calRep := rfl
@[simp] theorem State.respond_calBusy (opc : BitVec 8) (v : Word) : (s.respond opc v).calBusy = s.calBusy := rfl
@[simp] theorem State.respond_errFlags (opc : BitVec 8) (v : Word) : (s.respond opc v).errFlags = s.errFlags := rfl
@[simp] theorem State.respond_lastErr (opc : BitVec 8) (v : Word) : (s.respond opc v).lastErr = s.lastErr := rfl
@[simp] theorem State.respond_txCount (opc : BitVec 8) (v : Word) : (s.respond opc v).txCount = s.txCount := rfl
@[simp] theorem State.respond_strips (opc : BitVec 8) (v : Word) : (s.respond opc v).strips = s.strips := rfl
@[simp] theorem State.respond_tick (opc : BitVec 8) (v : Word) : (s.respond opc v).tick = s.tick := rfl
@[simp] theorem State.respond_ph (opc : BitVec 8) (v : Word) : (s.respond opc v).ph = s.ph := rfl
@[simp] theorem State.respond_dmacs (opc : BitVec 8) (v : Word) : (s.respond opc v).dmacs = s.dmacs := rfl
@[simp] theorem State.respond_conblk (opc : BitVec 8) (v : Word) : (s.respond opc v).conblk = s.conblk := rfl
@[simp] theorem State.respond_srcp (opc : BitVec 8) (v : Word) : (s.respond opc v).srcp = s.srcp := rfl
@[simp] theorem State.respond_dstp (opc : BitVec 8) (v : Word) : (s.respond opc v).dstp = s.dstp := rfl
@[simp] theorem State.respond_rowCnt (opc : BitVec 8) (v : Word) : (s.respond opc v).rowCnt = s.rowCnt := rfl
@[simp] theorem State.respond_rowNo (opc : BitVec 8) (v : Word) : (s.respond opc v).rowNo = s.rowNo := rfl
@[simp] theorem State.respond_subCause (opc : BitVec 8) (v : Word) : (s.respond opc v).subCause = s.subCause := rfl
@[simp] theorem State.respond_chainBuilt (opc : BitVec 8) (v : Word) : (s.respond opc v).chainBuilt = s.chainBuilt := rfl
@[simp] theorem State.respond_ncb (opc : BitVec 8) (v : Word) : (s.respond opc v).ncb = s.ncb := rfl
@[simp] theorem State.respond_rowBase (opc : BitVec 8) (v : Word) : (s.respond opc v).rowBase = s.rowBase := rfl
@[simp] theorem State.respond_dmem (opc : BitVec 8) (v : Word) : (s.respond opc v).dmem = s.dmem := rfl
@[simp] theorem State.respond_rsp (opc : BitVec 8) (v : Word) : (s.respond opc v).rsp = some (rspOf okCode opc .none v) := rfl
@[simp] theorem State.respond_lines (opc : BitVec 8) (v : Word) : (s.respond opc v).lines = s.lines := rfl
@[simp] theorem State.respond_physTrace (opc : BitVec 8) (v : Word) : (s.respond opc v).physTrace = s.physTrace := rfl
@[simp] theorem State.respond_outPins (opc : BitVec 8) (v : Word) : (s.respond opc v).outPins = s.outPins := rfl
@[simp] theorem State.respond_outenTrace (opc : BitVec 8) (v : Word) : (s.respond opc v).outenTrace = s.outenTrace := rfl
@[simp] theorem State.respond_hostIn (opc : BitVec 8) (v : Word) : (s.respond opc v).hostIn = s.hostIn := rfl
@[simp] theorem State.respond_timeIn (opc : BitVec 8) (v : Word) : (s.respond opc v).timeIn = s.timeIn := rfl
@[simp] theorem State.respond_dmaFaultIn (opc : BitVec 8) (v : Word) : (s.respond opc v).dmaFaultIn = s.dmaFaultIn := rfl
@[simp] theorem State.respond_drawNo (opc : BitVec 8) (v : Word) : (s.respond opc v).drawNo = s.drawNo := rfl

/-! `raise Err(code)` -/

@[simp] theorem State.raise_params (opc : BitVec 8) (e : Err) (sub : SubCause) : (s.raise opc e sub).params = s.params := rfl
@[simp] theorem State.raise_phase (opc : BitVec 8) (e : Err) (sub : SubCause) : (s.raise opc e sub).phase = s.phase := rfl
@[simp] theorem State.raise_fatal (opc : BitVec 8) (e : Err) (sub : SubCause) : (s.raise opc e sub).fatal = s.fatal := rfl
@[simp] theorem State.raise_busy (opc : BitVec 8) (e : Err) (sub : SubCause) : (s.raise opc e sub).busy = s.busy := rfl
@[simp] theorem State.raise_clkPin (opc : BitVec 8) (e : Err) (sub : SubCause) : (s.raise opc e sub).clkPin = s.clkPin := rfl
@[simp] theorem State.raise_strategy (opc : BitVec 8) (e : Err) (sub : SubCause) : (s.raise opc e sub).strategy = s.strategy := rfl
@[simp] theorem State.raise_freq (opc : BitVec 8) (e : Err) (sub : SubCause) : (s.raise opc e sub).freq = s.freq := rfl
@[simp] theorem State.raise_dataMask (opc : BitVec 8) (e : Err) (sub : SubCause) : (s.raise opc e sub).dataMask = s.dataMask := rfl
@[simp] theorem State.raise_size (opc : BitVec 8) (e : Err) (sub : SubCause) : (s.raise opc e sub).size = s.size := rfl
@[simp] theorem State.raise_plane (opc : BitVec 8) (e : Err) (sub : SubCause) : (s.raise opc e sub).plane = s.plane := rfl
@[simp] theorem State.raise_calDone (opc : BitVec 8) (e : Err) (sub : SubCause) : (s.raise opc e sub).calDone = s.calDone := rfl
@[simp] theorem State.raise_calRep (opc : BitVec 8) (e : Err) (sub : SubCause) : (s.raise opc e sub).calRep = s.calRep := rfl
@[simp] theorem State.raise_calBusy (opc : BitVec 8) (e : Err) (sub : SubCause) : (s.raise opc e sub).calBusy = s.calBusy := rfl
@[simp] theorem State.raise_errFlags (opc : BitVec 8) (e : Err) (sub : SubCause) : (s.raise opc e sub).errFlags = s.errFlags ||| e.flag := rfl
@[simp] theorem State.raise_lastErr (opc : BitVec 8) (e : Err) (sub : SubCause) : (s.raise opc e sub).lastErr = lastErrOf e sub := rfl
@[simp] theorem State.raise_txCount (opc : BitVec 8) (e : Err) (sub : SubCause) : (s.raise opc e sub).txCount = s.txCount := rfl
@[simp] theorem State.raise_strips (opc : BitVec 8) (e : Err) (sub : SubCause) : (s.raise opc e sub).strips = s.strips := rfl
@[simp] theorem State.raise_tick (opc : BitVec 8) (e : Err) (sub : SubCause) : (s.raise opc e sub).tick = s.tick := rfl
@[simp] theorem State.raise_ph (opc : BitVec 8) (e : Err) (sub : SubCause) : (s.raise opc e sub).ph = s.ph := rfl
@[simp] theorem State.raise_dmacs (opc : BitVec 8) (e : Err) (sub : SubCause) : (s.raise opc e sub).dmacs = s.dmacs := rfl
@[simp] theorem State.raise_conblk (opc : BitVec 8) (e : Err) (sub : SubCause) : (s.raise opc e sub).conblk = s.conblk := rfl
@[simp] theorem State.raise_srcp (opc : BitVec 8) (e : Err) (sub : SubCause) : (s.raise opc e sub).srcp = s.srcp := rfl
@[simp] theorem State.raise_dstp (opc : BitVec 8) (e : Err) (sub : SubCause) : (s.raise opc e sub).dstp = s.dstp := rfl
@[simp] theorem State.raise_rowCnt (opc : BitVec 8) (e : Err) (sub : SubCause) : (s.raise opc e sub).rowCnt = s.rowCnt := rfl
@[simp] theorem State.raise_rowNo (opc : BitVec 8) (e : Err) (sub : SubCause) : (s.raise opc e sub).rowNo = s.rowNo := rfl
@[simp] theorem State.raise_subCause (opc : BitVec 8) (e : Err) (sub : SubCause) : (s.raise opc e sub).subCause = s.subCause := rfl
@[simp] theorem State.raise_chainBuilt (opc : BitVec 8) (e : Err) (sub : SubCause) : (s.raise opc e sub).chainBuilt = s.chainBuilt := rfl
@[simp] theorem State.raise_ncb (opc : BitVec 8) (e : Err) (sub : SubCause) : (s.raise opc e sub).ncb = s.ncb := rfl
@[simp] theorem State.raise_rowBase (opc : BitVec 8) (e : Err) (sub : SubCause) : (s.raise opc e sub).rowBase = s.rowBase := rfl
@[simp] theorem State.raise_dmem (opc : BitVec 8) (e : Err) (sub : SubCause) : (s.raise opc e sub).dmem = s.dmem := rfl
@[simp] theorem State.raise_rsp (opc : BitVec 8) (e : Err) (sub : SubCause) : (s.raise opc e sub).rsp = some (rspOf e.code opc sub 0#32) := rfl
@[simp] theorem State.raise_lines (opc : BitVec 8) (e : Err) (sub : SubCause) : (s.raise opc e sub).lines = s.lines := rfl
@[simp] theorem State.raise_physTrace (opc : BitVec 8) (e : Err) (sub : SubCause) : (s.raise opc e sub).physTrace = s.physTrace := rfl
@[simp] theorem State.raise_outPins (opc : BitVec 8) (e : Err) (sub : SubCause) : (s.raise opc e sub).outPins = s.outPins := rfl
@[simp] theorem State.raise_outenTrace (opc : BitVec 8) (e : Err) (sub : SubCause) : (s.raise opc e sub).outenTrace = s.outenTrace := rfl
@[simp] theorem State.raise_hostIn (opc : BitVec 8) (e : Err) (sub : SubCause) : (s.raise opc e sub).hostIn = s.hostIn := rfl
@[simp] theorem State.raise_timeIn (opc : BitVec 8) (e : Err) (sub : SubCause) : (s.raise opc e sub).timeIn = s.timeIn := rfl
@[simp] theorem State.raise_dmaFaultIn (opc : BitVec 8) (e : Err) (sub : SubCause) : (s.raise opc e sub).dmaFaultIn = s.dmaFaultIn := rfl
@[simp] theorem State.raise_drawNo (opc : BitVec 8) (e : Err) (sub : SubCause) : (s.raise opc e sub).drawNo = s.drawNo := rfl

/-! An output-enable request -/

@[simp] theorem State.requestOutput_params (p : Pin) : (s.requestOutput p).params = s.params := rfl
@[simp] theorem State.requestOutput_phase (p : Pin) : (s.requestOutput p).phase = s.phase := rfl
@[simp] theorem State.requestOutput_fatal (p : Pin) : (s.requestOutput p).fatal = s.fatal := rfl
@[simp] theorem State.requestOutput_busy (p : Pin) : (s.requestOutput p).busy = s.busy := rfl
@[simp] theorem State.requestOutput_clkPin (p : Pin) : (s.requestOutput p).clkPin = s.clkPin := rfl
@[simp] theorem State.requestOutput_strategy (p : Pin) : (s.requestOutput p).strategy = s.strategy := rfl
@[simp] theorem State.requestOutput_freq (p : Pin) : (s.requestOutput p).freq = s.freq := rfl
@[simp] theorem State.requestOutput_dataMask (p : Pin) : (s.requestOutput p).dataMask = s.dataMask := rfl
@[simp] theorem State.requestOutput_size (p : Pin) : (s.requestOutput p).size = s.size := rfl
@[simp] theorem State.requestOutput_plane (p : Pin) : (s.requestOutput p).plane = s.plane := rfl
@[simp] theorem State.requestOutput_calDone (p : Pin) : (s.requestOutput p).calDone = s.calDone := rfl
@[simp] theorem State.requestOutput_calRep (p : Pin) : (s.requestOutput p).calRep = s.calRep := rfl
@[simp] theorem State.requestOutput_calBusy (p : Pin) : (s.requestOutput p).calBusy = s.calBusy := rfl
@[simp] theorem State.requestOutput_errFlags (p : Pin) : (s.requestOutput p).errFlags = s.errFlags := rfl
@[simp] theorem State.requestOutput_lastErr (p : Pin) : (s.requestOutput p).lastErr = s.lastErr := rfl
@[simp] theorem State.requestOutput_txCount (p : Pin) : (s.requestOutput p).txCount = s.txCount := rfl
@[simp] theorem State.requestOutput_strips (p : Pin) : (s.requestOutput p).strips = s.strips := rfl
@[simp] theorem State.requestOutput_tick (p : Pin) : (s.requestOutput p).tick = s.tick := rfl
@[simp] theorem State.requestOutput_ph (p : Pin) : (s.requestOutput p).ph = s.ph := rfl
@[simp] theorem State.requestOutput_dmacs (p : Pin) : (s.requestOutput p).dmacs = s.dmacs := rfl
@[simp] theorem State.requestOutput_conblk (p : Pin) : (s.requestOutput p).conblk = s.conblk := rfl
@[simp] theorem State.requestOutput_srcp (p : Pin) : (s.requestOutput p).srcp = s.srcp := rfl
@[simp] theorem State.requestOutput_dstp (p : Pin) : (s.requestOutput p).dstp = s.dstp := rfl
@[simp] theorem State.requestOutput_rowCnt (p : Pin) : (s.requestOutput p).rowCnt = s.rowCnt := rfl
@[simp] theorem State.requestOutput_rowNo (p : Pin) : (s.requestOutput p).rowNo = s.rowNo := rfl
@[simp] theorem State.requestOutput_subCause (p : Pin) : (s.requestOutput p).subCause = s.subCause := rfl
@[simp] theorem State.requestOutput_chainBuilt (p : Pin) : (s.requestOutput p).chainBuilt = s.chainBuilt := rfl
@[simp] theorem State.requestOutput_ncb (p : Pin) : (s.requestOutput p).ncb = s.ncb := rfl
@[simp] theorem State.requestOutput_rowBase (p : Pin) : (s.requestOutput p).rowBase = s.rowBase := rfl
@[simp] theorem State.requestOutput_dmem (p : Pin) : (s.requestOutput p).dmem = s.dmem := rfl
@[simp] theorem State.requestOutput_rsp (p : Pin) : (s.requestOutput p).rsp = s.rsp := rfl
@[simp] theorem State.requestOutput_lines (p : Pin) : (s.requestOutput p).lines = s.lines := rfl
@[simp] theorem State.requestOutput_physTrace (p : Pin) : (s.requestOutput p).physTrace = s.physTrace := rfl
@[simp] theorem State.requestOutput_outPins (p : Pin) : (s.requestOutput p).outPins = s.outPins ||| pinBit p := rfl
@[simp] theorem State.requestOutput_outenTrace (p : Pin) : (s.requestOutput p).outenTrace = s.outenTrace ++ [p] := rfl
@[simp] theorem State.requestOutput_hostIn (p : Pin) : (s.requestOutput p).hostIn = s.hostIn := rfl
@[simp] theorem State.requestOutput_timeIn (p : Pin) : (s.requestOutput p).timeIn = s.timeIn := rfl
@[simp] theorem State.requestOutput_dmaFaultIn (p : Pin) : (s.requestOutput p).dmaFaultIn = s.dmaFaultIn := rfl
@[simp] theorem State.requestOutput_drawNo (p : Pin) : (s.requestOutput p).drawNo = s.drawNo := rfl

/-! `STRIP[p] <- S` -/

@[simp] theorem State.setStrip_params (p : Pin) (S : Strip) : (s.setStrip p S).params = s.params := rfl
@[simp] theorem State.setStrip_phase (p : Pin) (S : Strip) : (s.setStrip p S).phase = s.phase := rfl
@[simp] theorem State.setStrip_fatal (p : Pin) (S : Strip) : (s.setStrip p S).fatal = s.fatal := rfl
@[simp] theorem State.setStrip_busy (p : Pin) (S : Strip) : (s.setStrip p S).busy = s.busy := rfl
@[simp] theorem State.setStrip_clkPin (p : Pin) (S : Strip) : (s.setStrip p S).clkPin = s.clkPin := rfl
@[simp] theorem State.setStrip_strategy (p : Pin) (S : Strip) : (s.setStrip p S).strategy = s.strategy := rfl
@[simp] theorem State.setStrip_freq (p : Pin) (S : Strip) : (s.setStrip p S).freq = s.freq := rfl
@[simp] theorem State.setStrip_dataMask (p : Pin) (S : Strip) : (s.setStrip p S).dataMask = s.dataMask := rfl
@[simp] theorem State.setStrip_size (p : Pin) (S : Strip) : (s.setStrip p S).size = s.size := rfl
@[simp] theorem State.setStrip_plane (p : Pin) (S : Strip) : (s.setStrip p S).plane = s.plane := rfl
@[simp] theorem State.setStrip_calDone (p : Pin) (S : Strip) : (s.setStrip p S).calDone = s.calDone := rfl
@[simp] theorem State.setStrip_calRep (p : Pin) (S : Strip) : (s.setStrip p S).calRep = s.calRep := rfl
@[simp] theorem State.setStrip_calBusy (p : Pin) (S : Strip) : (s.setStrip p S).calBusy = s.calBusy := rfl
@[simp] theorem State.setStrip_errFlags (p : Pin) (S : Strip) : (s.setStrip p S).errFlags = s.errFlags := rfl
@[simp] theorem State.setStrip_lastErr (p : Pin) (S : Strip) : (s.setStrip p S).lastErr = s.lastErr := rfl
@[simp] theorem State.setStrip_txCount (p : Pin) (S : Strip) : (s.setStrip p S).txCount = s.txCount := rfl
@[simp] theorem State.setStrip_strips (p : Pin) (S : Strip) : (s.setStrip p S).strips = s.strips.set p.toNat S p.isLt := rfl
@[simp] theorem State.setStrip_tick (p : Pin) (S : Strip) : (s.setStrip p S).tick = s.tick := rfl
@[simp] theorem State.setStrip_ph (p : Pin) (S : Strip) : (s.setStrip p S).ph = s.ph := rfl
@[simp] theorem State.setStrip_dmacs (p : Pin) (S : Strip) : (s.setStrip p S).dmacs = s.dmacs := rfl
@[simp] theorem State.setStrip_conblk (p : Pin) (S : Strip) : (s.setStrip p S).conblk = s.conblk := rfl
@[simp] theorem State.setStrip_srcp (p : Pin) (S : Strip) : (s.setStrip p S).srcp = s.srcp := rfl
@[simp] theorem State.setStrip_dstp (p : Pin) (S : Strip) : (s.setStrip p S).dstp = s.dstp := rfl
@[simp] theorem State.setStrip_rowCnt (p : Pin) (S : Strip) : (s.setStrip p S).rowCnt = s.rowCnt := rfl
@[simp] theorem State.setStrip_rowNo (p : Pin) (S : Strip) : (s.setStrip p S).rowNo = s.rowNo := rfl
@[simp] theorem State.setStrip_subCause (p : Pin) (S : Strip) : (s.setStrip p S).subCause = s.subCause := rfl
@[simp] theorem State.setStrip_chainBuilt (p : Pin) (S : Strip) : (s.setStrip p S).chainBuilt = s.chainBuilt := rfl
@[simp] theorem State.setStrip_ncb (p : Pin) (S : Strip) : (s.setStrip p S).ncb = s.ncb := rfl
@[simp] theorem State.setStrip_rowBase (p : Pin) (S : Strip) : (s.setStrip p S).rowBase = s.rowBase := rfl
@[simp] theorem State.setStrip_dmem (p : Pin) (S : Strip) : (s.setStrip p S).dmem = s.dmem := rfl
@[simp] theorem State.setStrip_rsp (p : Pin) (S : Strip) : (s.setStrip p S).rsp = s.rsp := rfl
@[simp] theorem State.setStrip_lines (p : Pin) (S : Strip) : (s.setStrip p S).lines = s.lines := rfl
@[simp] theorem State.setStrip_physTrace (p : Pin) (S : Strip) : (s.setStrip p S).physTrace = s.physTrace := rfl
@[simp] theorem State.setStrip_outPins (p : Pin) (S : Strip) : (s.setStrip p S).outPins = s.outPins := rfl
@[simp] theorem State.setStrip_outenTrace (p : Pin) (S : Strip) : (s.setStrip p S).outenTrace = s.outenTrace := rfl
@[simp] theorem State.setStrip_hostIn (p : Pin) (S : Strip) : (s.setStrip p S).hostIn = s.hostIn := rfl
@[simp] theorem State.setStrip_timeIn (p : Pin) (S : Strip) : (s.setStrip p S).timeIn = s.timeIn := rfl
@[simp] theorem State.setStrip_dmaFaultIn (p : Pin) (S : Strip) : (s.setStrip p S).dmaFaultIn = s.dmaFaultIn := rfl
@[simp] theorem State.setStrip_drawNo (p : Pin) (S : Strip) : (s.setStrip p S).drawNo = s.drawNo := rfl

/-! Output operations -/

@[simp] theorem State.issue_params (ops : List GpioOp) : (s.issue ops).params = s.params := rfl
@[simp] theorem State.issue_phase (ops : List GpioOp) : (s.issue ops).phase = s.phase := rfl
@[simp] theorem State.issue_fatal (ops : List GpioOp) : (s.issue ops).fatal = s.fatal := rfl
@[simp] theorem State.issue_busy (ops : List GpioOp) : (s.issue ops).busy = s.busy := rfl
@[simp] theorem State.issue_clkPin (ops : List GpioOp) : (s.issue ops).clkPin = s.clkPin := rfl
@[simp] theorem State.issue_strategy (ops : List GpioOp) : (s.issue ops).strategy = s.strategy := rfl
@[simp] theorem State.issue_freq (ops : List GpioOp) : (s.issue ops).freq = s.freq := rfl
@[simp] theorem State.issue_dataMask (ops : List GpioOp) : (s.issue ops).dataMask = s.dataMask := rfl
@[simp] theorem State.issue_size (ops : List GpioOp) : (s.issue ops).size = s.size := rfl
@[simp] theorem State.issue_plane (ops : List GpioOp) : (s.issue ops).plane = s.plane := rfl
@[simp] theorem State.issue_calDone (ops : List GpioOp) : (s.issue ops).calDone = s.calDone := rfl
@[simp] theorem State.issue_calRep (ops : List GpioOp) : (s.issue ops).calRep = s.calRep := rfl
@[simp] theorem State.issue_calBusy (ops : List GpioOp) : (s.issue ops).calBusy = s.calBusy := rfl
@[simp] theorem State.issue_errFlags (ops : List GpioOp) : (s.issue ops).errFlags = s.errFlags := rfl
@[simp] theorem State.issue_lastErr (ops : List GpioOp) : (s.issue ops).lastErr = s.lastErr := rfl
@[simp] theorem State.issue_txCount (ops : List GpioOp) : (s.issue ops).txCount = s.txCount := rfl
@[simp] theorem State.issue_strips (ops : List GpioOp) : (s.issue ops).strips = s.strips := rfl
@[simp] theorem State.issue_tick (ops : List GpioOp) : (s.issue ops).tick = s.tick := rfl
@[simp] theorem State.issue_ph (ops : List GpioOp) : (s.issue ops).ph = s.ph := rfl
@[simp] theorem State.issue_dmacs (ops : List GpioOp) : (s.issue ops).dmacs = s.dmacs := rfl
@[simp] theorem State.issue_conblk (ops : List GpioOp) : (s.issue ops).conblk = s.conblk := rfl
@[simp] theorem State.issue_srcp (ops : List GpioOp) : (s.issue ops).srcp = s.srcp := rfl
@[simp] theorem State.issue_dstp (ops : List GpioOp) : (s.issue ops).dstp = s.dstp := rfl
@[simp] theorem State.issue_rowCnt (ops : List GpioOp) : (s.issue ops).rowCnt = s.rowCnt := rfl
@[simp] theorem State.issue_rowNo (ops : List GpioOp) : (s.issue ops).rowNo = s.rowNo := rfl
@[simp] theorem State.issue_subCause (ops : List GpioOp) : (s.issue ops).subCause = s.subCause := rfl
@[simp] theorem State.issue_chainBuilt (ops : List GpioOp) : (s.issue ops).chainBuilt = s.chainBuilt := rfl
@[simp] theorem State.issue_ncb (ops : List GpioOp) : (s.issue ops).ncb = s.ncb := rfl
@[simp] theorem State.issue_rowBase (ops : List GpioOp) : (s.issue ops).rowBase = s.rowBase := rfl
@[simp] theorem State.issue_dmem (ops : List GpioOp) : (s.issue ops).dmem = s.dmem := rfl
@[simp] theorem State.issue_rsp (ops : List GpioOp) : (s.issue ops).rsp = s.rsp := rfl
@[simp] theorem State.issue_lines (ops : List GpioOp) : (s.issue ops).lines = linesAfter s.lines ops := rfl
@[simp] theorem State.issue_physTrace (ops : List GpioOp) : (s.issue ops).physTrace = s.physTrace ++ ops := rfl
@[simp] theorem State.issue_outPins (ops : List GpioOp) : (s.issue ops).outPins = s.outPins := rfl
@[simp] theorem State.issue_outenTrace (ops : List GpioOp) : (s.issue ops).outenTrace = s.outenTrace := rfl
@[simp] theorem State.issue_hostIn (ops : List GpioOp) : (s.issue ops).hostIn = s.hostIn := rfl
@[simp] theorem State.issue_timeIn (ops : List GpioOp) : (s.issue ops).timeIn = s.timeIn := rfl
@[simp] theorem State.issue_dmaFaultIn (ops : List GpioOp) : (s.issue ops).dmaFaultIn = s.dmaFaultIn := rfl
@[simp] theorem State.issue_drawNo (ops : List GpioOp) : (s.issue ops).drawNo = s.drawNo := rfl

/-! The effect of `BUSCFG` -/

@[simp] theorem State.configure_params (p : Pin) (st : Strategy) (f : Word) : (s.configure p st f).params = s.params := rfl
@[simp] theorem State.configure_phase (p : Pin) (st : Strategy) (f : Word) : (s.configure p st f).phase = .opened := rfl
@[simp] theorem State.configure_fatal (p : Pin) (st : Strategy) (f : Word) : (s.configure p st f).fatal = s.fatal := rfl
@[simp] theorem State.configure_busy (p : Pin) (st : Strategy) (f : Word) : (s.configure p st f).busy = s.busy := rfl
@[simp] theorem State.configure_clkPin (p : Pin) (st : Strategy) (f : Word) : (s.configure p st f).clkPin = p := rfl
@[simp] theorem State.configure_strategy (p : Pin) (st : Strategy) (f : Word) : (s.configure p st f).strategy = st := rfl
@[simp] theorem State.configure_freq (p : Pin) (st : Strategy) (f : Word) : (s.configure p st f).freq = f := rfl
@[simp] theorem State.configure_dataMask (p : Pin) (st : Strategy) (f : Word) : (s.configure p st f).dataMask = s.dataMask := rfl
@[simp] theorem State.configure_size (p : Pin) (st : Strategy) (f : Word) : (s.configure p st f).size = s.size := rfl
@[simp] theorem State.configure_plane (p : Pin) (st : Strategy) (f : Word) : (s.configure p st f).plane = s.plane := rfl
@[simp] theorem State.configure_calDone (p : Pin) (st : Strategy) (f : Word) : (s.configure p st f).calDone = s.calDone := rfl
@[simp] theorem State.configure_calRep (p : Pin) (st : Strategy) (f : Word) : (s.configure p st f).calRep = s.calRep := rfl
@[simp] theorem State.configure_calBusy (p : Pin) (st : Strategy) (f : Word) : (s.configure p st f).calBusy = s.calBusy := rfl
@[simp] theorem State.configure_errFlags (p : Pin) (st : Strategy) (f : Word) : (s.configure p st f).errFlags = s.errFlags := rfl
@[simp] theorem State.configure_lastErr (p : Pin) (st : Strategy) (f : Word) : (s.configure p st f).lastErr = s.lastErr := rfl
@[simp] theorem State.configure_txCount (p : Pin) (st : Strategy) (f : Word) : (s.configure p st f).txCount = s.txCount := rfl
@[simp] theorem State.configure_strips (p : Pin) (st : Strategy) (f : Word) : (s.configure p st f).strips = s.strips := rfl
@[simp] theorem State.configure_tick (p : Pin) (st : Strategy) (f : Word) : (s.configure p st f).tick = s.tick := rfl
@[simp] theorem State.configure_ph (p : Pin) (st : Strategy) (f : Word) : (s.configure p st f).ph = s.ph := rfl
@[simp] theorem State.configure_dmacs (p : Pin) (st : Strategy) (f : Word) : (s.configure p st f).dmacs = s.dmacs := rfl
@[simp] theorem State.configure_conblk (p : Pin) (st : Strategy) (f : Word) : (s.configure p st f).conblk = s.conblk := rfl
@[simp] theorem State.configure_srcp (p : Pin) (st : Strategy) (f : Word) : (s.configure p st f).srcp = s.srcp := rfl
@[simp] theorem State.configure_dstp (p : Pin) (st : Strategy) (f : Word) : (s.configure p st f).dstp = s.dstp := rfl
@[simp] theorem State.configure_rowCnt (p : Pin) (st : Strategy) (f : Word) : (s.configure p st f).rowCnt = s.rowCnt := rfl
@[simp] theorem State.configure_rowNo (p : Pin) (st : Strategy) (f : Word) : (s.configure p st f).rowNo = s.rowNo := rfl
@[simp] theorem State.configure_subCause (p : Pin) (st : Strategy) (f : Word) : (s.configure p st f).subCause = s.subCause := rfl
@[simp] theorem State.configure_chainBuilt (p : Pin) (st : Strategy) (f : Word) : (s.configure p st f).chainBuilt = s.chainBuilt := rfl
@[simp] theorem State.configure_ncb (p : Pin) (st : Strategy) (f : Word) : (s.configure p st f).ncb = s.ncb := rfl
@[simp] theorem State.configure_rowBase (p : Pin) (st : Strategy) (f : Word) : (s.configure p st f).rowBase = s.rowBase := rfl
@[simp] theorem State.configure_dmem (p : Pin) (st : Strategy) (f : Word) : (s.configure p st f).dmem = s.dmem := rfl
@[simp] theorem State.configure_rsp (p : Pin) (st : Strategy) (f : Word) : (s.configure p st f).rsp = s.rsp := rfl
@[simp] theorem State.configure_lines (p : Pin) (st : Strategy) (f : Word) : (s.configure p st f).lines = s.lines := rfl
@[simp] theorem State.configure_physTrace (p : Pin) (st : Strategy) (f : Word) : (s.configure p st f).physTrace = s.physTrace := rfl
@[simp] theorem State.configure_outPins (p : Pin) (st : Strategy) (f : Word) : (s.configure p st f).outPins = s.outPins ||| pinBit p := rfl
@[simp] theorem State.configure_outenTrace (p : Pin) (st : Strategy) (f : Word) : (s.configure p st f).outenTrace = s.outenTrace ++ [p] := rfl
@[simp] theorem State.configure_hostIn (p : Pin) (st : Strategy) (f : Word) : (s.configure p st f).hostIn = s.hostIn := rfl
@[simp] theorem State.configure_timeIn (p : Pin) (st : Strategy) (f : Word) : (s.configure p st f).timeIn = s.timeIn := rfl
@[simp] theorem State.configure_dmaFaultIn (p : Pin) (st : Strategy) (f : Word) : (s.configure p st f).dmaFaultIn = s.dmaFaultIn := rfl
@[simp] theorem State.configure_drawNo (p : Pin) (st : Strategy) (f : Word) : (s.configure p st f).drawNo = s.drawNo := rfl

/-! The start of `TRANSMIT` -/

@[simp] theorem State.occupy_params : (s.occupy).params = s.params := rfl
@[simp] theorem State.occupy_phase : (s.occupy).phase = if s.phase = .opened then .locked else s.phase := rfl
@[simp] theorem State.occupy_fatal : (s.occupy).fatal = s.fatal := rfl
@[simp] theorem State.occupy_busy : (s.occupy).busy = true := rfl
@[simp] theorem State.occupy_clkPin : (s.occupy).clkPin = s.clkPin := rfl
@[simp] theorem State.occupy_strategy : (s.occupy).strategy = s.strategy := rfl
@[simp] theorem State.occupy_freq : (s.occupy).freq = s.freq := rfl
@[simp] theorem State.occupy_dataMask : (s.occupy).dataMask = s.dataMask := rfl
@[simp] theorem State.occupy_size : (s.occupy).size = s.size := rfl
@[simp] theorem State.occupy_plane : (s.occupy).plane = s.plane := rfl
@[simp] theorem State.occupy_calDone : (s.occupy).calDone = s.calDone := rfl
@[simp] theorem State.occupy_calRep : (s.occupy).calRep = s.calRep := rfl
@[simp] theorem State.occupy_calBusy : (s.occupy).calBusy = s.calBusy := rfl
@[simp] theorem State.occupy_errFlags : (s.occupy).errFlags = s.errFlags := rfl
@[simp] theorem State.occupy_lastErr : (s.occupy).lastErr = s.lastErr := rfl
@[simp] theorem State.occupy_txCount : (s.occupy).txCount = s.txCount := rfl
@[simp] theorem State.occupy_strips : (s.occupy).strips = s.strips := rfl
@[simp] theorem State.occupy_tick : (s.occupy).tick = s.tick := rfl
@[simp] theorem State.occupy_ph : (s.occupy).ph = s.ph := rfl
@[simp] theorem State.occupy_dmacs : (s.occupy).dmacs = s.dmacs := rfl
@[simp] theorem State.occupy_conblk : (s.occupy).conblk = s.conblk := rfl
@[simp] theorem State.occupy_srcp : (s.occupy).srcp = s.srcp := rfl
@[simp] theorem State.occupy_dstp : (s.occupy).dstp = s.dstp := rfl
@[simp] theorem State.occupy_rowCnt : (s.occupy).rowCnt = s.rowCnt := rfl
@[simp] theorem State.occupy_rowNo : (s.occupy).rowNo = s.rowNo := rfl
@[simp] theorem State.occupy_subCause : (s.occupy).subCause = s.subCause := rfl
@[simp] theorem State.occupy_chainBuilt : (s.occupy).chainBuilt = s.chainBuilt := rfl
@[simp] theorem State.occupy_ncb : (s.occupy).ncb = s.ncb := rfl
@[simp] theorem State.occupy_rowBase : (s.occupy).rowBase = s.rowBase := rfl
@[simp] theorem State.occupy_dmem : (s.occupy).dmem = s.dmem := rfl
@[simp] theorem State.occupy_rsp : (s.occupy).rsp = s.rsp := rfl
@[simp] theorem State.occupy_lines : (s.occupy).lines = s.lines := rfl
@[simp] theorem State.occupy_physTrace : (s.occupy).physTrace = s.physTrace := rfl
@[simp] theorem State.occupy_outPins : (s.occupy).outPins = s.outPins := rfl
@[simp] theorem State.occupy_outenTrace : (s.occupy).outenTrace = s.outenTrace := rfl
@[simp] theorem State.occupy_hostIn : (s.occupy).hostIn = s.hostIn := rfl
@[simp] theorem State.occupy_timeIn : (s.occupy).timeIn = s.timeIn := rfl
@[simp] theorem State.occupy_dmaFaultIn : (s.occupy).dmaFaultIn = s.dmaFaultIn := rfl
@[simp] theorem State.occupy_drawNo : (s.occupy).drawNo = s.drawNo := rfl

/-! `DmaStart()` -/

@[simp] theorem State.dmaStart_params : (s.dmaStart).params = s.params := rfl
@[simp] theorem State.dmaStart_phase : (s.dmaStart).phase = s.phase := rfl
@[simp] theorem State.dmaStart_fatal : (s.dmaStart).fatal = s.fatal := rfl
@[simp] theorem State.dmaStart_busy : (s.dmaStart).busy = s.busy := rfl
@[simp] theorem State.dmaStart_clkPin : (s.dmaStart).clkPin = s.clkPin := rfl
@[simp] theorem State.dmaStart_strategy : (s.dmaStart).strategy = s.strategy := rfl
@[simp] theorem State.dmaStart_freq : (s.dmaStart).freq = s.freq := rfl
@[simp] theorem State.dmaStart_dataMask : (s.dmaStart).dataMask = s.dataMask := rfl
@[simp] theorem State.dmaStart_size : (s.dmaStart).size = s.size := rfl
@[simp] theorem State.dmaStart_plane : (s.dmaStart).plane = s.plane := rfl
@[simp] theorem State.dmaStart_calDone : (s.dmaStart).calDone = s.calDone := rfl
@[simp] theorem State.dmaStart_calRep : (s.dmaStart).calRep = s.calRep := rfl
@[simp] theorem State.dmaStart_calBusy : (s.dmaStart).calBusy = s.calBusy := rfl
@[simp] theorem State.dmaStart_errFlags : (s.dmaStart).errFlags = s.errFlags := rfl
@[simp] theorem State.dmaStart_lastErr : (s.dmaStart).lastErr = s.lastErr := rfl
@[simp] theorem State.dmaStart_txCount : (s.dmaStart).txCount = s.txCount := rfl
@[simp] theorem State.dmaStart_strips : (s.dmaStart).strips = s.strips := rfl
@[simp] theorem State.dmaStart_tick : (s.dmaStart).tick = s.tick := rfl
@[simp] theorem State.dmaStart_ph : (s.dmaStart).ph = s.ph := rfl
@[simp] theorem State.dmaStart_dmacs : (s.dmaStart).dmacs = { active := true, ended := false, error := false } := rfl
@[simp] theorem State.dmaStart_conblk : (s.dmaStart).conblk = s.params.dmaBase := rfl
@[simp] theorem State.dmaStart_srcp : (s.dmaStart).srcp = s.srcp := rfl
@[simp] theorem State.dmaStart_dstp : (s.dmaStart).dstp = s.dstp := rfl
@[simp] theorem State.dmaStart_rowCnt : (s.dmaStart).rowCnt = s.rowCnt := rfl
@[simp] theorem State.dmaStart_rowNo : (s.dmaStart).rowNo = 0#32 := rfl
@[simp] theorem State.dmaStart_subCause : (s.dmaStart).subCause = .none := rfl
@[simp] theorem State.dmaStart_chainBuilt : (s.dmaStart).chainBuilt = s.chainBuilt := rfl
@[simp] theorem State.dmaStart_ncb : (s.dmaStart).ncb = s.ncb := rfl
@[simp] theorem State.dmaStart_rowBase : (s.dmaStart).rowBase = s.rowBase := rfl
@[simp] theorem State.dmaStart_dmem : (s.dmaStart).dmem = s.dmem := rfl
@[simp] theorem State.dmaStart_rsp : (s.dmaStart).rsp = s.rsp := rfl
@[simp] theorem State.dmaStart_lines : (s.dmaStart).lines = s.lines := rfl
@[simp] theorem State.dmaStart_physTrace : (s.dmaStart).physTrace = s.physTrace := rfl
@[simp] theorem State.dmaStart_outPins : (s.dmaStart).outPins = s.outPins := rfl
@[simp] theorem State.dmaStart_outenTrace : (s.dmaStart).outenTrace = s.outenTrace := rfl
@[simp] theorem State.dmaStart_hostIn : (s.dmaStart).hostIn = s.hostIn := rfl
@[simp] theorem State.dmaStart_timeIn : (s.dmaStart).timeIn = s.timeIn := rfl
@[simp] theorem State.dmaStart_dmaFaultIn : (s.dmaStart).dmaFaultIn = s.dmaFaultIn := rfl
@[simp] theorem State.dmaStart_drawNo : (s.dmaStart).drawNo = s.drawNo := rfl

/-! `DmaReset()` -/

@[simp] theorem State.dmaReset_params : (s.dmaReset).params = s.params := rfl
@[simp] theorem State.dmaReset_phase : (s.dmaReset).phase = s.phase := rfl
@[simp] theorem State.dmaReset_fatal : (s.dmaReset).fatal = s.fatal := rfl
@[simp] theorem State.dmaReset_busy : (s.dmaReset).busy = s.busy := rfl
@[simp] theorem State.dmaReset_clkPin : (s.dmaReset).clkPin = s.clkPin := rfl
@[simp] theorem State.dmaReset_strategy : (s.dmaReset).strategy = s.strategy := rfl
@[simp] theorem State.dmaReset_freq : (s.dmaReset).freq = s.freq := rfl
@[simp] theorem State.dmaReset_dataMask : (s.dmaReset).dataMask = s.dataMask := rfl
@[simp] theorem State.dmaReset_size : (s.dmaReset).size = s.size := rfl
@[simp] theorem State.dmaReset_plane : (s.dmaReset).plane = s.plane := rfl
@[simp] theorem State.dmaReset_calDone : (s.dmaReset).calDone = s.calDone := rfl
@[simp] theorem State.dmaReset_calRep : (s.dmaReset).calRep = s.calRep := rfl
@[simp] theorem State.dmaReset_calBusy : (s.dmaReset).calBusy = s.calBusy := rfl
@[simp] theorem State.dmaReset_errFlags : (s.dmaReset).errFlags = s.errFlags := rfl
@[simp] theorem State.dmaReset_lastErr : (s.dmaReset).lastErr = s.lastErr := rfl
@[simp] theorem State.dmaReset_txCount : (s.dmaReset).txCount = s.txCount := rfl
@[simp] theorem State.dmaReset_strips : (s.dmaReset).strips = s.strips := rfl
@[simp] theorem State.dmaReset_tick : (s.dmaReset).tick = s.tick := rfl
@[simp] theorem State.dmaReset_ph : (s.dmaReset).ph = s.ph := rfl
@[simp] theorem State.dmaReset_dmacs : (s.dmaReset).dmacs = { active := false, ended := false, error := false } := rfl
@[simp] theorem State.dmaReset_conblk : (s.dmaReset).conblk = 0#32 := rfl
@[simp] theorem State.dmaReset_srcp : (s.dmaReset).srcp = s.srcp := rfl
@[simp] theorem State.dmaReset_dstp : (s.dmaReset).dstp = s.dstp := rfl
@[simp] theorem State.dmaReset_rowCnt : (s.dmaReset).rowCnt = s.rowCnt := rfl
@[simp] theorem State.dmaReset_rowNo : (s.dmaReset).rowNo = s.rowNo := rfl
@[simp] theorem State.dmaReset_subCause : (s.dmaReset).subCause = s.subCause := rfl
@[simp] theorem State.dmaReset_chainBuilt : (s.dmaReset).chainBuilt = s.chainBuilt := rfl
@[simp] theorem State.dmaReset_ncb : (s.dmaReset).ncb = s.ncb := rfl
@[simp] theorem State.dmaReset_rowBase : (s.dmaReset).rowBase = s.rowBase := rfl
@[simp] theorem State.dmaReset_dmem : (s.dmaReset).dmem = s.dmem := rfl
@[simp] theorem State.dmaReset_rsp : (s.dmaReset).rsp = s.rsp := rfl
@[simp] theorem State.dmaReset_lines : (s.dmaReset).lines = s.lines := rfl
@[simp] theorem State.dmaReset_physTrace : (s.dmaReset).physTrace = s.physTrace := rfl
@[simp] theorem State.dmaReset_outPins : (s.dmaReset).outPins = s.outPins := rfl
@[simp] theorem State.dmaReset_outenTrace : (s.dmaReset).outenTrace = s.outenTrace := rfl
@[simp] theorem State.dmaReset_hostIn : (s.dmaReset).hostIn = s.hostIn := rfl
@[simp] theorem State.dmaReset_timeIn : (s.dmaReset).timeIn = s.timeIn := rfl
@[simp] theorem State.dmaReset_dmaFaultIn : (s.dmaReset).dmaFaultIn = s.dmaFaultIn := rfl
@[simp] theorem State.dmaReset_drawNo : (s.dmaReset).drawNo = s.drawNo := rfl

/-! `stop(k)` -/

@[simp] theorem State.stop_params (k : SubCause) : (s.stop k).params = s.params := rfl
@[simp] theorem State.stop_phase (k : SubCause) : (s.stop k).phase = s.phase := rfl
@[simp] theorem State.stop_fatal (k : SubCause) : (s.stop k).fatal = s.fatal := rfl
@[simp] theorem State.stop_busy (k : SubCause) : (s.stop k).busy = s.busy := rfl
@[simp] theorem State.stop_clkPin (k : SubCause) : (s.stop k).clkPin = s.clkPin := rfl
@[simp] theorem State.stop_strategy (k : SubCause) : (s.stop k).strategy = s.strategy := rfl
@[simp] theorem State.stop_freq (k : SubCause) : (s.stop k).freq = s.freq := rfl
@[simp] theorem State.stop_dataMask (k : SubCause) : (s.stop k).dataMask = s.dataMask := rfl
@[simp] theorem State.stop_size (k : SubCause) : (s.stop k).size = s.size := rfl
@[simp] theorem State.stop_plane (k : SubCause) : (s.stop k).plane = s.plane := rfl
@[simp] theorem State.stop_calDone (k : SubCause) : (s.stop k).calDone = s.calDone := rfl
@[simp] theorem State.stop_calRep (k : SubCause) : (s.stop k).calRep = s.calRep := rfl
@[simp] theorem State.stop_calBusy (k : SubCause) : (s.stop k).calBusy = s.calBusy := rfl
@[simp] theorem State.stop_errFlags (k : SubCause) : (s.stop k).errFlags = s.errFlags := rfl
@[simp] theorem State.stop_lastErr (k : SubCause) : (s.stop k).lastErr = s.lastErr := rfl
@[simp] theorem State.stop_txCount (k : SubCause) : (s.stop k).txCount = s.txCount := rfl
@[simp] theorem State.stop_strips (k : SubCause) : (s.stop k).strips = s.strips := rfl
@[simp] theorem State.stop_tick (k : SubCause) : (s.stop k).tick = s.tick := rfl
@[simp] theorem State.stop_ph (k : SubCause) : (s.stop k).ph = s.ph := rfl
@[simp] theorem State.stop_dmacs (k : SubCause) : (s.stop k).dmacs = { s.dmacs with active := false, error := true } := rfl
@[simp] theorem State.stop_conblk (k : SubCause) : (s.stop k).conblk = s.conblk := rfl
@[simp] theorem State.stop_srcp (k : SubCause) : (s.stop k).srcp = s.srcp := rfl
@[simp] theorem State.stop_dstp (k : SubCause) : (s.stop k).dstp = s.dstp := rfl
@[simp] theorem State.stop_rowCnt (k : SubCause) : (s.stop k).rowCnt = s.rowCnt := rfl
@[simp] theorem State.stop_rowNo (k : SubCause) : (s.stop k).rowNo = s.rowNo := rfl
@[simp] theorem State.stop_subCause (k : SubCause) : (s.stop k).subCause = k := rfl
@[simp] theorem State.stop_chainBuilt (k : SubCause) : (s.stop k).chainBuilt = s.chainBuilt := rfl
@[simp] theorem State.stop_ncb (k : SubCause) : (s.stop k).ncb = s.ncb := rfl
@[simp] theorem State.stop_rowBase (k : SubCause) : (s.stop k).rowBase = s.rowBase := rfl
@[simp] theorem State.stop_dmem (k : SubCause) : (s.stop k).dmem = s.dmem := rfl
@[simp] theorem State.stop_rsp (k : SubCause) : (s.stop k).rsp = s.rsp := rfl
@[simp] theorem State.stop_lines (k : SubCause) : (s.stop k).lines = s.lines := rfl
@[simp] theorem State.stop_physTrace (k : SubCause) : (s.stop k).physTrace = s.physTrace := rfl
@[simp] theorem State.stop_outPins (k : SubCause) : (s.stop k).outPins = s.outPins := rfl
@[simp] theorem State.stop_outenTrace (k : SubCause) : (s.stop k).outenTrace = s.outenTrace := rfl
@[simp] theorem State.stop_hostIn (k : SubCause) : (s.stop k).hostIn = s.hostIn := rfl
@[simp] theorem State.stop_timeIn (k : SubCause) : (s.stop k).timeIn = s.timeIn := rfl
@[simp] theorem State.stop_dmaFaultIn (k : SubCause) : (s.stop k).dmaFaultIn = s.dmaFaultIn := rfl
@[simp] theorem State.stop_drawNo (k : SubCause) : (s.stop k).drawNo = s.drawNo := rfl

/-! The end of a row -/

@[simp] theorem State.endRow_params (ss ds : Word) : (s.endRow ss ds).params = s.params := rfl
@[simp] theorem State.endRow_phase (ss ds : Word) : (s.endRow ss ds).phase = s.phase := rfl
@[simp] theorem State.endRow_fatal (ss ds : Word) : (s.endRow ss ds).fatal = s.fatal := rfl
@[simp] theorem State.endRow_busy (ss ds : Word) : (s.endRow ss ds).busy = s.busy := rfl
@[simp] theorem State.endRow_clkPin (ss ds : Word) : (s.endRow ss ds).clkPin = s.clkPin := rfl
@[simp] theorem State.endRow_strategy (ss ds : Word) : (s.endRow ss ds).strategy = s.strategy := rfl
@[simp] theorem State.endRow_freq (ss ds : Word) : (s.endRow ss ds).freq = s.freq := rfl
@[simp] theorem State.endRow_dataMask (ss ds : Word) : (s.endRow ss ds).dataMask = s.dataMask := rfl
@[simp] theorem State.endRow_size (ss ds : Word) : (s.endRow ss ds).size = s.size := rfl
@[simp] theorem State.endRow_plane (ss ds : Word) : (s.endRow ss ds).plane = s.plane := rfl
@[simp] theorem State.endRow_calDone (ss ds : Word) : (s.endRow ss ds).calDone = s.calDone := rfl
@[simp] theorem State.endRow_calRep (ss ds : Word) : (s.endRow ss ds).calRep = s.calRep := rfl
@[simp] theorem State.endRow_calBusy (ss ds : Word) : (s.endRow ss ds).calBusy = s.calBusy := rfl
@[simp] theorem State.endRow_errFlags (ss ds : Word) : (s.endRow ss ds).errFlags = s.errFlags := rfl
@[simp] theorem State.endRow_lastErr (ss ds : Word) : (s.endRow ss ds).lastErr = s.lastErr := rfl
@[simp] theorem State.endRow_txCount (ss ds : Word) : (s.endRow ss ds).txCount = s.txCount := rfl
@[simp] theorem State.endRow_strips (ss ds : Word) : (s.endRow ss ds).strips = s.strips := rfl
@[simp] theorem State.endRow_tick (ss ds : Word) : (s.endRow ss ds).tick = s.tick := rfl
@[simp] theorem State.endRow_ph (ss ds : Word) : (s.endRow ss ds).ph = s.ph := rfl
@[simp] theorem State.endRow_dmacs (ss ds : Word) : (s.endRow ss ds).dmacs = s.dmacs := rfl
@[simp] theorem State.endRow_conblk (ss ds : Word) : (s.endRow ss ds).conblk = s.conblk := rfl
@[simp] theorem State.endRow_srcp (ss ds : Word) : (s.endRow ss ds).srcp = s.srcp + ss := rfl
@[simp] theorem State.endRow_dstp (ss ds : Word) : (s.endRow ss ds).dstp = s.dstp + ds := rfl
@[simp] theorem State.endRow_rowCnt (ss ds : Word) : (s.endRow ss ds).rowCnt = s.rowCnt - 1#16 := rfl
@[simp] theorem State.endRow_rowNo (ss ds : Word) : (s.endRow ss ds).rowNo = s.rowNo + 1#32 := rfl
@[simp] theorem State.endRow_subCause (ss ds : Word) : (s.endRow ss ds).subCause = s.subCause := rfl
@[simp] theorem State.endRow_chainBuilt (ss ds : Word) : (s.endRow ss ds).chainBuilt = s.chainBuilt := rfl
@[simp] theorem State.endRow_ncb (ss ds : Word) : (s.endRow ss ds).ncb = s.ncb := rfl
@[simp] theorem State.endRow_rowBase (ss ds : Word) : (s.endRow ss ds).rowBase = s.rowBase := rfl
@[simp] theorem State.endRow_dmem (ss ds : Word) : (s.endRow ss ds).dmem = s.dmem := rfl
@[simp] theorem State.endRow_rsp (ss ds : Word) : (s.endRow ss ds).rsp = s.rsp := rfl
@[simp] theorem State.endRow_lines (ss ds : Word) : (s.endRow ss ds).lines = s.lines := rfl
@[simp] theorem State.endRow_physTrace (ss ds : Word) : (s.endRow ss ds).physTrace = s.physTrace := rfl
@[simp] theorem State.endRow_outPins (ss ds : Word) : (s.endRow ss ds).outPins = s.outPins := rfl
@[simp] theorem State.endRow_outenTrace (ss ds : Word) : (s.endRow ss ds).outenTrace = s.outenTrace := rfl
@[simp] theorem State.endRow_hostIn (ss ds : Word) : (s.endRow ss ds).hostIn = s.hostIn := rfl
@[simp] theorem State.endRow_timeIn (ss ds : Word) : (s.endRow ss ds).timeIn = s.timeIn := rfl
@[simp] theorem State.endRow_dmaFaultIn (ss ds : Word) : (s.endRow ss ds).dmaFaultIn = s.dmaFaultIn := rfl
@[simp] theorem State.endRow_drawNo (ss ds : Word) : (s.endRow ss ds).drawNo = s.drawNo := rfl

/-! The load of a control block -/

@[simp] theorem State.loadBlock_params : (s.loadBlock).params = s.params := rfl
@[simp] theorem State.loadBlock_phase : (s.loadBlock).phase = s.phase := rfl
@[simp] theorem State.loadBlock_fatal : (s.loadBlock).fatal = s.fatal := rfl
@[simp] theorem State.loadBlock_busy : (s.loadBlock).busy = s.busy := rfl
@[simp] theorem State.loadBlock_clkPin : (s.loadBlock).clkPin = s.clkPin := rfl
@[simp] theorem State.loadBlock_strategy : (s.loadBlock).strategy = s.strategy := rfl
@[simp] theorem State.loadBlock_freq : (s.loadBlock).freq = s.freq := rfl
@[simp] theorem State.loadBlock_dataMask : (s.loadBlock).dataMask = s.dataMask := rfl
@[simp] theorem State.loadBlock_size : (s.loadBlock).size = s.size := rfl
@[simp] theorem State.loadBlock_plane : (s.loadBlock).plane = s.plane := rfl
@[simp] theorem State.loadBlock_calDone : (s.loadBlock).calDone = s.calDone := rfl
@[simp] theorem State.loadBlock_calRep : (s.loadBlock).calRep = s.calRep := rfl
@[simp] theorem State.loadBlock_calBusy : (s.loadBlock).calBusy = s.calBusy := rfl
@[simp] theorem State.loadBlock_errFlags : (s.loadBlock).errFlags = s.errFlags := rfl
@[simp] theorem State.loadBlock_lastErr : (s.loadBlock).lastErr = s.lastErr := rfl
@[simp] theorem State.loadBlock_txCount : (s.loadBlock).txCount = s.txCount := rfl
@[simp] theorem State.loadBlock_strips : (s.loadBlock).strips = s.strips := rfl
@[simp] theorem State.loadBlock_tick : (s.loadBlock).tick = s.tick := rfl
@[simp] theorem State.loadBlock_ph : (s.loadBlock).ph = s.ph := rfl
@[simp] theorem State.loadBlock_dmacs : (s.loadBlock).dmacs = s.dmacs := rfl
@[simp] theorem State.loadBlock_conblk : (s.loadBlock).conblk = s.conblk := rfl
@[simp] theorem State.loadBlock_srcp : (s.loadBlock).srcp = s.blockWord 1 := rfl
@[simp] theorem State.loadBlock_dstp : (s.loadBlock).dstp = s.blockWord 2 := rfl
@[simp] theorem State.loadBlock_rowCnt : (s.loadBlock).rowCnt = geomRows (s.blockWord 3) := rfl
@[simp] theorem State.loadBlock_rowNo : (s.loadBlock).rowNo = s.rowNo := rfl
@[simp] theorem State.loadBlock_subCause : (s.loadBlock).subCause = s.subCause := rfl
@[simp] theorem State.loadBlock_chainBuilt : (s.loadBlock).chainBuilt = s.chainBuilt := rfl
@[simp] theorem State.loadBlock_ncb : (s.loadBlock).ncb = s.ncb := rfl
@[simp] theorem State.loadBlock_rowBase : (s.loadBlock).rowBase = s.rowBase := rfl
@[simp] theorem State.loadBlock_dmem : (s.loadBlock).dmem = s.dmem := rfl
@[simp] theorem State.loadBlock_rsp : (s.loadBlock).rsp = s.rsp := rfl
@[simp] theorem State.loadBlock_lines : (s.loadBlock).lines = s.lines := rfl
@[simp] theorem State.loadBlock_physTrace : (s.loadBlock).physTrace = s.physTrace := rfl
@[simp] theorem State.loadBlock_outPins : (s.loadBlock).outPins = s.outPins := rfl
@[simp] theorem State.loadBlock_outenTrace : (s.loadBlock).outenTrace = s.outenTrace := rfl
@[simp] theorem State.loadBlock_hostIn : (s.loadBlock).hostIn = s.hostIn := rfl
@[simp] theorem State.loadBlock_timeIn : (s.loadBlock).timeIn = s.timeIn := rfl
@[simp] theorem State.loadBlock_dmaFaultIn : (s.loadBlock).dmaFaultIn = s.dmaFaultIn := rfl
@[simp] theorem State.loadBlock_drawNo : (s.loadBlock).drawNo = s.drawNo := rfl

/-! The link to the next control block -/

@[simp] theorem State.link_params (next : Word) : (s.link next).params = s.params := by unfold State.link; split <;> rfl
@[simp] theorem State.link_phase (next : Word) : (s.link next).phase = s.phase := by unfold State.link; split <;> rfl
@[simp] theorem State.link_fatal (next : Word) : (s.link next).fatal = s.fatal := by unfold State.link; split <;> rfl
@[simp] theorem State.link_busy (next : Word) : (s.link next).busy = s.busy := by unfold State.link; split <;> rfl
@[simp] theorem State.link_clkPin (next : Word) : (s.link next).clkPin = s.clkPin := by unfold State.link; split <;> rfl
@[simp] theorem State.link_strategy (next : Word) : (s.link next).strategy = s.strategy := by unfold State.link; split <;> rfl
@[simp] theorem State.link_freq (next : Word) : (s.link next).freq = s.freq := by unfold State.link; split <;> rfl
@[simp] theorem State.link_dataMask (next : Word) : (s.link next).dataMask = s.dataMask := by unfold State.link; split <;> rfl
@[simp] theorem State.link_size (next : Word) : (s.link next).size = s.size := by unfold State.link; split <;> rfl
@[simp] theorem State.link_plane (next : Word) : (s.link next).plane = s.plane := by unfold State.link; split <;> rfl
@[simp] theorem State.link_calDone (next : Word) : (s.link next).calDone = s.calDone := by unfold State.link; split <;> rfl
@[simp] theorem State.link_calRep (next : Word) : (s.link next).calRep = s.calRep := by unfold State.link; split <;> rfl
@[simp] theorem State.link_calBusy (next : Word) : (s.link next).calBusy = s.calBusy := by unfold State.link; split <;> rfl
@[simp] theorem State.link_errFlags (next : Word) : (s.link next).errFlags = s.errFlags := by unfold State.link; split <;> rfl
@[simp] theorem State.link_lastErr (next : Word) : (s.link next).lastErr = s.lastErr := by unfold State.link; split <;> rfl
@[simp] theorem State.link_txCount (next : Word) : (s.link next).txCount = s.txCount := by unfold State.link; split <;> rfl
@[simp] theorem State.link_strips (next : Word) : (s.link next).strips = s.strips := by unfold State.link; split <;> rfl
@[simp] theorem State.link_tick (next : Word) : (s.link next).tick = s.tick := by unfold State.link; split <;> rfl
@[simp] theorem State.link_ph (next : Word) : (s.link next).ph = s.ph := by unfold State.link; split <;> rfl
@[simp] theorem State.link_conblk (next : Word) : (s.link next).conblk = next := by unfold State.link; split <;> rfl
@[simp] theorem State.link_srcp (next : Word) : (s.link next).srcp = s.srcp := by unfold State.link; split <;> rfl
@[simp] theorem State.link_dstp (next : Word) : (s.link next).dstp = s.dstp := by unfold State.link; split <;> rfl
@[simp] theorem State.link_rowCnt (next : Word) : (s.link next).rowCnt = s.rowCnt := by unfold State.link; split <;> rfl
@[simp] theorem State.link_rowNo (next : Word) : (s.link next).rowNo = s.rowNo := by unfold State.link; split <;> rfl
@[simp] theorem State.link_subCause (next : Word) : (s.link next).subCause = s.subCause := by unfold State.link; split <;> rfl
@[simp] theorem State.link_chainBuilt (next : Word) : (s.link next).chainBuilt = s.chainBuilt := by unfold State.link; split <;> rfl
@[simp] theorem State.link_ncb (next : Word) : (s.link next).ncb = s.ncb := by unfold State.link; split <;> rfl
@[simp] theorem State.link_rowBase (next : Word) : (s.link next).rowBase = s.rowBase := by unfold State.link; split <;> rfl
@[simp] theorem State.link_dmem (next : Word) : (s.link next).dmem = s.dmem := by unfold State.link; split <;> rfl
@[simp] theorem State.link_rsp (next : Word) : (s.link next).rsp = s.rsp := by unfold State.link; split <;> rfl
@[simp] theorem State.link_lines (next : Word) : (s.link next).lines = s.lines := by unfold State.link; split <;> rfl
@[simp] theorem State.link_physTrace (next : Word) : (s.link next).physTrace = s.physTrace := by unfold State.link; split <;> rfl
@[simp] theorem State.link_outPins (next : Word) : (s.link next).outPins = s.outPins := by unfold State.link; split <;> rfl
@[simp] theorem State.link_outenTrace (next : Word) : (s.link next).outenTrace = s.outenTrace := by unfold State.link; split <;> rfl
@[simp] theorem State.link_hostIn (next : Word) : (s.link next).hostIn = s.hostIn := by unfold State.link; split <;> rfl
@[simp] theorem State.link_timeIn (next : Word) : (s.link next).timeIn = s.timeIn := by unfold State.link; split <;> rfl
@[simp] theorem State.link_dmaFaultIn (next : Word) : (s.link next).dmaFaultIn = s.dmaFaultIn := by unfold State.link; split <;> rfl
@[simp] theorem State.link_drawNo (next : Word) : (s.link next).drawNo = s.drawNo := by unfold State.link; split <;> rfl

/-! The shifter's position -/

@[simp] theorem State.atWrite_params (r : Nat) : (s.atWrite r).params = s.params := by unfold State.atWrite; split <;> rfl
@[simp] theorem State.atWrite_phase (r : Nat) : (s.atWrite r).phase = s.phase := by unfold State.atWrite; split <;> rfl
@[simp] theorem State.atWrite_fatal (r : Nat) : (s.atWrite r).fatal = s.fatal := by unfold State.atWrite; split <;> rfl
@[simp] theorem State.atWrite_busy (r : Nat) : (s.atWrite r).busy = s.busy := by unfold State.atWrite; split <;> rfl
@[simp] theorem State.atWrite_clkPin (r : Nat) : (s.atWrite r).clkPin = s.clkPin := by unfold State.atWrite; split <;> rfl
@[simp] theorem State.atWrite_strategy (r : Nat) : (s.atWrite r).strategy = s.strategy := by unfold State.atWrite; split <;> rfl
@[simp] theorem State.atWrite_freq (r : Nat) : (s.atWrite r).freq = s.freq := by unfold State.atWrite; split <;> rfl
@[simp] theorem State.atWrite_dataMask (r : Nat) : (s.atWrite r).dataMask = s.dataMask := by unfold State.atWrite; split <;> rfl
@[simp] theorem State.atWrite_size (r : Nat) : (s.atWrite r).size = s.size := by unfold State.atWrite; split <;> rfl
@[simp] theorem State.atWrite_plane (r : Nat) : (s.atWrite r).plane = s.plane := by unfold State.atWrite; split <;> rfl
@[simp] theorem State.atWrite_calDone (r : Nat) : (s.atWrite r).calDone = s.calDone := by unfold State.atWrite; split <;> rfl
@[simp] theorem State.atWrite_calRep (r : Nat) : (s.atWrite r).calRep = s.calRep := by unfold State.atWrite; split <;> rfl
@[simp] theorem State.atWrite_calBusy (r : Nat) : (s.atWrite r).calBusy = s.calBusy := by unfold State.atWrite; split <;> rfl
@[simp] theorem State.atWrite_errFlags (r : Nat) : (s.atWrite r).errFlags = s.errFlags := by unfold State.atWrite; split <;> rfl
@[simp] theorem State.atWrite_lastErr (r : Nat) : (s.atWrite r).lastErr = s.lastErr := by unfold State.atWrite; split <;> rfl
@[simp] theorem State.atWrite_txCount (r : Nat) : (s.atWrite r).txCount = s.txCount := by unfold State.atWrite; split <;> rfl
@[simp] theorem State.atWrite_strips (r : Nat) : (s.atWrite r).strips = s.strips := by unfold State.atWrite; split <;> rfl
@[simp] theorem State.atWrite_dmacs (r : Nat) : (s.atWrite r).dmacs = s.dmacs := by unfold State.atWrite; split <;> rfl
@[simp] theorem State.atWrite_conblk (r : Nat) : (s.atWrite r).conblk = s.conblk := by unfold State.atWrite; split <;> rfl
@[simp] theorem State.atWrite_srcp (r : Nat) : (s.atWrite r).srcp = s.srcp := by unfold State.atWrite; split <;> rfl
@[simp] theorem State.atWrite_dstp (r : Nat) : (s.atWrite r).dstp = s.dstp := by unfold State.atWrite; split <;> rfl
@[simp] theorem State.atWrite_rowCnt (r : Nat) : (s.atWrite r).rowCnt = s.rowCnt := by unfold State.atWrite; split <;> rfl
@[simp] theorem State.atWrite_rowNo (r : Nat) : (s.atWrite r).rowNo = s.rowNo := by unfold State.atWrite; split <;> rfl
@[simp] theorem State.atWrite_subCause (r : Nat) : (s.atWrite r).subCause = s.subCause := by unfold State.atWrite; split <;> rfl
@[simp] theorem State.atWrite_chainBuilt (r : Nat) : (s.atWrite r).chainBuilt = s.chainBuilt := by unfold State.atWrite; split <;> rfl
@[simp] theorem State.atWrite_ncb (r : Nat) : (s.atWrite r).ncb = s.ncb := by unfold State.atWrite; split <;> rfl
@[simp] theorem State.atWrite_rowBase (r : Nat) : (s.atWrite r).rowBase = s.rowBase := by unfold State.atWrite; split <;> rfl
@[simp] theorem State.atWrite_dmem (r : Nat) : (s.atWrite r).dmem = s.dmem := by unfold State.atWrite; split <;> rfl
@[simp] theorem State.atWrite_rsp (r : Nat) : (s.atWrite r).rsp = s.rsp := by unfold State.atWrite; split <;> rfl
@[simp] theorem State.atWrite_lines (r : Nat) : (s.atWrite r).lines = s.lines := by unfold State.atWrite; split <;> rfl
@[simp] theorem State.atWrite_physTrace (r : Nat) : (s.atWrite r).physTrace = s.physTrace := by unfold State.atWrite; split <;> rfl
@[simp] theorem State.atWrite_outPins (r : Nat) : (s.atWrite r).outPins = s.outPins := by unfold State.atWrite; split <;> rfl
@[simp] theorem State.atWrite_outenTrace (r : Nat) : (s.atWrite r).outenTrace = s.outenTrace := by unfold State.atWrite; split <;> rfl
@[simp] theorem State.atWrite_hostIn (r : Nat) : (s.atWrite r).hostIn = s.hostIn := by unfold State.atWrite; split <;> rfl
@[simp] theorem State.atWrite_timeIn (r : Nat) : (s.atWrite r).timeIn = s.timeIn := by unfold State.atWrite; split <;> rfl
@[simp] theorem State.atWrite_dmaFaultIn (r : Nat) : (s.atWrite r).dmaFaultIn = s.dmaFaultIn := by unfold State.atWrite; split <;> rfl
@[simp] theorem State.atWrite_drawNo (r : Nat) : (s.atWrite r).drawNo = s.drawNo := by unfold State.atWrite; split <;> rfl

/-! A draw of `dma_fault` -/

@[simp] theorem State.drawFault_params : (s.drawFault.2).params = s.params := by unfold State.drawFault; split <;> simp_all
@[simp] theorem State.drawFault_phase : (s.drawFault.2).phase = s.phase := by unfold State.drawFault; split <;> simp_all
@[simp] theorem State.drawFault_fatal : (s.drawFault.2).fatal = s.fatal := by unfold State.drawFault; split <;> simp_all
@[simp] theorem State.drawFault_busy : (s.drawFault.2).busy = s.busy := by unfold State.drawFault; split <;> simp_all
@[simp] theorem State.drawFault_clkPin : (s.drawFault.2).clkPin = s.clkPin := by unfold State.drawFault; split <;> simp_all
@[simp] theorem State.drawFault_strategy : (s.drawFault.2).strategy = s.strategy := by unfold State.drawFault; split <;> simp_all
@[simp] theorem State.drawFault_freq : (s.drawFault.2).freq = s.freq := by unfold State.drawFault; split <;> simp_all
@[simp] theorem State.drawFault_dataMask : (s.drawFault.2).dataMask = s.dataMask := by unfold State.drawFault; split <;> simp_all
@[simp] theorem State.drawFault_size : (s.drawFault.2).size = s.size := by unfold State.drawFault; split <;> simp_all
@[simp] theorem State.drawFault_plane : (s.drawFault.2).plane = s.plane := by unfold State.drawFault; split <;> simp_all
@[simp] theorem State.drawFault_calDone : (s.drawFault.2).calDone = s.calDone := by unfold State.drawFault; split <;> simp_all
@[simp] theorem State.drawFault_calRep : (s.drawFault.2).calRep = s.calRep := by unfold State.drawFault; split <;> simp_all
@[simp] theorem State.drawFault_calBusy : (s.drawFault.2).calBusy = s.calBusy := by unfold State.drawFault; split <;> simp_all
@[simp] theorem State.drawFault_errFlags : (s.drawFault.2).errFlags = s.errFlags := by unfold State.drawFault; split <;> simp_all
@[simp] theorem State.drawFault_lastErr : (s.drawFault.2).lastErr = s.lastErr := by unfold State.drawFault; split <;> simp_all
@[simp] theorem State.drawFault_txCount : (s.drawFault.2).txCount = s.txCount := by unfold State.drawFault; split <;> simp_all
@[simp] theorem State.drawFault_strips : (s.drawFault.2).strips = s.strips := by unfold State.drawFault; split <;> simp_all
@[simp] theorem State.drawFault_tick : (s.drawFault.2).tick = s.tick := by unfold State.drawFault; split <;> simp_all
@[simp] theorem State.drawFault_ph : (s.drawFault.2).ph = s.ph := by unfold State.drawFault; split <;> simp_all
@[simp] theorem State.drawFault_dmacs : (s.drawFault.2).dmacs = s.dmacs := by unfold State.drawFault; split <;> simp_all
@[simp] theorem State.drawFault_conblk : (s.drawFault.2).conblk = s.conblk := by unfold State.drawFault; split <;> simp_all
@[simp] theorem State.drawFault_srcp : (s.drawFault.2).srcp = s.srcp := by unfold State.drawFault; split <;> simp_all
@[simp] theorem State.drawFault_dstp : (s.drawFault.2).dstp = s.dstp := by unfold State.drawFault; split <;> simp_all
@[simp] theorem State.drawFault_rowCnt : (s.drawFault.2).rowCnt = s.rowCnt := by unfold State.drawFault; split <;> simp_all
@[simp] theorem State.drawFault_rowNo : (s.drawFault.2).rowNo = s.rowNo := by unfold State.drawFault; split <;> simp_all
@[simp] theorem State.drawFault_subCause : (s.drawFault.2).subCause = s.subCause := by unfold State.drawFault; split <;> simp_all
@[simp] theorem State.drawFault_chainBuilt : (s.drawFault.2).chainBuilt = s.chainBuilt := by unfold State.drawFault; split <;> simp_all
@[simp] theorem State.drawFault_ncb : (s.drawFault.2).ncb = s.ncb := by unfold State.drawFault; split <;> simp_all
@[simp] theorem State.drawFault_rowBase : (s.drawFault.2).rowBase = s.rowBase := by unfold State.drawFault; split <;> simp_all
@[simp] theorem State.drawFault_dmem : (s.drawFault.2).dmem = s.dmem := by unfold State.drawFault; split <;> simp_all
@[simp] theorem State.drawFault_rsp : (s.drawFault.2).rsp = s.rsp := by unfold State.drawFault; split <;> simp_all
@[simp] theorem State.drawFault_lines : (s.drawFault.2).lines = s.lines := by unfold State.drawFault; split <;> simp_all
@[simp] theorem State.drawFault_physTrace : (s.drawFault.2).physTrace = s.physTrace := by unfold State.drawFault; split <;> simp_all
@[simp] theorem State.drawFault_outPins : (s.drawFault.2).outPins = s.outPins := by unfold State.drawFault; split <;> simp_all
@[simp] theorem State.drawFault_outenTrace : (s.drawFault.2).outenTrace = s.outenTrace := by unfold State.drawFault; split <;> simp_all
@[simp] theorem State.drawFault_hostIn : (s.drawFault.2).hostIn = s.hostIn := by unfold State.drawFault; split <;> simp_all
@[simp] theorem State.drawFault_timeIn : (s.drawFault.2).timeIn = s.timeIn := by unfold State.drawFault; split <;> simp_all
@[simp] theorem State.drawFault_dmaFaultIn : (s.drawFault.2).dmaFaultIn = s.dmaFaultIn.tail := by unfold State.drawFault; split <;> simp_all
@[simp] theorem State.drawFault_drawNo : (s.drawFault.2).drawNo = s.drawNo + 1 := by unfold State.drawFault; split <;> simp_all

/-! A draw of the time base -/

@[simp] theorem State.drawTime_params : (s.drawTime.2).params = s.params := by unfold State.drawTime; split <;> simp_all
@[simp] theorem State.drawTime_phase : (s.drawTime.2).phase = s.phase := by unfold State.drawTime; split <;> simp_all
@[simp] theorem State.drawTime_fatal : (s.drawTime.2).fatal = s.fatal := by unfold State.drawTime; split <;> simp_all
@[simp] theorem State.drawTime_busy : (s.drawTime.2).busy = s.busy := by unfold State.drawTime; split <;> simp_all
@[simp] theorem State.drawTime_clkPin : (s.drawTime.2).clkPin = s.clkPin := by unfold State.drawTime; split <;> simp_all
@[simp] theorem State.drawTime_strategy : (s.drawTime.2).strategy = s.strategy := by unfold State.drawTime; split <;> simp_all
@[simp] theorem State.drawTime_freq : (s.drawTime.2).freq = s.freq := by unfold State.drawTime; split <;> simp_all
@[simp] theorem State.drawTime_dataMask : (s.drawTime.2).dataMask = s.dataMask := by unfold State.drawTime; split <;> simp_all
@[simp] theorem State.drawTime_size : (s.drawTime.2).size = s.size := by unfold State.drawTime; split <;> simp_all
@[simp] theorem State.drawTime_plane : (s.drawTime.2).plane = s.plane := by unfold State.drawTime; split <;> simp_all
@[simp] theorem State.drawTime_calDone : (s.drawTime.2).calDone = s.calDone := by unfold State.drawTime; split <;> simp_all
@[simp] theorem State.drawTime_calRep : (s.drawTime.2).calRep = s.calRep := by unfold State.drawTime; split <;> simp_all
@[simp] theorem State.drawTime_calBusy : (s.drawTime.2).calBusy = s.calBusy := by unfold State.drawTime; split <;> simp_all
@[simp] theorem State.drawTime_errFlags : (s.drawTime.2).errFlags = s.errFlags := by unfold State.drawTime; split <;> simp_all
@[simp] theorem State.drawTime_lastErr : (s.drawTime.2).lastErr = s.lastErr := by unfold State.drawTime; split <;> simp_all
@[simp] theorem State.drawTime_txCount : (s.drawTime.2).txCount = s.txCount := by unfold State.drawTime; split <;> simp_all
@[simp] theorem State.drawTime_strips : (s.drawTime.2).strips = s.strips := by unfold State.drawTime; split <;> simp_all
@[simp] theorem State.drawTime_tick : (s.drawTime.2).tick = s.tick := by unfold State.drawTime; split <;> simp_all
@[simp] theorem State.drawTime_ph : (s.drawTime.2).ph = s.ph := by unfold State.drawTime; split <;> simp_all
@[simp] theorem State.drawTime_dmacs : (s.drawTime.2).dmacs = s.dmacs := by unfold State.drawTime; split <;> simp_all
@[simp] theorem State.drawTime_conblk : (s.drawTime.2).conblk = s.conblk := by unfold State.drawTime; split <;> simp_all
@[simp] theorem State.drawTime_srcp : (s.drawTime.2).srcp = s.srcp := by unfold State.drawTime; split <;> simp_all
@[simp] theorem State.drawTime_dstp : (s.drawTime.2).dstp = s.dstp := by unfold State.drawTime; split <;> simp_all
@[simp] theorem State.drawTime_rowCnt : (s.drawTime.2).rowCnt = s.rowCnt := by unfold State.drawTime; split <;> simp_all
@[simp] theorem State.drawTime_rowNo : (s.drawTime.2).rowNo = s.rowNo := by unfold State.drawTime; split <;> simp_all
@[simp] theorem State.drawTime_subCause : (s.drawTime.2).subCause = s.subCause := by unfold State.drawTime; split <;> simp_all
@[simp] theorem State.drawTime_chainBuilt : (s.drawTime.2).chainBuilt = s.chainBuilt := by unfold State.drawTime; split <;> simp_all
@[simp] theorem State.drawTime_ncb : (s.drawTime.2).ncb = s.ncb := by unfold State.drawTime; split <;> simp_all
@[simp] theorem State.drawTime_rowBase : (s.drawTime.2).rowBase = s.rowBase := by unfold State.drawTime; split <;> simp_all
@[simp] theorem State.drawTime_dmem : (s.drawTime.2).dmem = s.dmem := by unfold State.drawTime; split <;> simp_all
@[simp] theorem State.drawTime_rsp : (s.drawTime.2).rsp = s.rsp := by unfold State.drawTime; split <;> simp_all
@[simp] theorem State.drawTime_lines : (s.drawTime.2).lines = s.lines := by unfold State.drawTime; split <;> simp_all
@[simp] theorem State.drawTime_physTrace : (s.drawTime.2).physTrace = s.physTrace := by unfold State.drawTime; split <;> simp_all
@[simp] theorem State.drawTime_outPins : (s.drawTime.2).outPins = s.outPins := by unfold State.drawTime; split <;> simp_all
@[simp] theorem State.drawTime_outenTrace : (s.drawTime.2).outenTrace = s.outenTrace := by unfold State.drawTime; split <;> simp_all
@[simp] theorem State.drawTime_hostIn : (s.drawTime.2).hostIn = s.hostIn := by unfold State.drawTime; split <;> simp_all
@[simp] theorem State.drawTime_timeIn : (s.drawTime.2).timeIn = s.timeIn.tail := by unfold State.drawTime; split <;> simp_all
@[simp] theorem State.drawTime_dmaFaultIn : (s.drawTime.2).dmaFaultIn = s.dmaFaultIn := by unfold State.drawTime; split <;> simp_all
@[simp] theorem State.drawTime_drawNo : (s.drawTime.2).drawNo = s.drawNo + 1 := by unfold State.drawTime; split <;> simp_all

/-! An event taken from `hostIn` -/

@[simp] theorem State.accept_params (rest : List HostEvent) : (s.accept rest).params = s.params := rfl
@[simp] theorem State.accept_phase (rest : List HostEvent) : (s.accept rest).phase = s.phase := rfl
@[simp] theorem State.accept_fatal (rest : List HostEvent) : (s.accept rest).fatal = s.fatal := rfl
@[simp] theorem State.accept_busy (rest : List HostEvent) : (s.accept rest).busy = s.busy := rfl
@[simp] theorem State.accept_clkPin (rest : List HostEvent) : (s.accept rest).clkPin = s.clkPin := rfl
@[simp] theorem State.accept_strategy (rest : List HostEvent) : (s.accept rest).strategy = s.strategy := rfl
@[simp] theorem State.accept_freq (rest : List HostEvent) : (s.accept rest).freq = s.freq := rfl
@[simp] theorem State.accept_dataMask (rest : List HostEvent) : (s.accept rest).dataMask = s.dataMask := rfl
@[simp] theorem State.accept_size (rest : List HostEvent) : (s.accept rest).size = s.size := rfl
@[simp] theorem State.accept_plane (rest : List HostEvent) : (s.accept rest).plane = s.plane := rfl
@[simp] theorem State.accept_calDone (rest : List HostEvent) : (s.accept rest).calDone = s.calDone := rfl
@[simp] theorem State.accept_calRep (rest : List HostEvent) : (s.accept rest).calRep = s.calRep := rfl
@[simp] theorem State.accept_calBusy (rest : List HostEvent) : (s.accept rest).calBusy = s.calBusy := rfl
@[simp] theorem State.accept_errFlags (rest : List HostEvent) : (s.accept rest).errFlags = s.errFlags := rfl
@[simp] theorem State.accept_lastErr (rest : List HostEvent) : (s.accept rest).lastErr = s.lastErr := rfl
@[simp] theorem State.accept_txCount (rest : List HostEvent) : (s.accept rest).txCount = s.txCount := rfl
@[simp] theorem State.accept_strips (rest : List HostEvent) : (s.accept rest).strips = s.strips := rfl
@[simp] theorem State.accept_tick (rest : List HostEvent) : (s.accept rest).tick = s.tick := rfl
@[simp] theorem State.accept_ph (rest : List HostEvent) : (s.accept rest).ph = s.ph := rfl
@[simp] theorem State.accept_dmacs (rest : List HostEvent) : (s.accept rest).dmacs = s.dmacs := rfl
@[simp] theorem State.accept_conblk (rest : List HostEvent) : (s.accept rest).conblk = s.conblk := rfl
@[simp] theorem State.accept_srcp (rest : List HostEvent) : (s.accept rest).srcp = s.srcp := rfl
@[simp] theorem State.accept_dstp (rest : List HostEvent) : (s.accept rest).dstp = s.dstp := rfl
@[simp] theorem State.accept_rowCnt (rest : List HostEvent) : (s.accept rest).rowCnt = s.rowCnt := rfl
@[simp] theorem State.accept_rowNo (rest : List HostEvent) : (s.accept rest).rowNo = s.rowNo := rfl
@[simp] theorem State.accept_subCause (rest : List HostEvent) : (s.accept rest).subCause = s.subCause := rfl
@[simp] theorem State.accept_chainBuilt (rest : List HostEvent) : (s.accept rest).chainBuilt = s.chainBuilt := rfl
@[simp] theorem State.accept_ncb (rest : List HostEvent) : (s.accept rest).ncb = s.ncb := rfl
@[simp] theorem State.accept_rowBase (rest : List HostEvent) : (s.accept rest).rowBase = s.rowBase := rfl
@[simp] theorem State.accept_dmem (rest : List HostEvent) : (s.accept rest).dmem = s.dmem := rfl
@[simp] theorem State.accept_rsp (rest : List HostEvent) : (s.accept rest).rsp = none := rfl
@[simp] theorem State.accept_lines (rest : List HostEvent) : (s.accept rest).lines = s.lines := rfl
@[simp] theorem State.accept_physTrace (rest : List HostEvent) : (s.accept rest).physTrace = s.physTrace := rfl
@[simp] theorem State.accept_outPins (rest : List HostEvent) : (s.accept rest).outPins = s.outPins := rfl
@[simp] theorem State.accept_outenTrace (rest : List HostEvent) : (s.accept rest).outenTrace = s.outenTrace := rfl
@[simp] theorem State.accept_hostIn (rest : List HostEvent) : (s.accept rest).hostIn = rest := rfl
@[simp] theorem State.accept_timeIn (rest : List HostEvent) : (s.accept rest).timeIn = s.timeIn := rfl
@[simp] theorem State.accept_dmaFaultIn (rest : List HostEvent) : (s.accept rest).dmaFaultIn = s.dmaFaultIn := rfl
@[simp] theorem State.accept_drawNo (rest : List HostEvent) : (s.accept rest).drawNo = s.drawNo := rfl

/-! A `TRANSMIT` that ends with `OK` -/

@[simp] theorem State.endOk_params : (s.endOk).params = s.params := rfl
@[simp] theorem State.endOk_phase : (s.endOk).phase = s.phase := rfl
@[simp] theorem State.endOk_fatal : (s.endOk).fatal = s.fatal := rfl
@[simp] theorem State.endOk_busy : (s.endOk).busy = false := rfl
@[simp] theorem State.endOk_clkPin : (s.endOk).clkPin = s.clkPin := rfl
@[simp] theorem State.endOk_strategy : (s.endOk).strategy = s.strategy := rfl
@[simp] theorem State.endOk_freq : (s.endOk).freq = s.freq := rfl
@[simp] theorem State.endOk_dataMask : (s.endOk).dataMask = s.dataMask := rfl
@[simp] theorem State.endOk_size : (s.endOk).size = s.size := rfl
@[simp] theorem State.endOk_plane : (s.endOk).plane = s.plane := rfl
@[simp] theorem State.endOk_calDone : (s.endOk).calDone = s.calDone := rfl
@[simp] theorem State.endOk_calRep : (s.endOk).calRep = s.calRep := rfl
@[simp] theorem State.endOk_calBusy : (s.endOk).calBusy = s.calBusy := rfl
@[simp] theorem State.endOk_errFlags : (s.endOk).errFlags = s.errFlags := rfl
@[simp] theorem State.endOk_lastErr : (s.endOk).lastErr = s.lastErr := rfl
@[simp] theorem State.endOk_txCount : (s.endOk).txCount = s.txCount + 1#32 := rfl
@[simp] theorem State.endOk_strips : (s.endOk).strips = s.strips := rfl
@[simp] theorem State.endOk_tick : (s.endOk).tick = s.tick := rfl
@[simp] theorem State.endOk_ph : (s.endOk).ph = s.ph := rfl
@[simp] theorem State.endOk_dmacs : (s.endOk).dmacs = s.dmacs := rfl
@[simp] theorem State.endOk_conblk : (s.endOk).conblk = s.conblk := rfl
@[simp] theorem State.endOk_srcp : (s.endOk).srcp = s.srcp := rfl
@[simp] theorem State.endOk_dstp : (s.endOk).dstp = s.dstp := rfl
@[simp] theorem State.endOk_rowCnt : (s.endOk).rowCnt = s.rowCnt := rfl
@[simp] theorem State.endOk_rowNo : (s.endOk).rowNo = s.rowNo := rfl
@[simp] theorem State.endOk_subCause : (s.endOk).subCause = s.subCause := rfl
@[simp] theorem State.endOk_chainBuilt : (s.endOk).chainBuilt = s.chainBuilt := rfl
@[simp] theorem State.endOk_ncb : (s.endOk).ncb = s.ncb := rfl
@[simp] theorem State.endOk_rowBase : (s.endOk).rowBase = s.rowBase := rfl
@[simp] theorem State.endOk_dmem : (s.endOk).dmem = s.dmem := rfl
@[simp] theorem State.endOk_rsp : (s.endOk).rsp = some (rspOf okCode Opc.transmit .none 0#32) := rfl
@[simp] theorem State.endOk_lines : (s.endOk).lines = s.lines := rfl
@[simp] theorem State.endOk_physTrace : (s.endOk).physTrace = s.physTrace := rfl
@[simp] theorem State.endOk_outPins : (s.endOk).outPins = s.outPins := rfl
@[simp] theorem State.endOk_outenTrace : (s.endOk).outenTrace = s.outenTrace := rfl
@[simp] theorem State.endOk_hostIn : (s.endOk).hostIn = s.hostIn := rfl
@[simp] theorem State.endOk_timeIn : (s.endOk).timeIn = s.timeIn := rfl
@[simp] theorem State.endOk_dmaFaultIn : (s.endOk).dmaFaultIn = s.dmaFaultIn := rfl
@[simp] theorem State.endOk_drawNo : (s.endOk).drawNo = s.drawNo := rfl

/-! A `TRANSMIT` that ends with `ERR_DMA` -/

@[simp] theorem State.endDmaError_params : (s.endDmaError).params = s.params := rfl
@[simp] theorem State.endDmaError_phase : (s.endDmaError).phase = s.phase := rfl
@[simp] theorem State.endDmaError_fatal : (s.endDmaError).fatal = s.fatal := rfl
@[simp] theorem State.endDmaError_busy : (s.endDmaError).busy = false := rfl
@[simp] theorem State.endDmaError_clkPin : (s.endDmaError).clkPin = s.clkPin := rfl
@[simp] theorem State.endDmaError_strategy : (s.endDmaError).strategy = s.strategy := rfl
@[simp] theorem State.endDmaError_freq : (s.endDmaError).freq = s.freq := rfl
@[simp] theorem State.endDmaError_dataMask : (s.endDmaError).dataMask = s.dataMask := rfl
@[simp] theorem State.endDmaError_size : (s.endDmaError).size = s.size := rfl
@[simp] theorem State.endDmaError_plane : (s.endDmaError).plane = s.plane := rfl
@[simp] theorem State.endDmaError_calDone : (s.endDmaError).calDone = s.calDone := rfl
@[simp] theorem State.endDmaError_calRep : (s.endDmaError).calRep = s.calRep := rfl
@[simp] theorem State.endDmaError_calBusy : (s.endDmaError).calBusy = s.calBusy := rfl
@[simp] theorem State.endDmaError_errFlags : (s.endDmaError).errFlags = s.errFlags ||| Err.dma.flag := rfl
@[simp] theorem State.endDmaError_lastErr : (s.endDmaError).lastErr = lastErrOf .dma s.subCause := rfl
@[simp] theorem State.endDmaError_txCount : (s.endDmaError).txCount = s.txCount := rfl
@[simp] theorem State.endDmaError_strips : (s.endDmaError).strips = s.strips := rfl
@[simp] theorem State.endDmaError_tick : (s.endDmaError).tick = s.tick := rfl
@[simp] theorem State.endDmaError_ph : (s.endDmaError).ph = s.ph := rfl
@[simp] theorem State.endDmaError_dmacs : (s.endDmaError).dmacs = s.dmacs := rfl
@[simp] theorem State.endDmaError_conblk : (s.endDmaError).conblk = s.conblk := rfl
@[simp] theorem State.endDmaError_srcp : (s.endDmaError).srcp = s.srcp := rfl
@[simp] theorem State.endDmaError_dstp : (s.endDmaError).dstp = s.dstp := rfl
@[simp] theorem State.endDmaError_rowCnt : (s.endDmaError).rowCnt = s.rowCnt := rfl
@[simp] theorem State.endDmaError_rowNo : (s.endDmaError).rowNo = s.rowNo := rfl
@[simp] theorem State.endDmaError_subCause : (s.endDmaError).subCause = s.subCause := rfl
@[simp] theorem State.endDmaError_chainBuilt : (s.endDmaError).chainBuilt = s.chainBuilt := rfl
@[simp] theorem State.endDmaError_ncb : (s.endDmaError).ncb = s.ncb := rfl
@[simp] theorem State.endDmaError_rowBase : (s.endDmaError).rowBase = s.rowBase := rfl
@[simp] theorem State.endDmaError_dmem : (s.endDmaError).dmem = s.dmem := rfl
@[simp] theorem State.endDmaError_rsp : (s.endDmaError).rsp = some (rspOf Err.dma.code Opc.transmit s.subCause 0#32) := rfl
@[simp] theorem State.endDmaError_lines : (s.endDmaError).lines = s.lines := rfl
@[simp] theorem State.endDmaError_physTrace : (s.endDmaError).physTrace = s.physTrace := rfl
@[simp] theorem State.endDmaError_outPins : (s.endDmaError).outPins = s.outPins := rfl
@[simp] theorem State.endDmaError_outenTrace : (s.endDmaError).outenTrace = s.outenTrace := rfl
@[simp] theorem State.endDmaError_hostIn : (s.endDmaError).hostIn = s.hostIn := rfl
@[simp] theorem State.endDmaError_timeIn : (s.endDmaError).timeIn = s.timeIn := rfl
@[simp] theorem State.endDmaError_dmaFaultIn : (s.endDmaError).dmaFaultIn = s.dmaFaultIn := rfl
@[simp] theorem State.endDmaError_drawNo : (s.endDmaError).drawNo = s.drawNo := rfl

end Sys2Proof.Machine
end

