-- ==== Sys2Proof/Laws/Plane.lean ====
section
/-! SUPPORT. The bus byte store and its byte view (20_memory.md R62 to R64), and the growth of the buffer
(10_state.md R28): what every bit of the plane is after each of them. -/

namespace Sys2Proof.Machine

theorem getLsbD_pinBit (p : Pin) (i : Nat) : (pinBit p).getLsbD i = decide (i = p.toNat) := by
  have := p.isLt
  simp only [pinBit, BitVec.getLsbD_twoPow]
  by_cases h : i = p.toNat
  · simp [h, this]
  · simp [h, Ne.symm h]

/-- Bit `i` of word `t'` after one of the 8 updates of `BusSetByte`. -/
theorem getLsbD_planeSetBit (p : Pin) (pl : List (Nat × Word)) (t t' i : Nat) (b : Bool) :
    (Memory.read (planeSetBit p pl t b) t').getLsbD i =
      if t' = t ∧ i = p.toNat then b else (Memory.read pl t').getLsbD i := by
  have hp := p.isLt
  unfold planeSetBit
  rw [Memory.read_write]
  by_cases ht : t' = t
  · subst ht
    by_cases hi : i = p.toNat
    · subst hi
      cases b <;> simp [getLsbD_pinBit, hp]
    · by_cases h32 : i < 32
      · have := getLsbD_pinBit p i
        cases b <;> simp_all
      · cases b <;> simp [hi, BitVec.getLsbD_of_ge _ _ (Nat.le_of_not_lt h32)]
  · simp [ht]

/-- Bit `i` of word `t` after the first `n` updates of `BusSetByte(p, pos, v)`. -/
theorem getLsbD_busSetByte_prefix (p : Pin) (pl : List (Nat × Word)) (pos : Nat) (v : Byte) (t i n : Nat) :
    (Memory.read ((List.range n).foldl
        (fun pl k => planeSetBit p pl (8 * pos + k) (v.getLsbD (7 - k))) pl) t).getLsbD i =
      if 8 * pos ≤ t ∧ t < 8 * pos + n ∧ i = p.toNat then v.getLsbD (7 - (t - 8 * pos))
      else (Memory.read pl t).getLsbD i := by
  induction n with
  | zero => simp; intros; omega
  | succ n ih =>
    rw [List.range_succ, List.foldl_append, List.foldl_cons, List.foldl_nil, getLsbD_planeSetBit, ih]
    by_cases hi : i = p.toNat
    · by_cases ht : t = 8 * pos + n
      · simp [ht, hi]
      · by_cases h1 : 8 * pos ≤ t ∧ t < 8 * pos + n
        · simp [ht, hi, h1, show t < 8 * pos + (n + 1) by omega]
        · simp only [ht, if_false, hi, and_true]
          rw [if_neg h1, if_neg (by omega)]
    · simp [hi]

/-- What `BusSetByte(p, pos, v)` makes of every bit of the plane (20_memory.md R63): bit `p` of the 8 words of the byte
position takes the byte's bits, most significant first; every other bit is as before. -/
theorem getLsbD_busSetByte (p : Pin) (pl : List (Nat × Word)) (pos : Nat) (v : Byte) (t i : Nat) :
    (Memory.read (busSetByte p pl pos v) t).getLsbD i =
      if t / 8 = pos ∧ i = p.toNat then v.getLsbD (7 - t % 8) else (Memory.read pl t).getLsbD i := by
  unfold busSetByte
  rw [getLsbD_busSetByte_prefix]
  by_cases h : t / 8 = pos
  · subst h
    by_cases hi : i = p.toNat
    · rw [if_pos ⟨by omega, by omega, hi⟩, if_pos ⟨rfl, hi⟩]
      congr 2; omega
    · simp [hi]
  · rw [if_neg (by omega), if_neg (by simp [h])]

/-- Bit `i` of `Byte(p, pos)` is bit `p` of word `8*pos + 7 - i` (20_memory.md R64). -/
theorem State.getLsbD_byteAt (s : State) (p : Pin) (pos i : Nat) (hi : i < 8) :
    (s.byteAt p pos).getLsbD i = (s.planeAt (8 * pos + (7 - i))).getLsbD p.toNat := by
  unfold State.byteAt
  simp only [BitVec.getLsbD_append, BitVec.getLsbD_ofBool]
  interval_cases i <;> simp

/-- Two bytes of two states agree where the plane's bits agree. -/
theorem State.byteAt_eq {s t : State} {p q : Pin} {pos pos' : Nat}
    (h : ∀ k, k < 8 → (s.planeAt (8 * pos + k)).getLsbD p.toNat = (t.planeAt (8 * pos' + k)).getLsbD q.toNat) :
    s.byteAt p pos = t.byteAt q pos' := by
  apply BitVec.eq_of_getLsbD_eq
  intro i hi
  rw [State.getLsbD_byteAt _ _ _ _ hi, State.getLsbD_byteAt _ _ _ _ hi, h (7 - i) (by omega)]

/-- The byte view of a plane. -/
def byteOf (pl : List (Nat × Word)) (p : Pin) (pos : Nat) : Byte := State.byteAt { State.reset with plane := pl } p pos

theorem State.byteAt_eq_byteOf (s : State) (p : Pin) (pos : Nat) : s.byteAt p pos = byteOf s.plane p pos := rfl

theorem getLsbD_byteOf (pl : List (Nat × Word)) (p : Pin) (pos i : Nat) (hi : i < 8) :
    (byteOf pl p pos).getLsbD i = (Memory.read pl (8 * pos + (7 - i))).getLsbD p.toNat :=
  State.getLsbD_byteAt _ _ _ _ hi

/-- The byte view after `BusSetByte` (20_memory.md R64): the byte written, every other byte as before. -/
theorem byteOf_busSetByte (p q : Pin) (pl : List (Nat × Word)) (pos pos' : Nat) (v : Byte) :
    byteOf (busSetByte p pl pos v) q pos' = if q = p ∧ pos' = pos then v else byteOf pl q pos' := by
  apply BitVec.eq_of_getLsbD_eq
  intro i hi
  rw [getLsbD_byteOf _ _ _ _ hi, getLsbD_busSetByte]
  have hq : q.toNat = p.toNat ↔ q = p := BitVec.toNat_inj
  by_cases h : q = p ∧ pos' = pos
  · obtain ⟨rfl, rfl⟩ := h
    rw [if_pos ⟨by omega, rfl⟩, if_pos ⟨rfl, rfl⟩]
    congr 1; omega
  · rw [if_neg h, if_neg, getLsbD_byteOf _ _ _ _ hi]
    rw [hq]
    rintro ⟨h1, h2⟩
    exact h ⟨h2, by omega⟩

theorem busSetAll_nil (p : Pin) (pl : List (Nat × Word)) : busSetAll p pl [] = pl := rfl

theorem busSetAll_cons (p : Pin) (pl : List (Nat × Word)) (w : Nat × Byte) (ws : List (Nat × Byte)) :
    busSetAll p pl (w :: ws) = busSetAll p (busSetByte p pl w.1 w.2) ws := by
  rw [busSetAll, busSetAll, List.foldl_cons]

/-- A byte no call of `BusSetByte` names is as before. -/
theorem byteOf_busSetAll_other (p q : Pin) (pl : List (Nat × Word)) (ws : List (Nat × Byte)) (pos : Nat)
    (h : q ≠ p ∨ ∀ w ∈ ws, w.1 ≠ pos) : byteOf (busSetAll p pl ws) q pos = byteOf pl q pos := by
  induction ws generalizing pl with
  | nil => rfl
  | cons w ws ih =>
    rw [busSetAll_cons, ih, byteOf_busSetByte, if_neg]
    · rintro ⟨rfl, rfl⟩
      rcases h with h | h
      · exact h rfl
      · exact h w (List.mem_cons_self ..) rfl
    · exact h.imp id fun h w hw => h w (List.mem_cons_of_mem _ hw)

theorem mem_placed {base : Nat} {vs : List Byte} {w : Nat × Byte} (h : w ∈ placed base vs) :
    base ≤ w.1 ∧ w.1 < base + vs.length := by
  induction vs generalizing base with
  | nil => simp [placed] at h
  | cons v vs ih =>
    rcases List.mem_cons.1 h with rfl | h
    · simp
    · have := ih h
      simp only [List.length_cons]; omega

/-- Every placed byte lies below a bound exactly when the whole run does. -/
theorem all_placed_lt (base n : Nat) (vs : List Byte) (h : base + vs.length ≤ n) :
    (placed base vs).all (fun w => w.1 < n) = true := by
  simp only [List.all_eq_true, decide_eq_true_eq]
  intro w hw
  have := mem_placed hw
  omega

/-- A run of bytes written from `base` up is read back; every other byte is as before. -/
theorem byteOf_busSetAll_placed (p q : Pin) (pl : List (Nat × Word)) (base : Nat) (vs : List Byte) (pos : Nat) :
    byteOf (busSetAll p pl (placed base vs)) q pos =
      if q = p ∧ base ≤ pos ∧ pos < base + vs.length then vs.getD (pos - base) 0#8 else byteOf pl q pos := by
  induction vs generalizing base pl with
  | nil => rw [if_neg (by simp)]; rfl
  | cons v vs ih =>
    rw [placed, busSetAll_cons, ih, byteOf_busSetByte]
    by_cases hq : q = p
    · by_cases h0 : pos = base
      · subst h0; simp [hq]
      · by_cases h1 : base + 1 ≤ pos ∧ pos < base + 1 + vs.length
        · rw [if_pos ⟨hq, h1⟩, if_pos ⟨hq, by omega, by simp only [List.length_cons]; omega⟩]
          obtain ⟨k, hk⟩ : ∃ k, pos - base = k + 1 := ⟨pos - base - 1, by omega⟩
          rw [show pos - (base + 1) = k by omega, hk, List.getD_cons_succ]
        · rw [if_neg (by tauto), if_neg (by tauto), if_neg (by simp only [List.length_cons]; omega)]
    · simp [hq]

/-- The plane keeps its canonical form. -/
theorem wf_busSetAll (p : Pin) (pl : List (Nat × Word)) (ws : List (Nat × Byte)) (h : Memory.wf pl = true) :
    Memory.wf (busSetAll p pl ws) = true := by
  have one : ∀ (pl : List (Nat × Word)) pos (v : Byte), Memory.wf pl = true → Memory.wf (busSetByte p pl pos v) = true := by
    intro pl pos v h
    unfold busSetByte
    induction List.range 8 generalizing pl with
    | nil => exact h
    | cons k ks ih => exact ih _ (Memory.wf_write _ _ h)
  induction ws generalizing pl with
  | nil => exact h
  | cons w ws ih =>
    rw [busSetAll_cons]
    exact ih _ (one _ _ _ h)

/-- The plane lists no tick at or above the bound when all positions written lie below it. -/
theorem listed_busSetAll {p : Pin} {pl : List (Nat × Word)} {ws : List (Nat × Byte)} {n : Nat}
    (h : ∀ e ∈ pl, e.1 < 8 * n) (hw : ∀ w ∈ ws, w.1 < n) : ∀ e ∈ busSetAll p pl ws, e.1 < 8 * n := by
  have one : ∀ (pl : List (Nat × Word)) pos (v : Byte), (∀ e ∈ pl, e.1 < 8 * n) → pos < n →
      ∀ e ∈ busSetByte p pl pos v, e.1 < 8 * n := by
    intro pl pos v h hp
    unfold busSetByte
    have hk : ∀ k ∈ List.range 8, k < 8 := fun k hk => List.mem_range.1 hk
    generalize List.range 8 = l at hk
    induction l generalizing pl with
    | nil => exact h
    | cons k ks ih =>
      apply ih
      · intro e he
        rcases Memory.listed_write he with rfl | he
        · have := hk k (List.mem_cons_self ..)
          simp only; omega
        · exact h e he
      · exact fun k hk' => hk k (List.mem_cons_of_mem _ hk')
  induction ws generalizing pl with
  | nil => exact h
  | cons w ws ih =>
    rw [busSetAll_cons]
    exact ih (one _ _ _ h (hw w (List.mem_cons_self ..))) fun x hx => hw x (List.mem_cons_of_mem _ hx)

/-- Lanes other than `p` of every word are as before (40_bus_commands.md R134). -/
theorem getLsbD_busSetAll_lane (p : Pin) (pl : List (Nat × Word)) (ws : List (Nat × Byte)) (t i : Nat)
    (hi : i ≠ p.toNat) :
    (Memory.read (busSetAll p pl ws) t).getLsbD i = (Memory.read pl t).getLsbD i := by
  induction ws generalizing pl with
  | nil => rfl
  | cons w ws ih => rw [busSetAll_cons, ih, getLsbD_busSetByte, if_neg (by simp [hi])]

/-- When `State.busSetBytes` answers, and what with. -/
theorem State.busSetBytes_ok {s t : State} {p : Pin} {ws : List (Nat × Byte)} (h : s.busSetBytes p ws = .ok t) :
    s.registered p = true ∧ (∀ w ∈ ws, w.1 < s.size.toNat) ∧ t = { s with plane := busSetAll p s.plane ws } := by
  unfold State.busSetBytes at h
  split at h
  · next hc =>
    simp only [Bool.and_eq_true, List.all_eq_true, decide_eq_true_eq] at hc
    exact ⟨hc.1, hc.2, (Except.ok.inj h).symm⟩
  · cases h

/-- `State.busSetBytes` answers under the preconditions of 20_memory.md R63. -/
theorem State.busSetBytes_eq (s : State) (p : Pin) (ws : List (Nat × Byte)) (hr : s.registered p = true)
    (hw : ws.all (fun w => w.1 < s.size.toNat) = true) :
    s.busSetBytes p ws = .ok { s with plane := busSetAll p s.plane ws } := by
  unfold State.busSetBytes
  rw [hr, hw]; rfl

/-- What registering a line does, said once (40_bus_commands.md R132). -/
theorem State.registerLine_eq (s : State) (p : Pin) (len : Nat) :
    s.registerLine p len =
      { s with
        outPins := s.outPins ||| pinBit p
        outenTrace := s.outenTrace ++ [p]
        dataMask := s.dataMask ||| pinBit p
        plane := if len > s.size.toNat then Memory.below s.plane (8 * s.size.toNat) else s.plane
        size := if len > s.size.toNat then BitVec.ofNat 32 len else s.size } := by
  unfold State.registerLine
  by_cases h : len > s.size.toNat
  · simp [h, State.requestOutput]
  · simp [h, State.requestOutput]

/-- Growth zero-fills (10_state.md R28): a byte of the old buffer is as before, a byte of the new region is 0. -/
theorem byteOf_below (pl : List (Nat × Word)) (p : Pin) (n pos : Nat) :
    byteOf (Memory.below pl (8 * n)) p pos = if pos < n then byteOf pl p pos else 0#8 := by
  apply BitVec.eq_of_getLsbD_eq
  intro i hi
  rw [getLsbD_byteOf _ _ _ _ hi, Memory.read_below]
  by_cases h : pos < n
  · rw [if_pos (by omega), if_pos h, getLsbD_byteOf _ _ _ _ hi]
  · rw [if_neg (by omega), if_neg h]; simp

end Sys2Proof.Machine
end

