-- ==== Sys2Proof/Laws/Commands.lean ====
section
/-! SUPPORT. The shared operations of the commands, each said once: failing, the gate, registering a line, writing a
pixel, the bytes of a frame (60_exceptions.md R312, R313, 40_bus_commands.md R132, 43_strip_factory.md R233,
44_pixel_encoders.md R260). -/

namespace Sys2Proof.Machine

/-! Responses (30_encoding.md R108). -/

/-- The response of a command that ends with `OK`. -/
theorem rspOf_ok (opc : BitVec 8) (v : Word) : rspOf okCode opc .none v = okRsp opc v := by
  have h : ∀ v : Word, (v ++ 0#8 ++ 0#8 : BitVec 48) = v ++ 0#16 := by
    intro v
    apply BitVec.eq_of_getLsbD_eq
    intro i hi
    simp only [BitVec.getLsbD_append, BitVec.getLsbD_zero]
    by_cases h1 : i < 8
    · simp [h1, show i < 16 by omega]
    · by_cases h2 : i < 16
      · simp [h1, h2, show i - 8 < 8 by omega]
      · simp [h1, h2, show ¬i - 8 < 8 by omega, show i - 8 - 8 = i - 16 by omega]
  exact congrArg (fun x : BitVec 48 => x ++ opc ++ okCode) (h v)

theorem State.respond_eq (s : State) (opc : BitVec 8) (v : Word) :
    s.respond opc v = { s with rsp := some (okRsp opc v) } := by
  unfold State.respond
  rw [rspOf_ok]

theorem State.status_respond (s : State) (opc : BitVec 8) (v : Word) : (s.respond opc v).status = some 0#8 := by
  rw [State.respond_eq]
  show some ((okRsp opc v).extractLsb' 0 8) = some 0#8
  congr 1
  apply BitVec.eq_of_getLsbD_eq
  intro i hi
  unfold okRsp
  rw [BitVec.getLsbD_extractLsb', BitVec.getLsbD_append]
  simp [hi]

theorem State.status_failed (s : State) (opc c : BitVec 8) : (s.failed opc c).status = some c := by
  show some ((errRsp c opc 0x00#8).extractLsb' 0 8) = some c
  congr 1
  apply BitVec.eq_of_getLsbD_eq
  intro i hi
  unfold errRsp
  rw [BitVec.getLsbD_extractLsb', BitVec.getLsbD_append]
  simp [hi]

/-! Failing and the gate. -/

theorem State.raise_eq_failed (s : State) (opc : BitVec 8) (e : Err) : s.raise opc e .none = s.failed opc e.code := by
  cases e <;> rfl

/-- A command that fails by a check changes the error record and the response alone (R312). -/
theorem fails_eq (s : State) (opc : BitVec 8) (e : Err) : fails s opc e = .next (s.failed opc e.code) := by
  unfold fails
  rw [State.raise_eq_failed]

theorem failsFatally_eq (s : State) (opc : BitVec 8) :
    failsFatally s opc = .next (({ s with fatal := true } : State).failed opc 6#8) := by
  unfold failsFatally
  rw [State.raise_eq_failed]
  rfl

/-- The gate lets a command through exactly when the machine is ready (R313 steps 2, 3). -/
theorem State.gate_none_iff (s : State) : s.gate = none ↔ s.Ready := by
  unfold State.gate State.Ready
  cases s.fatal <;> simp

theorem State.gate_cases (s : State) :
    (s.gate = some .fatal ∧ s.fatal = true) ∨
      (s.gate = some .state ∧ s.fatal = false ∧ s.phase = .unconfigured) ∨ (s.gate = none ∧ s.Ready) := by
  unfold State.gate State.Ready
  cases s.fatal <;> by_cases h : s.phase = .unconfigured <;> simp [h]

theorem State.lockPinError_none_iff (s : State) (p : Pin) :
    s.lockPinError p = none ↔ s.phase ≠ .locked ∧ s.pinValid p = true ∧ p ≠ s.clkPin := by
  unfold State.lockPinError
  by_cases h : s.phase = .locked <;> by_cases h1 : s.pinValid p = true <;> by_cases h2 : p = s.clkPin <;> simp [h, h1, h2]

theorem State.lockPinError_cases (s : State) (p : Pin) :
    (s.lockPinError p = some .locked ∧ s.phase = .locked) ∨
      (s.lockPinError p = some .pin ∧ s.phase ≠ .locked ∧ (s.pinValid p = false ∨ p = s.clkPin)) ∨
      (s.lockPinError p = none ∧ s.phase ≠ .locked ∧ s.pinValid p = true ∧ p ≠ s.clkPin) := by
  unfold State.lockPinError
  by_cases h : s.phase = .locked <;> cases h1 : s.pinValid p <;> by_cases h2 : p = s.clkPin <;> simp [h, h2]

theorem State.overCapacity_iff (s : State) (len : Nat) : s.overCapacity len = true ↔ s.params.maxBytes < len := by
  simp [State.overCapacity]

theorem State.imageTooLarge_iff (s : State) (len : Nat) :
    s.imageTooLarge len = true ↔
      s.strategy = .dma ∧ s.params.dmaMemBytes < needBytes s.params (max s.size.toNat len) := by
  simp [State.imageTooLarge]

/-- Every check of a registration passes (R132, R233). -/
theorem State.CanRegister.checks {s : State} {p : Pin} {len : Nat} (h : s.CanRegister p len) :
    s.gate = none ∧ s.lockPinError p = none ∧ s.overCapacity len = false ∧ s.imageTooLarge len = false := by
  refine ⟨s.gate_none_iff.2 ⟨h.not_fatal, by rw [h.opened]; decide⟩,
    (s.lockPinError_none_iff p).2 ⟨by rw [h.opened]; decide, h.pin_valid, h.not_clock⟩, ?_, ?_⟩
  · rw [← Bool.not_eq_true, State.overCapacity_iff]
    have := h.capacity
    omega
  · rw [← Bool.not_eq_true, State.imageTooLarge_iff]
    rintro ⟨h1, h2⟩
    have := h.fits h1
    omega

/-! Pins, masks and strips. -/

theorem pinBit_eq (p : Pin) : pinBit p = 1#32 <<< p.toNat := by revert p; decide

theorem State.registered_registerLine (s : State) (p q : Pin) (len : Nat) :
    (s.registerLine p len).registered q = (s.registered q || decide (q = p)) := by
  rw [State.registerLine_eq]
  simp only [State.registered, BitVec.getLsbD_or, getLsbD_pinBit, BitVec.toNat_inj]

theorem State.strip_setStrip (s : State) (p q : Pin) (S : Strip) :
    (s.setStrip p S).strip q = if q = p then S else s.strip q := by
  unfold State.strip State.setStrip
  by_cases h : q = p
  · subst h; simp
  · have : p.toNat ≠ q.toNat := fun e => h (BitVec.toNat_inj.1 e.symm)
    simp [h, Vector.getElem_set_ne _ _ this]

theorem Order.ofCode_code (o : Order) : Order.ofCode o.code = some o := by cases o <;> rfl

theorem Order.ofCode_none_iff (c : BitVec 3) : Order.ofCode c = none ↔ 5 < c.toNat := by revert c; decide

theorem Order.ofCode_some (c : BitVec 3) (o : Order) (h : Order.ofCode c = some o) : o.code = c := by
  revert h; cases o <;> revert c <;> decide

/-- `slotX` and the letters of the order's name are inverse (30_encoding.md R101). -/
theorem Order.chanAt_slot (o : Order) (X : Chan) : o.chanAt (o.slot X) = X := by cases o <;> cases X <;> rfl

theorem Order.slot_lt (o : Order) (X : Chan) : o.slot X < 3 := by cases o <;> cases X <;> decide

theorem Order.slot_chanAt (o : Order) (k : Nat) (h : k < 3) : o.slot (o.chanAt k) = k := by
  obtain rfl | rfl | rfl : k = 0 ∨ k = 1 ∨ k = 2 := by omega
  all_goals cases o <;> rfl

/-! Frames (R231). -/

theorem frameBytes_eq (proto : Proto) (n : Nat) : proto.frameLen n = frameBytes proto n := by
  cases proto <;> simp [Proto.frameLen, frameBytes, Proto.startLen, Proto.pixW, Proto.endLen, ceilDiv] <;> omega

theorem Proto.black_length (proto : Proto) : proto.black.length = proto.pixW := by cases proto <;> rfl

theorem Proto.blackFrame_length (proto : Proto) (n : Nat) : (proto.blackFrame n).length = proto.frameLen n := by
  simp [Proto.blackFrame, Proto.frameLen, Proto.black_length, Nat.mul_comm, Nat.add_assoc]

/-- Equal pieces: byte `j` of piece `i`. -/
theorem getD_flatten_replicate (piece : List Byte) (n i j : Nat) (hj : j < piece.length) (hi : i < n) :
    (List.replicate n piece).flatten[piece.length * i + j]? = piece[j]? := by
  induction n generalizing i with
  | zero => omega
  | succ n ih =>
    rw [List.replicate_succ, List.flatten_cons]
    rcases Nat.eq_zero_or_pos i with rfl | h0
    · rw [Nat.mul_zero, Nat.zero_add, List.getElem?_append_left hj]
    · obtain ⟨i, rfl⟩ : ∃ i', i = i' + 1 := ⟨i - 1, by omega⟩
      rw [List.getElem?_append_right (by rw [Nat.mul_add]; omega),
        show piece.length * (i + 1) + j - piece.length = piece.length * i + j by rw [Nat.mul_add]; omega]
      exact ih i (by omega)

/-- The all-black frame, byte by byte (R231). -/
theorem blackFrame_byte (proto : Proto) (n pos : Nat) (h : pos < proto.frameLen n) :
    (proto.blackFrame n)[pos]?.getD 0#8 = blackByte proto n pos := by
  have hlen : (List.replicate proto.startLen 0x00#8 ++ (List.replicate n proto.black).flatten).length =
      proto.startLen + proto.pixW * n := by
    simp [Proto.black_length, Nat.mul_comm n]
  unfold Proto.blackFrame
  by_cases h1 : pos < proto.startLen
  · rw [List.append_assoc, List.getElem?_append_left (by simpa using h1), List.getElem?_replicate, if_pos h1]
    clear hlen
    cases proto <;> simp only [blackByte, Proto.startLen, Option.getD_some] at *
    all_goals rw [if_neg (by omega)]
  by_cases h2 : pos < proto.startLen + proto.pixW * n
  · have hw : 0 < proto.pixW := by cases proto <;> decide
    have hj := Nat.mod_lt (pos - proto.startLen) hw
    have hi : (pos - proto.startLen) / proto.pixW < n := Nat.div_lt_of_lt_mul (by omega)
    have e := getD_flatten_replicate proto.black n ((pos - proto.startLen) / proto.pixW)
      ((pos - proto.startLen) % proto.pixW) (by rw [Proto.black_length]; exact hj) hi
    rw [Proto.black_length, Nat.div_add_mod] at e
    rw [List.getElem?_append_left (by rw [hlen]; exact h2), List.getElem?_append_right (by simp; omega),
      List.length_replicate, e]
    generalize hq : (pos - proto.startLen) % proto.pixW = j at *
    cases proto <;> simp only [Proto.startLen, Proto.pixW, Proto.black, blackByte] at *
    · obtain rfl | rfl | rfl : j = 0 ∨ j = 1 ∨ j = 2 := by omega
      all_goals rfl
    · obtain rfl | rfl : j = 0 ∨ j = 1 := by omega
      · rw [if_pos (by omega)]; rfl
      · rw [if_neg (by omega)]; rfl
    · obtain rfl | rfl | rfl : j = 0 ∨ j = 1 ∨ j = 2 := by omega
      all_goals rw [if_pos (by omega)]; rfl
    all_goals
      by_cases hj0 : j = 0
      · subst hj0
        rw [if_pos (by omega)]
        rfl
      · rw [if_neg (by omega)]
        obtain rfl | rfl | rfl : j = 1 ∨ j = 2 ∨ j = 3 := by omega
        all_goals rfl
  · rw [List.getElem?_append_right (by rw [hlen]; omega), List.getElem?_replicate]
    have : ∀ b : Prop, [Decidable b] → (if b then some 0x00#8 else none).getD 0#8 = 0x00#8 := by
      intro b _
      split <;> rfl
    rw [this]
    cases proto <;> simp only [blackByte, Proto.startLen, Proto.pixW] at *
    all_goals rw [if_neg (by omega)]

/-- The frame of a strip with pixel `idx` reaches past that pixel (10_state.md R35). -/
theorem Strip.pixel_in_frame (S : Strip) {i : Nat} (h : i < S.count.toNat) :
    S.pixelBase i + S.proto.pixW ≤ S.frameLen := by
  unfold Strip.pixelBase Strip.frameLen Proto.frameLen
  have : S.proto.pixW * i + S.proto.pixW ≤ S.proto.pixW * S.count.toNat := by
    rw [← Nat.mul_succ]; exact Nat.mul_le_mul_left _ h
  omega

theorem pixelBytes8_length (S : Strip) (v : Chan → Nat) : (pixelBytes8 S v).length = S.proto.pixW := by
  unfold pixelBytes8
  split <;> rename_i h <;> rw [h] <;> rfl

theorem pixelBytes16_length (P : Params) (S : Strip) (v : Chan → Nat) :
    (pixelBytes16 P S v).length = S.proto.pixW := by
  unfold pixelBytes16
  split <;> rename_i h <;> rw [h] <;> rfl

/-! Pixel writes. -/

/-- The state after the bytes `vs` are stored for pin `p` from position `base` up. -/
def State.withBytes (s : State) (p : Pin) (base : Nat) (vs : List Byte) : State :=
  { s with plane := busSetAll p s.plane (placed base vs) }

/-- What is read back after a run of byte stores, everywhere (20_memory.md R63, R64). -/
theorem State.byteAt_withBytes (s : State) (p q : Pin) (base : Nat) (vs : List Byte) (pos : Nat) :
    (s.withBytes p base vs).byteAt q pos =
      if q = p ∧ base ≤ pos ∧ pos < base + vs.length then vs[pos - base]?.getD 0#8 else s.byteAt q pos :=
  byteOf_busSetAll_placed p q s.plane base vs pos

/-- A pixel write that passes its checks: the pixel's bytes are stored, `OK` is answered (R260, R262). -/
theorem setPixel_eq {s : State} {pin : Pin} {idx : BitVec 16} (h : s.CanWritePixel pin idx) (opc : BitVec 8)
    (bytes : Strip → List Byte) (hb : ∀ S, (bytes S).length = S.proto.pixW) :
    setPixel opc pin idx bytes s =
      .next ((s.withBytes pin ((s.strip pin).pixelBase idx.toNat) (bytes (s.strip pin))).respond opc 0#32) := by
  have h1 := h.index_in_range
  have h2 := Strip.pixel_in_frame (s.strip pin) h1
  have h3 := h.frame_fits
  have hw := State.busSetBytes_eq s pin (placed ((s.strip pin).pixelBase idx.toNat) (bytes (s.strip pin))) h.registered
    (all_placed_lt _ _ _ (by rw [hb]; omega))
  unfold setPixel
  rw [s.gate_none_iff.2 h.ready]
  simp only [h.strip_valid, Bool.not_true, Bool.false_eq_true, if_false]
  rw [if_neg (by omega), hw]
  rfl

/-- Everything a pixel write can do when it takes a step. -/
theorem setPixel_cases {opc : BitVec 8} {pin : Pin} {idx : BitVec 16} {bytes : Strip → List Byte} {s t : State}
    (h : setPixel opc pin idx bytes s = .next t) :
    (∃ c, t = s.failed opc c ∧ ((s.gate = some .fatal ∧ c = 8#8) ∨ (s.gate = some .state ∧ c = 2#8) ∨
        (s.Ready ∧ (s.strip pin).valid = false ∧ c = 9#8))) ∨
      (s.Ready ∧ (s.strip pin).valid = true ∧ (s.strip pin).count.toNat ≤ idx.toNat ∧ t = s.respond opc 0#32) ∨
      (s.Ready ∧ (s.strip pin).valid = true ∧ idx.toNat < (s.strip pin).count.toNat ∧ s.registered pin = true ∧
        (∀ w ∈ placed ((s.strip pin).pixelBase idx.toNat) (bytes (s.strip pin)), w.1 < s.size.toNat) ∧
        t = (s.withBytes pin ((s.strip pin).pixelBase idx.toNat) (bytes (s.strip pin))).respond opc 0#32) := by
  unfold setPixel at h
  rcases s.gate_cases with ⟨hg, _⟩ | ⟨hg, _⟩ | ⟨hg, hr⟩
  · rw [hg] at h
    simp only [fails_eq, Host.Outcome.next.injEq] at h
    exact .inl ⟨_, h.symm, .inl ⟨hg, rfl⟩⟩
  · rw [hg] at h
    simp only [fails_eq, Host.Outcome.next.injEq] at h
    exact .inl ⟨_, h.symm, .inr (.inl ⟨hg, rfl⟩)⟩
  · rw [hg] at h
    simp only at h
    cases hv : (s.strip pin).valid
    · rw [hv] at h
      simp only [Bool.not_false, if_true, fails_eq, Host.Outcome.next.injEq] at h
      exact .inl ⟨_, h.symm, .inr (.inr ⟨hr, rfl, rfl⟩)⟩
    · rw [hv] at h
      simp only [Bool.not_true, Bool.false_eq_true, if_false] at h
      split at h
      · next hi => exact .inr (.inl ⟨hr, rfl, hi, (Host.Outcome.next.inj h).symm⟩)
      · next hi =>
        cases hb : s.busSetBytes pin (placed ((s.strip pin).pixelBase idx.toNat) (bytes (s.strip pin))) with
        | error f => rw [hb] at h; cases h
        | ok u =>
          rw [hb] at h
          obtain ⟨h1, h2, h3⟩ := State.busSetBytes_ok hb
          subst h3
          exact .inr (.inr ⟨hr, rfl, by omega, h1, h2, (Host.Outcome.next.inj h).symm⟩)

/-! Constructors. -/

/-- The state after a constructor has had its effect, before its answer (R233). -/
def State.withStrip (s : State) (proto : Proto) (pin : Pin) (o : Order) (count : BitVec 16) : State :=
  (s.createStrip proto pin o count).withBytes pin 0 (proto.blackFrame count.toNat)

/-- What a constructor changes, said once. -/
theorem State.withStrip_eq (s : State) (proto : Proto) (pin : Pin) (o : Order) (count : BitVec 16) :
    s.withStrip proto pin o count =
      { s with
        outPins := s.outPins ||| pinBit pin
        outenTrace := s.outenTrace ++ [pin]
        dataMask := s.dataMask ||| pinBit pin
        size := (s.withStrip proto pin o count).size
        plane := (s.withStrip proto pin o count).plane
        strips := s.strips.set pin.toNat (Strip.fresh proto o count) pin.isLt } := by
  unfold State.withStrip State.withBytes State.createStrip
  rw [State.registerLine_eq]
  rfl

theorem State.registerLine_size (s : State) (p : Pin) {len : Nat} (h : len < 2 ^ 32) :
    (s.registerLine p len).size.toNat = max s.size.toNat len := by
  rw [State.registerLine_eq]
  simp only
  split
  · rw [BitVec.toNat_ofNat, Nat.mod_eq_of_lt h]; omega
  · omega

/-- A constructor that passes its checks (R233). -/
theorem mkStrip_eq {s : State} {pin : Pin} {proto : Proto} {count : BitVec 16}
    (h : s.CanRegister pin (proto.frameLen count.toNat)) (hv : (s.strip pin).valid = false)
    (hm : proto.frameLen count.toNat < 2 ^ 32) (opc : BitVec 8) (o : Order) :
    mkStrip opc proto pin o.code count s =
      .next ((s.withStrip proto pin o count).respond opc (s.withStrip proto pin o count).size) := by
  obtain ⟨h1, h2, h3, h4⟩ := h.checks
  have hr : (s.createStrip proto pin o count).registered pin = true := by
    have : (s.createStrip proto pin o count).registered pin =
        (s.registerLine pin (proto.frameLen count.toNat)).registered pin := rfl
    rw [this, State.registered_registerLine]
    simp
  have hs : (s.createStrip proto pin o count).size.toNat = max s.size.toNat (proto.frameLen count.toNat) :=
    s.registerLine_size pin hm
  have hw := State.busSetBytes_eq (s.createStrip proto pin o count) pin (placed 0 (proto.blackFrame count.toNat)) hr
    (all_placed_lt _ _ _ (by rw [Proto.blackFrame_length, hs]; omega))
  unfold mkStrip
  rw [h1]
  simp only [h2, Order.ofCode_code, hv, h3, h4, hw]
  rfl

/-- Everything a constructor can do when it takes a step. -/
theorem mkStrip_cases {opc : BitVec 8} {proto : Proto} {pin : Pin} {ord : BitVec 3} {count : BitVec 16} {s t : State}
    (h : mkStrip opc proto pin ord count s = .next t) :
    (∃ c, t = s.failed opc c ∧
        ((s.gate = some .fatal ∧ c = 8#8) ∨ (s.gate = some .state ∧ c = 2#8) ∨
          (s.Ready ∧ s.phase = .locked ∧ c = 4#8) ∨
          (s.Ready ∧ s.phase ≠ .locked ∧ (c = 3#8 ∨ c = 9#8 ∨ c = 6#8)))) ∨
      (s.Ready ∧ s.phase ≠ .locked ∧ s.strategy = .dma ∧
        t = ({ s with fatal := true } : State).failed opc 6#8) ∨
      ∃ o, ord = o.code ∧ s.CanRegister pin (proto.frameLen count.toNat) ∧ (s.strip pin).valid = false ∧
        t = (s.withStrip proto pin o count).respond opc (s.withStrip proto pin o count).size := by
  unfold mkStrip at h
  rcases s.gate_cases with ⟨hg, _⟩ | ⟨hg, _⟩ | ⟨hg, hr⟩
  · rw [hg] at h
    simp only [fails_eq, Host.Outcome.next.injEq] at h
    exact .inl ⟨_, h.symm, .inl ⟨hg, rfl⟩⟩
  · rw [hg] at h
    simp only [fails_eq, Host.Outcome.next.injEq] at h
    exact .inl ⟨_, h.symm, .inr (.inl ⟨hg, rfl⟩)⟩
  rw [hg] at h
  simp only at h
  rcases s.lockPinError_cases pin with ⟨hl, hp⟩ | ⟨hl, hp, _⟩ | ⟨hl, hp, hpv, hpc⟩
  · rw [hl] at h
    simp only [fails_eq, Host.Outcome.next.injEq] at h
    exact .inl ⟨_, h.symm, .inr (.inr (.inl ⟨hr, hp, rfl⟩))⟩
  · rw [hl] at h
    simp only [fails_eq, Host.Outcome.next.injEq] at h
    exact .inl ⟨_, h.symm, .inr (.inr (.inr ⟨hr, hp, .inl rfl⟩))⟩
  rw [hl] at h
  simp only at h
  have fail : ∀ e : Err, e.code = 3#8 ∨ e.code = 9#8 ∨ e.code = 6#8 → fails s opc e = .next t →
      ∃ c, t = s.failed opc c ∧
        ((s.gate = some .fatal ∧ c = 8#8) ∨ (s.gate = some .state ∧ c = 2#8) ∨
          (s.Ready ∧ s.phase = .locked ∧ c = 4#8) ∨
          (s.Ready ∧ s.phase ≠ .locked ∧ (c = 3#8 ∨ c = 9#8 ∨ c = 6#8))) := fun e he h =>
    ⟨e.code, (Host.Outcome.next.inj ((fails_eq s opc e).symm.trans h)).symm, .inr (.inr (.inr ⟨hr, hp, he⟩))⟩
  cases ho : Order.ofCode ord with
  | none => rw [ho] at h; exact .inl (fail .strip (.inr (.inl rfl)) h)
  | some o =>
    rw [ho] at h
    simp only at h
    cases hv : (s.strip pin).valid
    case true => rw [hv] at h; exact .inl (fail .strip (.inr (.inl rfl)) h)
    rw [hv] at h
    simp only [Bool.false_eq_true, if_false] at h
    cases hc : s.overCapacity (proto.frameLen count.toNat)
    case true => rw [hc] at h; exact .inl (fail .alloc (.inr (.inr rfl)) h)
    rw [hc] at h
    simp only [Bool.false_eq_true, if_false] at h
    cases hi : s.imageTooLarge (proto.frameLen count.toNat)
    case true =>
      rw [hi] at h
      simp only [if_true, failsFatally_eq, Host.Outcome.next.injEq] at h
      exact .inr (.inl ⟨hr, hp, ((State.imageTooLarge_iff _ _).1 hi).1, h.symm⟩)
    rw [hi] at h
    simp only [Bool.false_eq_true, if_false] at h
    cases hb : (s.createStrip proto pin o count).busSetBytes pin (placed 0 (proto.blackFrame count.toNat)) with
    | error f => rw [hb] at h; cases h
    | ok u =>
      rw [hb] at h
      obtain ⟨h1, h2, h3⟩ := State.busSetBytes_ok hb
      subst h3
      refine .inr (.inr ⟨o, (Order.ofCode_some ord o ho).symm, ⟨hr.1, ?_, hpv, hpc, ?_, ?_⟩, rfl,
        (Host.Outcome.next.inj h).symm⟩)
      · have := hr.2
        cases hph : s.phase <;> simp_all
      · have := (State.overCapacity_iff s (proto.frameLen count.toNat)).not.1 (by rw [hc]; decide)
        omega
      · intro hd
        have := (State.imageTooLarge_iff s (proto.frameLen count.toNat)).not.1 (by rw [hi]; decide)
        exact Nat.le_of_not_lt fun hlt => this ⟨hd, hlt⟩

end Sys2Proof.Machine
end

