-- ==== Sys2Proof/Laws/Dmem.lean ====
section
/-! SUPPORT. Runs of word writes to `DMEM` (20_memory.md R67): what is read back after them, and what they keep. -/

namespace Sys2Proof.Machine

/-- The memory after a run of word writes. -/
def writeWords (m : List Host.Cell) (ws : List (Nat × Word)) : List Host.Cell :=
  ws.foldl (fun m w => Memory.writeWord m w.1 w.2) m

@[simp] theorem writeWords_nil (m : List Host.Cell) : writeWords m [] = m := rfl

@[simp] theorem writeWords_cons (m : List Host.Cell) (w : Nat × Word) (ws : List (Nat × Word)) :
    writeWords m (w :: ws) = writeWords (Memory.writeWord m w.1 w.2) ws := rfl

/-- When `State.memWrites` answers, and what with. -/
theorem State.memWrites_ok {s t : State} {ws : List (Nat × Word)} (h : s.memWrites ws = .ok t) :
    (∀ w ∈ ws, s.wordInDmem w.1 = true) ∧ t = { s with dmem := writeWords s.dmem ws } := by
  unfold State.memWrites at h
  split at h
  · next hc => exact ⟨by simpa using hc, (Except.ok.inj h).symm⟩
  · cases h

/-- `State.memWrites` answers when every word lies in `DMEM`. -/
theorem State.memWrites_eq (s : State) (ws : List (Nat × Word)) (h : ∀ w ∈ ws, s.wordInDmem w.1 = true) :
    s.memWrites ws = .ok { s with dmem := writeWords s.dmem ws } := by
  unfold State.memWrites
  rw [if_pos (by simpa using h)]; rfl

theorem State.wordInDmem_iff (s : State) (a : Nat) :
    s.wordInDmem a = true ↔
      s.params.dmaBase.toNat ≤ a ∧ a + 4 ≤ s.params.dmaBase.toNat + s.params.dmaMemBytes := by
  simp [State.wordInDmem]

/-- A byte outside every word written reads as before. -/
theorem read_writeWords_other (m : List Host.Cell) (ws : List (Nat × Word)) (b : Nat)
    (h : ∀ w ∈ ws, b < w.1 ∨ w.1 + 4 ≤ b) : Memory.read (writeWords m ws) b = Memory.read m b := by
  induction ws generalizing m with
  | nil => rfl
  | cons w ws ih =>
    rw [writeWords_cons, ih _ fun x hx => h x (List.mem_cons_of_mem _ hx),
      Memory.read_writeWord_other _ _ (h w (List.mem_cons_self ..))]

/-- A word apart from every word written reads as before. -/
theorem readWord_writeWords_other (m : List Host.Cell) (ws : List (Nat × Word)) (b : Nat)
    (h : ∀ w ∈ ws, b + 4 ≤ w.1 ∨ w.1 + 4 ≤ b) : Memory.readWord (writeWords m ws) b = Memory.readWord m b := by
  induction ws generalizing m with
  | nil => rfl
  | cons w ws ih =>
    rw [writeWords_cons, ih _ fun x hx => h x (List.mem_cons_of_mem _ hx),
      Memory.readWord_writeWord_other _ _ (h w (List.mem_cons_self ..))]

/-- No two words of the run overlap. -/
abbrev WordsApart (ws : List (Nat × Word)) : Prop := ws.Pairwise fun x y => x.1 + 4 ≤ y.1 ∨ y.1 + 4 ≤ x.1

/-- Every word of a run without overlaps is read back. -/
theorem readWord_writeWords_same (m : List Host.Cell) (ws : List (Nat × Word)) (h : WordsApart ws) :
    ∀ w ∈ ws, Memory.readWord (writeWords m ws) w.1 = w.2 := by
  induction ws generalizing m with
  | nil => simp
  | cons x ws ih =>
    rw [WordsApart, List.pairwise_cons] at h
    intro w hw
    rcases List.mem_cons.1 hw with rfl | hw
    · rw [writeWords_cons, readWord_writeWords_other _ _ _ h.1, Memory.readWord_writeWord_same]
    · exact ih _ h.2 w hw

/-- The canonical form is kept. -/
theorem wf_writeWords {m : List Host.Cell} (ws : List (Nat × Word)) (h : Memory.wf m = true) :
    Memory.wf (writeWords m ws) = true := by
  induction ws generalizing m with
  | nil => exact h
  | cons w ws ih => exact ih (Memory.wf_writeWord _ _ h)

/-- Every byte listed after the run lies in a word written or was listed before. -/
theorem listed_writeWords {m : List Host.Cell} {ws : List (Nat × Word)} {e : Host.Cell} (h : e ∈ writeWords m ws) :
    (∃ w ∈ ws, w.1 ≤ e.1 ∧ e.1 < w.1 + 4) ∨ e ∈ m := by
  induction ws generalizing m with
  | nil => exact .inr h
  | cons w ws ih =>
    rcases ih h with ⟨x, hx, hb⟩ | h
    · exact .inl ⟨x, List.mem_cons_of_mem _ hx, hb⟩
    · rcases Memory.listed_writeWord h with hb | h
      · exact .inl ⟨w, List.mem_cons_self .., hb⟩
      · exact .inr h

/-- Rising runs put end to end have no overlaps. -/
theorem wordsApart_flatMap_range (n : Nat) (f : Nat → List (Nat × Word)) (base step : Nat)
    (hin : ∀ k < n, ∀ w ∈ f k, base + step * k ≤ w.1 ∧ w.1 + 4 ≤ base + step * (k + 1))
    (hap : ∀ k < n, WordsApart (f k)) : WordsApart ((List.range n).flatMap f) := by
  induction n with
  | zero => simp [WordsApart]
  | succ n ih =>
    rw [List.range_succ, List.flatMap_append, WordsApart, List.pairwise_append]
    refine ⟨ih (fun k hk => hin k (by omega)) (fun k hk => hap k (by omega)), by simpa using hap n (by omega), ?_⟩
    intro x hx y hy
    obtain ⟨k, hk, hx⟩ := List.mem_flatMap.1 hx
    have hk := List.mem_range.1 hk
    have h1 := hin k (by omega) x hx
    have h2 := hin n (by omega) y (by simpa using hy)
    have h3 : step * (k + 1) ≤ step * n := Nat.mul_le_mul_left _ (by omega)
    left; omega

end Sys2Proof.Machine
end

