-- ==== Sys2Proof/Laws/Encoding.lean ====
section
/-! SUPPORT. Fields of a command word: what a slice of a word made of placed fields is, and a word as its fields put
together again (30_encoding.md R93). -/

namespace Sys2Proof

theorem Field.getLsbD_place {n : Nat} (lo i : Nat) (v : BitVec n) (h : lo + n ≤ 128) :
    (Field.place lo v).getLsbD i = (decide (lo ≤ i) && v.getLsbD (i - lo)) := by
  unfold Field.place
  rw [BitVec.getLsbD_shiftLeft, BitVec.getLsbD_setWidth]
  by_cases h1 : i < lo
  · simp [h1, Nat.not_le.2 h1]
  · by_cases h2 : i - lo < n
    · simp [show i < 128 by omega, h1, show i - lo < 128 by omega, Nat.le_of_not_lt h1]
    · rw [BitVec.getLsbD_of_ge v _ (Nat.le_of_not_lt h2)]; simp

theorem Field.extract_or (a b : Command) (lo len : Nat) :
    (a ||| b).extractLsb' lo len = a.extractLsb' lo len ||| b.extractLsb' lo len := by
  apply BitVec.eq_of_getLsbD_eq
  intro i hi
  simp [hi]

/-- A placed field is read back from its own bits. -/
theorem Field.extract_place_same {n : Nat} (lo : Nat) (v : BitVec n) (h : lo + n ≤ 128) :
    (Field.place lo v).extractLsb' lo n = v := by
  apply BitVec.eq_of_getLsbD_eq
  intro i hi
  rw [BitVec.getLsbD_extractLsb', Field.getLsbD_place _ _ _ h]
  simp [hi]

/-- A slice apart from a placed field is zero. -/
theorem Field.extract_place_apart {n : Nat} (lo' lo len : Nat) (v : BitVec n) (h : lo' + n ≤ 128)
    (ha : lo' + n ≤ lo ∨ lo + len ≤ lo') : (Field.place lo' v).extractLsb' lo len = 0#len := by
  apply BitVec.eq_of_getLsbD_eq
  intro i hi
  rw [BitVec.getLsbD_extractLsb', Field.getLsbD_place _ _ _ h]
  rcases ha with ha | ha
  · rw [BitVec.getLsbD_of_ge v _ (by omega)]; simp
  · simp [show ¬ lo' ≤ lo + i by omega]

/-- A word is its whole slice, placed at bit 0. -/
theorem Field.place_whole (w : Command) : Field.place 0 (w.extractLsb' 0 128) = w := by
  apply BitVec.eq_of_getLsbD_eq
  intro i hi
  rw [Field.getLsbD_place _ _ _ (by omega)]
  simp [hi]

/-- A slice, cut in two. -/
theorem Field.place_split (w : Command) (lo n m : Nat) (h : lo + (n + m) ≤ 128) :
    Field.place lo (w.extractLsb' lo (n + m)) =
      Field.place lo (w.extractLsb' lo n) ||| Field.place (lo + n) (w.extractLsb' (lo + n) m) := by
  apply BitVec.eq_of_getLsbD_eq
  intro i hi
  rw [BitVec.getLsbD_or, Field.getLsbD_place _ _ _ h, Field.getLsbD_place _ _ _ (by omega),
    Field.getLsbD_place _ _ _ (by omega)]
  simp only [BitVec.getLsbD_extractLsb']
  by_cases h1 : lo ≤ i
  · by_cases h2 : i - lo < n
    · simp [h1, h2, show i - lo < n + m by omega, show ¬ lo + n ≤ i by omega]
    · by_cases h3 : i - lo < n + m
      · simp [h1, h2, h3, show lo + n ≤ i by omega, show i - (lo + n) < m by omega,
          show lo + n + (i - (lo + n)) = lo + (i - lo) by omega]
      · simp [h2, h3, show ¬ i - (lo + n) < m by omega]
  · simp [h1, show ¬ lo + n ≤ i by omega]

@[simp] theorem Field.place_zero (lo n : Nat) : Field.place lo (0#n) = 0#128 := by
  simp [Field.place]

end Sys2Proof
end

