-- ==== Sys2Proof/Laws/Output.lean ====
section
/-! SUPPORT. The output port and the direct strategy: what a list of operations does to the lines, and what the shifter
and calibration do, each said once (41_transmit_direct.md R161 to R170). -/

namespace Sys2Proof.Machine

/-! The lines. -/

@[simp] theorem linesAfter_nil (l : Word) : linesAfter l [] = l := rfl

@[simp] theorem linesAfter_cons (l : Word) (op : GpioOp) (ops : List GpioOp) :
    linesAfter l (op :: ops) = linesAfter (GpioOp.apply l op) ops := rfl

theorem linesAfter_append (l : Word) (a b : List GpioOp) : linesAfter l (a ++ b) = linesAfter (linesAfter l a) b := by
  simp [linesAfter, List.foldl_append]

@[simp] theorem State.issue_nil (s : State) : s.issue [] = s := by
  cases s; simp [State.issue]

theorem State.issue_issue (s : State) (a b : List GpioOp) : (s.issue a).issue b = s.issue (a ++ b) := by
  simp [State.issue, linesAfter_append, List.append_assoc]

theorem GpioOp.getLsbD_apply_set (l m : Word) (i : Nat) :
    (GpioOp.apply l (.set m)).getLsbD i = (l.getLsbD i || m.getLsbD i) := by
  simp [GpioOp.apply]

theorem GpioOp.getLsbD_apply_clr (l m : Word) (i : Nat) :
    (GpioOp.apply l (.clr m)).getLsbD i = (l.getLsbD i && !m.getLsbD i) := by
  by_cases h : i < 32
  · simp [GpioOp.apply, h]
  · simp [GpioOp.apply, BitVec.getLsbD_of_ge l i (Nat.le_of_not_lt h)]

/-- One pair of operations, set first, on one line: high where the set mask has it and the clear mask has not, else low
where the clear mask has it, else as before. -/
theorem getLsbD_pair (l a b : Word) (i : Nat) :
    (linesAfter l [.set a, .clr b]).getLsbD i = ((l.getLsbD i || a.getLsbD i) && !b.getLsbD i) := by
  simp [GpioOp.getLsbD_apply_clr, GpioOp.getLsbD_apply_set]

/-- Repeating a pair of disjoint masks changes nothing (20_memory.md R70). -/
theorem linesAfter_replicate_pair (l a b : Word) (n : Nat) (h : a &&& b = 0#32) :
    linesAfter l (List.replicate (n + 1) [GpioOp.set a, .clr b]).flatten = linesAfter l [.set a, .clr b] := by
  induction n generalizing l with
  | zero => simp
  | succ n ih =>
    rw [List.replicate_succ, List.flatten_cons, linesAfter_append, ih]
    apply BitVec.eq_of_getLsbD_eq
    intro i _
    have hi := congrArg (fun x => BitVec.getLsbD x i) h
    simp only [getLsbD_pair, BitVec.getLsbD_and, BitVec.getLsbD_zero] at *
    revert hi
    cases l.getLsbD i <;> cases a.getLsbD i <;> cases b.getLsbD i <;> simp

/-! The masks depend on the topology and the plane alone. -/

/-- Two states with the same plane, registered lines, length and clock pin have the same masks. -/
theorem State.rowOps_congr {s t : State} (hp : t.plane = s.plane) (hd : t.dataMask = s.dataMask)
    (hs : t.size = s.size) (hc : t.clkPin = s.clkPin) : t.rowOps = s.rowOps := by
  funext r
  simp only [State.rowOps, State.setMask, State.clrMask, State.lowLines, State.planeAt, State.clkBit, hp, hd, hs, hc]

/-! The shifter. -/

@[simp] theorem State.logicalWrite_eq (s : State) (r : Nat) :
    s.logicalWrite r = s.issue (List.replicate s.calRep.toNat (s.rowOps r)).flatten := rfl

theorem State.atWrite_issue (s : State) (r : Nat) (ops : List GpioOp) :
    (s.issue ops).atWrite r = (s.atWrite r).issue ops := by
  unfold State.atWrite State.issue
  by_cases h : r < 16 * s.size.toNat <;> simp [h]

theorem State.atWrite_atWrite (s : State) (r r' : Nat) : (s.atWrite r).atWrite r' = s.atWrite r' := by
  unfold State.atWrite
  by_cases h : r < 16 * s.size.toNat <;> by_cases h' : r' < 16 * s.size.toNat <;> simp [h, h']

/-- What `n` logical writes from index `r` on do, said once: their operations are issued and the position is moved on
(R161, 10_state.md R40). -/
theorem State.shift_eq (s : State) (r n : Nat) (hn : 0 < n) :
    s.shift r n =
      (s.issue ((List.range' r n).flatMap fun k => (List.replicate s.calRep.toNat (s.rowOps k)).flatten)).atWrite
        (r + n) := by
  induction n generalizing s r with
  | zero => omega
  | succ n ih =>
    rw [State.shift, State.logicalWrite_eq]
    rcases Nat.eq_zero_or_pos n with rfl | hn
    · simp [State.shift]
    · rw [ih _ _ hn, List.range'_succ, List.flatMap_cons]
      have hro : ((s.issue (List.replicate s.calRep.toNat (s.rowOps r)).flatten).atWrite (r + 1)).rowOps = s.rowOps :=
        State.rowOps_congr (by simp) (by simp) (by simp) (by simp)
      rw [hro]
      simp only [State.issue_calRep, State.atWrite_calRep]
      simp only [State.atWrite_issue, State.atWrite_atWrite, State.issue_issue]
      congr 2
      omega

/-- A frame from its first logical write on (R161). -/
theorem State.shiftRest_atWrite_zero (s : State) :
    (s.atWrite 0).shiftRest = (s.issue s.directOps).atWrite (nRows s.size.toNat) := by
  have h0 : (s.atWrite 0).nextWrite = 0 := by
    unfold State.nextWrite State.atWrite
    by_cases h : 0 < 16 * s.size.toNat
    · simp [h]
    · simp [h]; omega
  have hro : (s.atWrite 0).rowOps = s.rowOps := State.rowOps_congr (by simp) (by simp) (by simp) (by simp)
  unfold State.shiftRest
  rw [h0, Nat.sub_zero, State.atWrite_size, State.shift_eq _ _ _ (by simp [nRows]), hro, State.atWrite_calRep,
    State.atWrite_issue, State.atWrite_atWrite, State.atWrite_issue, Nat.zero_add]
  simp only [State.directOps, List.range_eq_range']

/-! The environment's draws and calibration. -/

theorem State.drawTime_fst (s : State) : s.drawTime.1 = s.timeSample 0 := by
  unfold State.drawTime State.timeSample
  cases h : s.timeIn <;> simp

theorem State.timeSample_drawTime (s : State) (n : Nat) : s.drawTime.2.timeSample n = s.timeSample (n + 1) := by
  unfold State.drawTime State.timeSample
  cases h : s.timeIn <;> simp [Nat.add_comm, Nat.add_left_comm]

theorem State.drawFault_fst (s : State) : s.drawFault.1 = s.faultSample 0 := by
  unfold State.drawFault State.faultSample
  cases h : s.dmaFaultIn <;> simp

theorem State.timeSample_issue (s : State) (ops : List GpioOp) (n : Nat) :
    (s.issue ops).timeSample n = s.timeSample n := rfl

/-- What calibration does, said once (R168). -/
theorem State.calibrate_eq (s : State) :
    s.calibrate =
      { s.issue (List.replicate s.params.calN (.clr 0#32)) with
        calRep := (solveTiming s.params s.freq (s.timeSample 0) (s.timeSample 1) (s.timeSample 2)).1
        calBusy := (solveTiming s.params s.freq (s.timeSample 0) (s.timeSample 1) (s.timeSample 2)).2
        calDone := true
        timeIn := s.timeIn.drop 3
        drawNo := s.drawNo + 3 } := by
  have h1 : (s.drawTime.2.issue (List.replicate s.drawTime.2.params.calN (.clr 0#32))).drawTime.1 = s.timeSample 1 := by
    rw [State.drawTime_fst, State.timeSample_issue, State.timeSample_drawTime]
  have h2 : (s.drawTime.2.issue (List.replicate s.drawTime.2.params.calN (.clr 0#32))).drawTime.2.drawTime.1 =
      s.timeSample 2 := by
    rw [State.drawTime_fst, State.timeSample_drawTime, State.timeSample_issue, State.timeSample_drawTime]
  unfold State.calibrate
  simp only [h1, h2, State.drawTime_fst]
  have ext : ∀ (t : State), t.drawTime.2 = { t with timeIn := t.timeIn.tail, drawNo := t.drawNo + 1 } := by
    intro t
    unfold State.drawTime
    cases h : t.timeIn <;> simp
  simp only [ext]
  have h3 : s.timeIn.tail.tail.tail = s.timeIn.drop 3 := by simp [← List.drop_one]
  simp [State.issue, h3]

/-- A calibration write changes no line (R170). -/
theorem GpioOp.apply_empty_clear (l : Word) : GpioOp.apply l (.clr 0#32) = l := by
  apply BitVec.eq_of_getLsbD_eq
  intro i _
  simp [GpioOp.getLsbD_apply_clr]

theorem linesAfter_empty_clears (l : Word) (n : Nat) : linesAfter l (List.replicate n (.clr 0#32)) = l := by
  induction n with
  | zero => rfl
  | succ n ih => rw [List.replicate_succ, linesAfter_cons, GpioOp.apply_empty_clear, ih]

end Sys2Proof.Machine
end

