-- ==== Sys2Proof/Laws/PerInstr.lean ====
section
/-! SUPPORT. One family of statements about every command as syntax: its word is a word of its own row of the opcode
table (30_encoding.md R104). -/

namespace Sys2Proof.Laws

/-- The command's word has its row's pattern under its row's mask, and the row is one of the table's. -/
def TableRow.Statement (i : Instr) : Prop := encode i &&& i.row.mask = i.row.pattern ∧ i.row ∈ opcodeTable

/-- A field whose bits the mask has all at 0 drops out. -/
theorem place_and_mask {n : Nat} (lo : Nat) (v : BitVec n) (mask : Command)
    (h : Field.place lo (BitVec.allOnes n) &&& mask = 0#128) : Field.place lo v &&& mask = 0#128 := by
  apply BitVec.eq_of_getLsbD_eq
  intro i hi
  have hb := congrArg (fun x => BitVec.getLsbD x i) h
  simp only [Field.place, BitVec.getLsbD_and, BitVec.getLsbD_shiftLeft, BitVec.getLsbD_setWidth, BitVec.getLsbD_allOnes,
    BitVec.getLsbD_zero] at hb ⊢
  by_cases hn : i - lo < n
  · simp only [hn, decide_true, Bool.and_true] at hb
    revert hb
    cases v.getLsbD (i - lo) <;> simp
  · rw [BitVec.getLsbD_of_ge v _ (Nat.le_of_not_lt hn)]
    simp

theorem or_and_mask (a b mask : Command) (h : b &&& mask = 0#128) : (a ||| b) &&& mask = a &&& mask := by
  apply BitVec.eq_of_getLsbD_eq
  intro i hi
  have hb := congrArg (fun x => BitVec.getLsbD x i) h
  simp only [BitVec.getLsbD_and, BitVec.getLsbD_or, BitVec.getLsbD_zero] at hb ⊢
  revert hb
  cases a.getLsbD i <;> cases b.getLsbD i <;> cases mask.getLsbD i <;> simp

/-- Format M's word under its mask (R99). -/
theorem encodeM_row (opc : BitVec 8) (pin : Pin) (ord : BitVec 3) (count : BitVec 16) :
    encodeM opc pin ord count &&& OpcodeRow.maskM = Field.place 0 opc &&& OpcodeRow.maskM := by
  unfold encodeM
  rw [or_and_mask _ _ _ (place_and_mask _ _ _ (by decide)), or_and_mask _ _ _ (place_and_mask _ _ _ (by decide)),
    or_and_mask _ _ _ (place_and_mask _ _ _ (by decide))]

theorem TableRow.nop : TableRow.Statement (.nop) := by
  exact ⟨by decide, by decide⟩

theorem TableRow.buscfg (pin : Pin) (strat : Strategy) (freq : Word) : TableRow.Statement (.buscfg pin strat freq) := by
  refine ⟨?_, by simp [opcodeTable, Instr.row]⟩
  simp only [encode, Instr.row]
  rw [or_and_mask _ _ _ (place_and_mask _ _ _ (by decide)),
    or_and_mask _ _ _ (place_and_mask _ _ _ (by decide)),
    or_and_mask _ _ _ (place_and_mask _ _ _ (by decide))]
  decide

theorem TableRow.regline (pin : Pin) (len : Word) : TableRow.Statement (.regline pin len) := by
  refine ⟨?_, by simp [opcodeTable, Instr.row]⟩
  simp only [encode, Instr.row]
  rw [or_and_mask _ _ _ (place_and_mask _ _ _ (by decide)),
    or_and_mask _ _ _ (place_and_mask _ _ _ (by decide))]
  decide

theorem TableRow.setbyte (pin : Pin) (pos : Word) (val : Byte) : TableRow.Statement (.setbyte pin pos val) := by
  refine ⟨?_, by simp [opcodeTable, Instr.row]⟩
  simp only [encode, Instr.row]
  rw [or_and_mask _ _ _ (place_and_mask _ _ _ (by decide)),
    or_and_mask _ _ _ (place_and_mask _ _ _ (by decide)),
    or_and_mask _ _ _ (place_and_mask _ _ _ (by decide))]
  decide

theorem TableRow.transmit : TableRow.Statement (.transmit) := by
  exact ⟨by decide, by decide⟩

theorem TableRow.rdreg (addr : BitVec 8) (pin : Pin) : TableRow.Statement (.rdreg addr pin) := by
  refine ⟨?_, by simp [opcodeTable, Instr.row]⟩
  simp only [encode, Instr.row]
  rw [or_and_mask _ _ _ (place_and_mask _ _ _ (by decide)),
    or_and_mask _ _ _ (place_and_mask _ _ _ (by decide))]
  decide

theorem TableRow.clrerr : TableRow.Statement (.clrerr) := by
  exact ⟨by decide, by decide⟩

theorem TableRow.mkws2801 (pin : Pin) (ord : BitVec 3) (count : BitVec 16) : TableRow.Statement (.mkws2801 pin ord count) := by
  refine ⟨?_, by simp [opcodeTable, Instr.row]⟩
  simp only [encode, Instr.row]
  rw [encodeM_row]
  decide

theorem TableRow.mklpd6803 (pin : Pin) (ord : BitVec 3) (count : BitVec 16) : TableRow.Statement (.mklpd6803 pin ord count) := by
  refine ⟨?_, by simp [opcodeTable, Instr.row]⟩
  simp only [encode, Instr.row]
  rw [encodeM_row]
  decide

theorem TableRow.mklpd8806 (pin : Pin) (ord : BitVec 3) (count : BitVec 16) : TableRow.Statement (.mklpd8806 pin ord count) := by
  refine ⟨?_, by simp [opcodeTable, Instr.row]⟩
  simp only [encode, Instr.row]
  rw [encodeM_row]
  decide

theorem TableRow.mkapa102 (pin : Pin) (ord : BitVec 3) (count : BitVec 16) : TableRow.Statement (.mkapa102 pin ord count) := by
  refine ⟨?_, by simp [opcodeTable, Instr.row]⟩
  simp only [encode, Instr.row]
  rw [encodeM_row]
  decide

theorem TableRow.mksk9822 (pin : Pin) (ord : BitVec 3) (count : BitVec 16) : TableRow.Statement (.mksk9822 pin ord count) := by
  refine ⟨?_, by simp [opcodeTable, Instr.row]⟩
  simp only [encode, Instr.row]
  rw [encodeM_row]
  decide

theorem TableRow.setpix8 (pin : Pin) (idx : BitVec 16) (r g b : Byte) : TableRow.Statement (.setpix8 pin idx r g b) := by
  refine ⟨?_, by simp [opcodeTable, Instr.row]⟩
  simp only [encode, Instr.row]
  rw [or_and_mask _ _ _ (place_and_mask _ _ _ (by decide)),
    or_and_mask _ _ _ (place_and_mask _ _ _ (by decide)),
    or_and_mask _ _ _ (place_and_mask _ _ _ (by decide)),
    or_and_mask _ _ _ (place_and_mask _ _ _ (by decide)),
    or_and_mask _ _ _ (place_and_mask _ _ _ (by decide))]
  decide

theorem TableRow.setpix16 (pin : Pin) (idx : BitVec 16) (r g b : BitVec 16) : TableRow.Statement (.setpix16 pin idx r g b) := by
  refine ⟨?_, by simp [opcodeTable, Instr.row]⟩
  simp only [encode, Instr.row]
  rw [or_and_mask _ _ _ (place_and_mask _ _ _ (by decide)),
    or_and_mask _ _ _ (place_and_mask _ _ _ (by decide)),
    or_and_mask _ _ _ (place_and_mask _ _ _ (by decide)),
    or_and_mask _ _ _ (place_and_mask _ _ _ (by decide)),
    or_and_mask _ _ _ (place_and_mask _ _ _ (by decide))]
  decide

theorem TableRow.setbrt (pin : Pin) (rs gs bs : Word) : TableRow.Statement (.setbrt pin rs gs bs) := by
  refine ⟨?_, by simp [opcodeTable, Instr.row]⟩
  simp only [encode, Instr.row]
  rw [or_and_mask _ _ _ (place_and_mask _ _ _ (by decide)),
    or_and_mask _ _ _ (place_and_mask _ _ _ (by decide)),
    or_and_mask _ _ _ (place_and_mask _ _ _ (by decide)),
    or_and_mask _ _ _ (place_and_mask _ _ _ (by decide))]
  decide

theorem TableRow.rmstrip (pin : Pin) : TableRow.Statement (.rmstrip pin) := by
  refine ⟨?_, by simp [opcodeTable, Instr.row]⟩
  simp only [encode, Instr.row]
  rw [or_and_mask _ _ _ (place_and_mask _ _ _ (by decide))]
  decide

end Sys2Proof.Laws
end

