-- ==== Sys2Proof/Laws/Sequencer.lean ====
section
/-! SUPPORT. The chain and the image the engine builds, and what the replay sequencer does with them, each said once
(42_transmit_dma.md R191 to R213). -/

namespace Sys2Proof.Machine

/-! Sizes (R191). -/

theorem rowsPerBlock_pos {P : Params} (h : P.Legal) : 0 < rowsPerBlock P := by
  have := h.maxSpan_ge
  unfold rowsPerBlock; omega

theorem rowsPerBlock_le (P : Params) : rowsPerBlock P ≤ 65535 := by unfold rowsPerBlock; omega

theorem rowsPerBlock_span (P : Params) : 8 * rowsPerBlock P ≤ P.maxSpan := by unfold rowsPerBlock; omega

/-- The blocks hold all rows, and the last is not empty. -/
theorem ncbNeeded_bounds {P : Params} (h : P.Legal) (n : Nat) :
    nRows n ≤ ncbNeeded P n * rowsPerBlock P ∧ ncbNeeded P n * rowsPerBlock P < nRows n + rowsPerBlock P := by
  have hp := rowsPerBlock_pos h
  unfold ncbNeeded ceilDiv
  generalize rowsPerBlock P = q at *
  have h1 := Nat.div_add_mod (nRows n + q - 1) q
  have h2 := Nat.mod_lt (nRows n + q - 1) hp
  rw [Nat.mul_comm] at h1
  omega

theorem ncbNeeded_pos {P : Params} (h : P.Legal) (n : Nat) : 0 < ncbNeeded P n := by
  have h1 := (ncbNeeded_bounds h n).1
  have : 0 < nRows n := by simp [nRows]
  rcases Nat.eq_zero_or_pos (ncbNeeded P n) with h0 | h0
  · rw [h0] at h1; omega
  · exact h0

/-- The blocks before block `k` are full, and rows are left for block `k`. -/
theorem rows_before_lt {P : Params} (h : P.Legal) {n k : Nat} (hk : k < ncbNeeded P n) :
    k * rowsPerBlock P < nRows n := by
  have h2 := (ncbNeeded_bounds h n).2
  have h3 : (k + 1) * rowsPerBlock P ≤ ncbNeeded P n * rowsPerBlock P := Nat.mul_le_mul_right _ hk
  rw [Nat.add_mul, Nat.one_mul] at h3
  omega

/-! The chain and the image as runs of words (R193, R196). -/

theorem State.mem_blockWords {s : State} {c rb k : Nat} {w : Nat × Word} (h : w ∈ s.blockWords c rb k) :
    s.params.dmaBase.toNat + 32 * k ≤ w.1 ∧ w.1 + 4 ≤ s.params.dmaBase.toNat + 32 * (k + 1) := by
  simp only [State.blockWords, List.mem_cons, List.not_mem_nil, or_false] at h
  rcases h with rfl | rfl | rfl | rfl | rfl | rfl | rfl | rfl <;> constructor <;> simp only <;> omega

theorem State.apart_blockWords (s : State) (c rb k : Nat) : WordsApart (s.blockWords c rb k) := by
  simp only [State.blockWords, WordsApart, List.pairwise_cons, List.mem_cons, List.not_mem_nil, or_false,
    forall_eq_or_imp, forall_eq, List.Pairwise.nil, and_true, IsEmpty.forall_iff, implies_true]
  omega

theorem State.apart_chainWords (s : State) : WordsApart s.chainWords :=
  wordsApart_flatMap_range _ _ s.params.dmaBase.toNat 32 (fun _ _ _ hw => State.mem_blockWords hw)
    (fun _ _ => State.apart_blockWords ..)

theorem State.mem_chainWords {s : State} {w : Nat × Word} (h : w ∈ s.chainWords) :
    s.params.dmaBase.toNat ≤ w.1 ∧ w.1 + 4 ≤ s.params.dmaBase.toNat + 32 * ncbNeeded s.params s.size.toNat := by
  obtain ⟨k, hk, hw⟩ := List.mem_flatMap.1 h
  have hk := List.mem_range.1 hk
  have := State.mem_blockWords hw
  omega

/-- The two words of row `r` (R196). -/
def State.rowWords (s : State) (r : Nat) : List (Nat × Word) :=
  [(s.rowBase.toNat + 8 * r, s.setMask r), (s.rowBase.toNat + 8 * r + 4, s.clrMask r)]

theorem State.imageWords_eq (s : State) : s.imageWords = (List.range (nRows s.size.toNat)).flatMap s.rowWords := rfl

theorem State.mem_rowWords {s : State} {r : Nat} {w : Nat × Word} (h : w ∈ s.rowWords r) :
    s.rowBase.toNat + 8 * r ≤ w.1 ∧ w.1 + 4 ≤ s.rowBase.toNat + 8 * (r + 1) := by
  simp only [State.rowWords, List.mem_cons, List.not_mem_nil, or_false] at h
  rcases h with rfl | rfl <;> simp only <;> omega

theorem State.apart_imageWords (s : State) : WordsApart s.imageWords := by
  rw [State.imageWords_eq]
  refine wordsApart_flatMap_range _ _ s.rowBase.toNat 8 (fun _ _ _ hw => State.mem_rowWords hw) (fun r _ => ?_)
  simp [State.rowWords, WordsApart]

theorem State.mem_imageWords {s : State} {w : Nat × Word} (h : w ∈ s.imageWords) :
    s.rowBase.toNat ≤ w.1 ∧ w.1 + 4 ≤ s.rowBase.toNat + 8 * nRows s.size.toNat := by
  rw [State.imageWords_eq] at h
  obtain ⟨r, hr, hw⟩ := List.mem_flatMap.1 h
  have hr := List.mem_range.1 hr
  have := State.mem_rowWords hw
  omega

/-- The masks depend on the topology and the plane alone. -/
theorem State.masks_congr {s t : State} (hp : t.plane = s.plane) (hd : t.dataMask = s.dataMask)
    (hs : t.size = s.size) (hc : t.clkPin = s.clkPin) (r : Nat) :
    t.setMask r = s.setMask r ∧ t.clrMask r = s.clrMask r := by
  simp only [State.setMask, State.clrMask, State.lowLines, State.planeAt, State.clkBit, hp, hd, hs, hc, and_self]

/-- The image and the chain fit, and where they lie (R191, R193). -/
structure State.Laid (s : State) : Prop where
  legal : s.params.Legal
  fits : needBytes s.params s.size.toNat ≤ s.params.dmaMemBytes

theorem State.Laid.rowBase_lt {s : State} (h : s.Laid) :
    s.params.dmaBase.toNat + 32 * ncbNeeded s.params s.size.toNat + 8 * nRows s.size.toNat ≤
      s.params.dmaBase.toNat + s.params.dmaMemBytes := by
  have := h.fits
  unfold needBytes at this
  omega

theorem State.Laid.rowBase_toNat {s : State} (h : s.Laid) :
    (BitVec.ofNat 32 (s.params.dmaBase.toNat + 32 * ncbNeeded s.params s.size.toNat)).toNat =
      s.params.dmaBase.toNat + 32 * ncbNeeded s.params s.size.toNat := by
  have h1 := h.rowBase_lt
  have h2 := h.legal.dmaMem_fits
  have h3 : 0 < nRows s.size.toNat := by simp [nRows]
  rw [BitVec.toNat_ofNat, Nat.mod_eq_of_lt (by omega)]

/-- The state after the build step. -/
def State.withChain (s : State) : State :=
  { s with
    ncb := BitVec.ofNat 32 (ncbNeeded s.params s.size.toNat)
    rowBase := BitVec.ofNat 32 (s.params.dmaBase.toNat + 32 * ncbNeeded s.params s.size.toNat)
    chainBuilt := true
    dmem := writeWords s.dmem s.chainWords }

/-- The build step, said once (R193): it answers, and the chain is in place. -/
theorem State.buildChain_eq {s : State} (h : s.Laid) :
    s.buildChain = .ok s.withChain := by
  unfold State.buildChain
  rw [State.memWrites_eq]
  · rfl
  intro w hw
  have h1 := State.mem_chainWords hw
  have h2 := h.rowBase_lt
  rw [State.wordInDmem_iff]
  simp only
  omega

theorem State.chainWords_congr {s t : State} (hp : t.params = s.params) (hs : t.size = s.size) :
    t.chainWords = s.chainWords := by
  unfold State.chainWords
  have : ∀ c rb, t.blockWords c rb = s.blockWords c rb := by
    intro c rb; funext k; simp only [State.blockWords, hp, hs]
  simp only [this, hp, hs]

/-- After the build step the chain is intact (R194). -/
theorem State.withChain_intact (s : State) : s.withChain.ChainIntact := by
  have hw : s.withChain.chainWords = s.chainWords := State.chainWords_congr (by rfl) (by rfl)
  constructor
  · simp only [State.withChain]
  · simp only [State.withChain]
  · rw [hw]; exact readWord_writeWords_same _ _ s.apart_chainWords

/-- The state after the copy step. -/
def State.withImage (s : State) : State := { s with dmem := writeWords s.dmem s.imageWords }

/-- The copy step, said once (R196): it answers and leaves the image in the row area. -/
theorem State.copyImage_eq {s : State} (h : s.Laid)
    (hr : s.rowBase.toNat = s.params.dmaBase.toNat + 32 * ncbNeeded s.params s.size.toNat) :
    s.copyImage = .ok s.withImage := by
  unfold State.copyImage
  rw [State.memWrites_eq]
  · rfl
  intro w hw
  have h1 := State.mem_imageWords hw
  have h2 := h.rowBase_lt
  rw [State.wordInDmem_iff]
  omega

/-- After the copy step the image is in place. -/
theorem State.withImage_image (s : State) : s.withImage.ImageIntact := by
  have hr := readWord_writeWords_same s.dmem s.imageWords s.apart_imageWords
  have hm : ∀ r < nRows s.size.toNat, ∀ w ∈ s.rowWords r, w ∈ s.imageWords := by
    intro r h w hw
    rw [State.imageWords_eq]
    exact List.mem_flatMap.2 ⟨r, List.mem_range.2 h, hw⟩
  have hs : ∀ r, s.withImage.setMask r = s.setMask r ∧ s.withImage.clrMask r = s.clrMask r :=
    State.masks_congr (by rfl) (by rfl) (by rfl) (by rfl)
  have hb : s.withImage.rowBase = s.rowBase := by rfl
  have hz : s.withImage.size = s.size := by rfl
  have hd : ∀ a, s.withImage.memRead a = Memory.readWord (writeWords s.dmem s.imageWords) a := fun _ => by rfl
  constructor
  · intro r h
    rw [hz] at h
    have e := hr _ (hm r h (s.rowBase.toNat + 8 * r, s.setMask r) (by simp [State.rowWords]))
    rw [(hs r).1, hb, hd]
    exact e
  · intro r h
    rw [hz] at h
    have e := hr _ (hm r h (s.rowBase.toNat + 8 * r + 4, s.clrMask r) (by simp [State.rowWords]))
    rw [(hs r).2, hb, hd]
    exact e

/-- The copy step leaves the chain intact: it writes the row area alone (R194). -/
theorem State.withImage_chain {s : State} (h : s.Laid) (hc : s.ChainIntact) : s.withImage.ChainIntact := by
  have hw : s.withImage.chainWords = s.chainWords := State.chainWords_congr (by rfl) (by rfl)
  constructor
  · exact hc.ncb
  · exact hc.rowBase
  · rw [hw]
    intro w hw
    rw [← hc.words w hw]
    refine readWord_writeWords_other _ _ _ fun x hx => ?_
    have h1 := State.mem_chainWords hw
    have h2 := State.mem_imageWords hx
    have h3 := h.rowBase_toNat
    rw [← hc.rowBase] at h3
    omega

/-! The replay (R200 to R213). -/

/-- The sequencer's state from the state `s` it was started in: what it has output, its registers, its draws. -/
def State.seqAt (s : State) (ops : List GpioOp) (con src dst : Word) (cnt : BitVec 16) (no : Word) (q : List Bool)
    (d : Nat) : State :=
  { s with
    lines := linesAfter s.lines ops
    physTrace := s.physTrace ++ ops
    conblk := con
    srcp := src
    dstp := dst
    rowCnt := cnt
    rowNo := no
    dmaFaultIn := q
    drawNo := d }

/-- The started sequencer `s` after `r` rows, at control block `con`, the pointers at `src` and `dst`, `cnt` rows left:
`r` rows are output and `r` samples of `dma_fault` are drawn. -/
def State.replayed (s : State) (con src dst : Word) (cnt : BitVec 16) (r : Nat) : State :=
  s.seqAt (s.frameOps r) con src dst cnt (BitVec.ofNat 32 r) (s.dmaFaultIn.drop r) (s.drawNo + r)

/-- The same, stopped by the fault sampled before row `r` (R208). -/
def State.faulted (s : State) (con src dst : Word) (cnt : BitVec 16) (r : Nat) : State :=
  (s.seqAt (s.frameOps r) con src dst cnt (BitVec.ofNat 32 r) (s.dmaFaultIn.drop (r + 1)) (s.drawNo + (r + 1))).stop
    .extFault

@[simp] theorem State.replayed_dmacs (s : State) (con src dst : Word) (cnt : BitVec 16) (r : Nat) :
    (s.replayed con src dst cnt r).dmacs = s.dmacs := rfl

@[simp] theorem State.replayed_params (s : State) (con src dst : Word) (cnt : BitVec 16) (r : Nat) :
    (s.replayed con src dst cnt r).params = s.params := rfl

@[simp] theorem State.replayed_conblk (s : State) (con src dst : Word) (cnt : BitVec 16) (r : Nat) :
    (s.replayed con src dst cnt r).conblk = con := rfl

@[simp] theorem State.replayed_memRead (s : State) (con src dst : Word) (cnt : BitVec 16) (r a : Nat) :
    (s.replayed con src dst cnt r).memRead a = s.memRead a := rfl

@[simp] theorem State.faulted_active (s : State) (con src dst : Word) (cnt : BitVec 16) (r : Nat) :
    (s.faulted con src dst cnt r).dmacs.active = false := rfl

theorem State.replayed_zero (s : State) (h : s.rowNo = 0#32) :
    s.replayed s.conblk s.srcp s.dstp s.rowCnt 0 = s := by
  cases s
  simp_all [State.replayed, State.seqAt, State.frameOps]

theorem State.faultSample_replayed (s : State) (con src dst : Word) (cnt : BitVec 16) (r : Nat) :
    (s.replayed con src dst cnt r).faultSample 0 = s.faultSample r := by
  simp [State.faultSample, State.replayed, State.seqAt]

/-- The draw of a sample, said once. -/
theorem State.drawFault_snd (s : State) :
    s.drawFault.2 = { s with dmaFaultIn := s.dmaFaultIn.drop 1, drawNo := s.drawNo + 1 } := by
  unfold State.drawFault
  cases h : s.dmaFaultIn <;> simp

/-- What the sequencer needs of the state it was started in. -/
structure State.Started (s : State) : Prop where
  laid : s.Laid
  chain : s.ChainIntact
  image : s.ImageIntact
  active : s.dmacs = { active := true, ended := false, error := false }
  first : s.conblk = s.params.dmaBase
  zero : s.rowNo = 0#32

theorem frameOps_succ (s : State) (r : Nat) :
    s.frameOps (r + 1) = s.frameOps r ++ [GpioOp.set (s.setMask r)] ++ [.clr (s.clrMask r)] := by
  simp [State.frameOps, List.range_succ, State.rowOps]

theorem State.Started.rowBase_toNat {s : State} (h : s.Started) :
    s.rowBase.toNat = s.params.dmaBase.toNat + 32 * ncbNeeded s.params s.size.toNat := by
  rw [h.chain.rowBase, h.laid.rowBase_toNat]

/-- One word transfer, when the source word is there and the destination is a GPIO register (R205). -/
theorem State.transferWord_seqAt (s : State) (ops : List GpioOp) (con src dst : Word) (cnt : BitVec 16) (no : Word)
    (q : List Bool) (d : Nat) {v : Word} {op : GpioOp} (hv : s.fetchWord? src.toNat = some v)
    (ho : s.gpioAt dst v = some op) :
    (s.seqAt ops con src dst cnt no q d).transferWord =
      s.seqAt (ops ++ [op]) con (src + 4#32) (dst + 4#32) cnt no q d := by
  have hv' : (s.seqAt ops con src dst cnt no q d).fetchWord? (s.seqAt ops con src dst cnt no q d).srcp.toNat = some v := hv
  have ho' : (s.seqAt ops con src dst cnt no q d).gpioAt (s.seqAt ops con src dst cnt no q d).dstp v = some op := ho
  unfold State.transferWord
  rw [hv']
  simp only [ho']
  simp only [State.seqAt, State.issue, linesAfter_append, List.append_assoc]

/-- A row of the image, transferred (R205, R206). -/
theorem State.Started.transferRow {s : State} (h : s.Started) (con : Word) (cnt : BitVec 16) {r : Nat}
    (hr : r < nRows s.size.toNat) (q : List Bool) (d : Nat) :
    (s.seqAt (s.frameOps r) con (BitVec.ofNat 32 (s.rowBase.toNat + 8 * r)) s.params.gpioSetAddr cnt
        (BitVec.ofNat 32 r) q d).transferRow 0#32 0xFFFFFFF8#32 =
      s.seqAt (s.frameOps (r + 1)) con (BitVec.ofNat 32 (s.rowBase.toNat + 8 * (r + 1))) s.params.gpioSetAddr
        (cnt - 1#16) (BitVec.ofNat 32 (r + 1)) q d := by
  have hb := h.rowBase_toNat
  have h1 := h.laid.rowBase_lt
  have h2 := h.laid.legal.dmaMem_fits
  have h3 := h.laid.legal.dmaBase_aligned
  have e1 : (BitVec.ofNat 32 (s.rowBase.toNat + 8 * r)).toNat = s.rowBase.toNat + 8 * r := by
    rw [BitVec.toNat_ofNat, Nat.mod_eq_of_lt (by omega)]
  have e2 : (BitVec.ofNat 32 (s.rowBase.toNat + 8 * r) + 4#32).toNat = s.rowBase.toNat + 8 * r + 4 := by
    rw [BitVec.toNat_add, e1]
    simp
    omega
  have e3 : BitVec.ofNat 32 (s.rowBase.toNat + 8 * r) + 4#32 + 4#32 + 0#32 =
      BitVec.ofNat 32 (s.rowBase.toNat + 8 * (r + 1)) := by
    rw [BitVec.add_zero, BitVec.add_assoc, show (4#32 + 4#32 : Word) = BitVec.ofNat 32 8 from rfl,
      ← BitVec.ofNat_add]
    rfl
  have e4 : s.params.gpioSetAddr + 4#32 + 4#32 + 0xFFFFFFF8#32 = s.params.gpioSetAddr := by
    rw [BitVec.add_assoc, BitVec.add_assoc]; simp
  have e5 : s.params.gpioSetAddr + 4#32 ≠ s.params.gpioSetAddr := by
    intro e
    have := congrArg (fun x => x - s.params.gpioSetAddr) e
    simp at this
  have f1 : s.fetchWord? (BitVec.ofNat 32 (s.rowBase.toNat + 8 * r)).toNat = some (s.setMask r) := by
    unfold State.fetchWord?
    rw [e1, if_pos, h.image.set r hr]
    exact ⟨by omega, by rw [State.wordInDmem_iff]; omega⟩
  have f2 : s.fetchWord? (BitVec.ofNat 32 (s.rowBase.toNat + 8 * r) + 4#32).toNat = some (s.clrMask r) := by
    unfold State.fetchWord?
    rw [e2, if_pos, h.image.clr r hr]
    exact ⟨by omega, by rw [State.wordInDmem_iff]; omega⟩
  have g1 : ∀ v, s.gpioAt s.params.gpioSetAddr v = some (.set v) := by
    intro v; simp [State.gpioAt]
  have g2 : ∀ v, s.gpioAt (s.params.gpioSetAddr + 4#32) v = some (.clr v) := by
    intro v; simp [State.gpioAt, e5, gpioClrAddr]
  have ha : ∀ ops src dst no, (s.seqAt ops con src dst cnt no q d).dmacs.active = true := by
    intro ops src dst no
    show s.dmacs.active = true
    rw [h.active]
  unfold State.transferRow
  rw [State.transferWord_seqAt s _ _ _ _ _ _ _ _ f1 (g1 _), if_pos (ha ..),
    State.transferWord_seqAt s _ _ _ _ _ _ _ _ f2 (g2 _), if_pos (ha ..), frameOps_succ]
  simp only [State.endRow, State.seqAt, e3, e4, show BitVec.ofNat 32 r + 1#32 = BitVec.ofNat 32 (r + 1) from
    (BitVec.ofNat_add ..).symm]

/-- One row step (R204 to R208). -/
theorem State.Started.rowStep {s : State} (h : s.Started) (con : Word) (cnt : BitVec 16) {r : Nat}
    (hr : r < nRows s.size.toNat) :
    State.rowStep (s.replayed con (BitVec.ofNat 32 (s.rowBase.toNat + 8 * r)) s.params.gpioSetAddr cnt r)
        0#32 0xFFFFFFF8#32 =
      if s.faultSample r then
        s.faulted con (BitVec.ofNat 32 (s.rowBase.toNat + 8 * r)) s.params.gpioSetAddr cnt r
      else
        s.replayed con (BitVec.ofNat 32 (s.rowBase.toNat + 8 * (r + 1))) s.params.gpioSetAddr (cnt - 1#16) (r + 1) := by
  have hd : ∀ src, (s.replayed con src s.params.gpioSetAddr cnt r).drawFault.2 =
      s.seqAt (s.frameOps r) con src s.params.gpioSetAddr cnt (BitVec.ofNat 32 r) (s.dmaFaultIn.drop (r + 1))
        (s.drawNo + (r + 1)) := by
    intro src
    rw [State.drawFault_snd]
    simp only [State.replayed, State.seqAt, List.drop_drop, Nat.add_assoc]
  unfold State.rowStep
  simp only [State.drawFault_fst, State.faultSample_replayed, hd, h.transferRow con cnt hr]
  rfl

/-- The rows of one control block while no fault is sampled (R204). -/
theorem State.Started.runRows_ok {s : State} (h : s.Started) (con : Word) (cnt : BitVec 16) (n r : Nat)
    (hr : r + n ≤ nRows s.size.toNat) (hf : ∀ k, r ≤ k → k < r + n → s.faultSample k = false) :
    State.runRows 0#32 0xFFFFFFF8#32 n
        (s.replayed con (BitVec.ofNat 32 (s.rowBase.toNat + 8 * r)) s.params.gpioSetAddr cnt r) =
      s.replayed con (BitVec.ofNat 32 (s.rowBase.toNat + 8 * (r + n))) s.params.gpioSetAddr
        (cnt - BitVec.ofNat 16 n) (r + n) := by
  induction n generalizing r cnt with
  | zero => simp [State.runRows]
  | succ n ih =>
    have hs := h.rowStep con cnt (r := r) (by omega)
    rw [hf r (by omega) (by omega), if_neg (by simp)] at hs
    rw [State.runRows, hs, State.replayed_dmacs, h.active, if_pos rfl,
      ih _ (r + 1) (by omega) fun k h1 h2 => hf k (by omega) (by omega)]
    have : cnt - 1#16 - BitVec.ofNat 16 n = cnt - BitVec.ofNat 16 (n + 1) := by
      rw [BitVec.ofNat_add]
      simp only [BitVec.sub_eq_add_neg, BitVec.neg_add]
      rw [BitVec.add_comm (-BitVec.ofNat 16 n), BitVec.add_assoc]
    rw [this, show r + 1 + n = r + (n + 1) by omega]

/-- The rows of one control block when a fault is sampled before row `k` of it (R204, R208). -/
theorem State.Started.runRows_fault {s : State} (h : s.Started) (con : Word) (cnt : BitVec 16) (n r k : Nat)
    (hr : r + n ≤ nRows s.size.toNat) (h1 : r ≤ k) (h2 : k < r + n) (hf : ∀ j, r ≤ j → j < k → s.faultSample j = false)
    (hk : s.faultSample k = true) :
    ∃ cnt', State.runRows 0#32 0xFFFFFFF8#32 n
        (s.replayed con (BitVec.ofNat 32 (s.rowBase.toNat + 8 * r)) s.params.gpioSetAddr cnt r) =
      s.faulted con (BitVec.ofNat 32 (s.rowBase.toNat + 8 * k)) s.params.gpioSetAddr cnt' k := by
  induction n generalizing r cnt with
  | zero => omega
  | succ n ih =>
    have hs := h.rowStep con cnt (r := r) (by omega)
    by_cases hrk : r = k
    · subst hrk
      rw [hk, if_pos rfl] at hs
      rw [State.runRows, hs, State.faulted_active, if_neg (by simp)]
      exact ⟨cnt, rfl⟩
    · rw [hf r (by omega) (by omega), if_neg (by simp)] at hs
      rw [State.runRows, hs, State.replayed_dmacs, h.active, if_pos rfl]
      exact ih _ (r + 1) (by omega) (by omega) (by omega) fun j h3 h4 => hf j (by omega) h4

end Sys2Proof.Machine
end

