-- ==== Sys2Proof/Laws/Replay.lean ====
section
/-! SUPPORT. The replay sequencer on a chain and an image the engine built: block by block, and the whole chain
(42_transmit_dma.md R200 to R213). -/

namespace Sys2Proof.Machine

/-- The bus address of control block `k` (R193). -/
def blockAddr (P : Params) (k : Nat) : Word := BitVec.ofNat 32 (P.dmaBase.toNat + 32 * k)

/-- Where the rows of control block `k` end (R193). -/
def rowsEnd (P : Params) (n k : Nat) : Nat := min ((k + 1) * rowsPerBlock P) (nRows n)

variable {s : State}

theorem State.Started.blockAddr_toNat (h : s.Started) {k : Nat} (hk : k < ncbNeeded s.params s.size.toNat) :
    (blockAddr s.params k).toNat = s.params.dmaBase.toNat + 32 * k := by
  have h1 := h.laid.rowBase_lt
  have h2 := h.laid.legal.dmaMem_fits
  rw [blockAddr, BitVec.toNat_ofNat, Nat.mod_eq_of_lt (by omega)]

/-- Word `i` of control block `k`, as the build step wrote it. -/
theorem State.Started.memRead_block (h : s.Started) {k : Nat} (hk : k < ncbNeeded s.params s.size.toNat)
    {a : Nat} {v : Word}
    (hw : (a, v) ∈ s.blockWords (ncbNeeded s.params s.size.toNat)
      (s.params.dmaBase.toNat + 32 * ncbNeeded s.params s.size.toNat) k) : s.memRead a = v :=
  h.chain.words (a, v) (List.mem_flatMap.2 ⟨k, List.mem_range.2 hk, hw⟩)

/-- The rows of control block `k`: at least one, at most a block's worth. -/
theorem rowsEnd_bounds {P : Params} (hP : P.Legal) {n k : Nat} (hk : k < ncbNeeded P n) :
    k * rowsPerBlock P < rowsEnd P n k ∧ rowsEnd P n k ≤ k * rowsPerBlock P + rowsPerBlock P ∧
      rowsEnd P n k ≤ nRows n ∧
      min (rowsPerBlock P) (nRows n - k * rowsPerBlock P) = rowsEnd P n k - k * rowsPerBlock P := by
  have h1 := rows_before_lt hP hk
  have h2 := rowsPerBlock_pos hP
  unfold rowsEnd
  rw [Nat.add_mul, Nat.one_mul]
  omega

/-- Before the last block every block is full; the last ends the frame. -/
theorem rowsEnd_next {P : Params} (hP : P.Legal) {n k : Nat} (hk : k < ncbNeeded P n) :
    rowsEnd P n k = if k + 1 < ncbNeeded P n then (k + 1) * rowsPerBlock P else nRows n := by
  unfold rowsEnd
  split
  · next h => have := rows_before_lt hP h; omega
  · next h =>
    have e : k + 1 = ncbNeeded P n := by omega
    have := (ncbNeeded_bounds hP n).1
    rw [← e] at this
    omega

theorem geomRows_append (r : BitVec 16) : geomRows (r ++ 8#16) = r := by
  unfold geomRows
  apply BitVec.eq_of_getLsbD_eq
  intro i hi
  rw [BitVec.getLsbD_extractLsb', BitVec.getLsbD_append (x := r) (y := 8#16)]
  simp [hi]

theorem geomRowBytes_append (r : BitVec 16) : geomRowBytes (r ++ 8#16) = 8#16 := by
  unfold geomRowBytes
  apply BitVec.eq_of_getLsbD_eq
  intro i hi
  rw [BitVec.getLsbD_extractLsb', BitVec.getLsbD_append (x := r) (y := 8#16)]
  simp [hi]

/-- Control block `k` passes its checks and is loaded (R201 to R203). -/
theorem State.Started.runBlock_eq (h : s.Started) {k : Nat} (hk : k < ncbNeeded s.params s.size.toNat)
    (src dst : Word) (cnt : BitVec 16) :
    (s.replayed (blockAddr s.params k) src dst cnt (k * rowsPerBlock s.params)).runBlock =
      (let t := State.runRows 0#32 0xFFFFFFF8#32
          (rowsEnd s.params s.size.toNat k - k * rowsPerBlock s.params)
          (s.replayed (blockAddr s.params k) (BitVec.ofNat 32 (s.rowBase.toNat + 8 * (k * rowsPerBlock s.params)))
            s.params.gpioSetAddr
            (BitVec.ofNat 16 (rowsEnd s.params s.size.toNat k - k * rowsPerBlock s.params))
            (k * rowsPerBlock s.params))
        if t.dmacs.active then
          t.link (if k + 1 < ncbNeeded s.params s.size.toNat then blockAddr s.params (k + 1) else 0#32)
        else t) := by
  have ha := h.blockAddr_toNat hk
  have hb := h.rowBase_toNat
  have h1 := h.laid.rowBase_lt
  have h3 := h.laid.legal.dmaBase_aligned
  obtain ⟨e1, e2, e3, e4⟩ := rowsEnd_bounds h.laid.legal hk
  have h5 := rowsPerBlock_le s.params
  have h6 := rowsPerBlock_span s.params
  have hw : ∀ i v, (s.params.dmaBase.toNat + 32 * k + 4 * i, v) ∈ s.blockWords (ncbNeeded s.params s.size.toNat)
      (s.params.dmaBase.toNat + 32 * ncbNeeded s.params s.size.toNat) k →
      (s.replayed (blockAddr s.params k) src dst cnt (k * rowsPerBlock s.params)).blockWord i = v := by
    intro i v hm
    unfold State.blockWord
    rw [State.replayed_conblk, ha, State.replayed_memRead]
    exact h.memRead_block hk hm
  have w0 := hw 0 _ (by simp only [State.blockWords]; exact List.mem_cons_self ..)
  have w1 := hw 1 (BitVec.ofNat 32 (s.params.dmaBase.toNat + 32 * ncbNeeded s.params s.size.toNat + 8 * k * rowsPerBlock s.params))
    (by simp [State.blockWords])
  have w2 := hw 2 s.params.gpioSetAddr (by simp [State.blockWords])
  have w3 := hw 3 (BitVec.ofNat 16 (min (rowsPerBlock s.params) (nRows s.size.toNat - k * rowsPerBlock s.params)) ++ 8#16)
    (by simp [State.blockWords])
  have w4 := hw 4 0xFFF80000#32 (by simp [State.blockWords])
  have w5 := hw 5 (if k + 1 < ncbNeeded s.params s.size.toNat then
      BitVec.ofNat 32 (s.params.dmaBase.toNat + 32 * (k + 1)) else 0#32) (by simp [State.blockWords])
  have w6 := hw 6 0#32 (by simp [State.blockWords])
  have w7 := hw 7 0#32 (by simp [State.blockWords])
  rw [e4] at w3
  have hn : (BitVec.ofNat 16 (rowsEnd s.params s.size.toNat k - k * rowsPerBlock s.params)).toNat =
      rowsEnd s.params s.size.toNat k - k * rowsPerBlock s.params := by
    rw [BitVec.toNat_ofNat, Nat.mod_eq_of_lt (by omega)]
  have hadr : (s.replayed (blockAddr s.params k) src dst cnt (k * rowsPerBlock s.params)).blockAddrOk = true := by
    simp only [State.blockAddrOk, State.replayed_conblk, State.replayed_params, ha, Bool.and_eq_true,
      decide_eq_true_eq, beq_iff_eq]
    have : 0 < nRows s.size.toNat := by simp [nRows]
    omega
  have herr : (s.replayed (blockAddr s.params k) src dst cnt (k * rowsPerBlock s.params)).blockError = none := by
    unfold State.blockError
    rw [w0, w6, w7, w3, if_neg (by simp), geomRows_append, geomRowBytes_append, if_neg]
    rw [State.replayed_params, hn]
    rintro (h | h | h)
    · exact h rfl
    · rw [← BitVec.toNat_inj, hn] at h
      simp at h
      omega
    · omega
  have hload : (s.replayed (blockAddr s.params k) src dst cnt (k * rowsPerBlock s.params)).loadBlock =
      s.replayed (blockAddr s.params k) (BitVec.ofNat 32 (s.rowBase.toNat + 8 * (k * rowsPerBlock s.params)))
        s.params.gpioSetAddr
        (BitVec.ofNat 16 (rowsEnd s.params s.size.toNat k - k * rowsPerBlock s.params))
        (k * rowsPerBlock s.params) := by
    unfold State.loadBlock
    rw [w1, w2, w3, geomRows_append, hb, Nat.mul_assoc]
    rfl
  unfold State.runBlock
  rw [hadr, herr, hload, w3, w4, w5, geomRows_append, hn]
  rfl

theorem State.Started.blockAddr_ne_zero (h : s.Started) {k : Nat} (hk : k < ncbNeeded s.params s.size.toNat) :
    blockAddr s.params k ≠ 0#32 := by
  have h1 := h.blockAddr_toNat hk
  have h2 := h.laid.legal.dmaBase_pos
  intro e
  rw [e] at h1
  simp at h1
  omega

/-- The sequencer after the last row of the last control block (R209). -/
def State.completed (s : State) (src dst : Word) (cnt : BitVec 16) : State :=
  { s.replayed 0#32 src dst cnt (nRows s.size.toNat) with
    dmacs := { s.dmacs with ended := true, active := false } }

/-- A control block with no fault sampled in it. -/
theorem State.Started.runBlock_ok (h : s.Started) {k : Nat} (hk : k < ncbNeeded s.params s.size.toNat)
    (src dst : Word) (cnt : BitVec 16)
    (hf : ∀ j, k * rowsPerBlock s.params ≤ j → j < rowsEnd s.params s.size.toNat k → s.faultSample j = false) :
    ∃ src' dst' cnt',
      (s.replayed (blockAddr s.params k) src dst cnt (k * rowsPerBlock s.params)).runBlock =
        if k + 1 < ncbNeeded s.params s.size.toNat then
          s.replayed (blockAddr s.params (k + 1)) src' dst' cnt' ((k + 1) * rowsPerBlock s.params)
        else s.completed src' dst' cnt' := by
  obtain ⟨e1, e2, e3, e4⟩ := rowsEnd_bounds h.laid.legal hk
  have hrun := h.runRows_ok (blockAddr s.params k)
    (BitVec.ofNat 16 (rowsEnd s.params s.size.toNat k - k * rowsPerBlock s.params))
    (rowsEnd s.params s.size.toNat k - k * rowsPerBlock s.params) (k * rowsPerBlock s.params) (by omega)
    fun j h1 h2 => hf j h1 (by omega)
  rw [h.runBlock_eq hk, hrun,
    show k * rowsPerBlock s.params + (rowsEnd s.params s.size.toNat k - k * rowsPerBlock s.params) =
      rowsEnd s.params s.size.toNat k by omega, rowsEnd_next h.laid.legal hk]
  generalize BitVec.ofNat 16 _ - BitVec.ofNat 16 _ = cnt'
  generalize BitVec.ofNat 32 _ = src'
  refine ⟨src', s.params.gpioSetAddr, cnt', ?_⟩
  have ha : s.dmacs.active = true := by rw [h.active]
  simp only [State.replayed_dmacs, ha, if_true]
  split
  · next hk1 =>
    unfold State.link
    rw [if_neg (h.blockAddr_ne_zero hk1)]
    rfl
  · unfold State.link
    rw [if_pos rfl]
    rfl

/-- A control block with a fault sampled before row `j` of it. -/
theorem State.Started.runBlock_fault (h : s.Started) {k j : Nat} (hk : k < ncbNeeded s.params s.size.toNat)
    (src dst : Word) (cnt : BitVec 16) (h1 : k * rowsPerBlock s.params ≤ j) (h2 : j < rowsEnd s.params s.size.toNat k)
    (hf : ∀ i, k * rowsPerBlock s.params ≤ i → i < j → s.faultSample i = false) (hj : s.faultSample j = true) :
    ∃ con' src' dst' cnt',
      (s.replayed (blockAddr s.params k) src dst cnt (k * rowsPerBlock s.params)).runBlock =
        s.faulted con' src' dst' cnt' j := by
  obtain ⟨e1, e2, e3, e4⟩ := rowsEnd_bounds h.laid.legal hk
  obtain ⟨cnt', hrun⟩ := h.runRows_fault (blockAddr s.params k)
    (BitVec.ofNat 16 (rowsEnd s.params s.size.toNat k - k * rowsPerBlock s.params))
    (rowsEnd s.params s.size.toNat k - k * rowsPerBlock s.params) (k * rowsPerBlock s.params) j (by omega) h1
    (by omega) hf hj
  rw [h.runBlock_eq hk, hrun]
  simp only [State.faulted_active]
  exact ⟨_, _, _, _, rfl⟩

theorem State.runBlocks_inactive (s : State) (n : Nat) (h : s.dmacs.active = false) : State.runBlocks n s = s := by
  cases n with
  | zero => rfl
  | succ n => rw [State.runBlocks, h, if_neg (by simp)]

/-- The control blocks from `k` on, no fault sampled. -/
theorem State.Started.runBlocks_ok (h : s.Started) (hf : ∀ j, j < nRows s.size.toNat → s.faultSample j = false)
    (m k n : Nat) (hk : k < ncbNeeded s.params s.size.toNat) (hm : ncbNeeded s.params s.size.toNat - k = m)
    (hn : m ≤ n) (src dst : Word) (cnt : BitVec 16) :
    ∃ src' dst' cnt',
      State.runBlocks n (s.replayed (blockAddr s.params k) src dst cnt (k * rowsPerBlock s.params)) =
        s.completed src' dst' cnt' := by
  induction m generalizing k n src dst cnt with
  | zero => omega
  | succ m ih =>
    obtain ⟨n, rfl⟩ : ∃ n', n = n' + 1 := ⟨n - 1, by omega⟩
    obtain ⟨src', dst', cnt', hb⟩ := h.runBlock_ok hk src dst cnt fun j _ h2 =>
      hf j (Nat.lt_of_lt_of_le h2 (rowsEnd_bounds h.laid.legal hk).2.2.1)
    rw [State.runBlocks, State.replayed_dmacs, h.active, if_pos rfl, hb]
    split
    · next hk1 => exact ih (k + 1) n hk1 (by omega) (by omega) _ _ _
    · exact ⟨src', dst', cnt', State.runBlocks_inactive _ _ rfl⟩

/-- The control blocks from `k` on, a fault sampled before row `j`. -/
theorem State.Started.runBlocks_fault (h : s.Started) {j : Nat} (hj : j < nRows s.size.toNat)
    (hs : s.faultSample j = true) (hf : ∀ i, i < j → s.faultSample i = false) (m k n : Nat)
    (hk : k < ncbNeeded s.params s.size.toNat) (hkj : k * rowsPerBlock s.params ≤ j)
    (hm : ncbNeeded s.params s.size.toNat - k = m) (hn : m ≤ n) (src dst : Word) (cnt : BitVec 16) :
    ∃ con' src' dst' cnt',
      State.runBlocks n (s.replayed (blockAddr s.params k) src dst cnt (k * rowsPerBlock s.params)) =
        s.faulted con' src' dst' cnt' j := by
  induction m generalizing k n src dst cnt with
  | zero => omega
  | succ m ih =>
    obtain ⟨n, rfl⟩ : ∃ n', n = n' + 1 := ⟨n - 1, by omega⟩
    rw [State.runBlocks, State.replayed_dmacs, h.active, if_pos rfl]
    by_cases hin : j < rowsEnd s.params s.size.toNat k
    · obtain ⟨con', src', dst', cnt', hb⟩ := h.runBlock_fault hk src dst cnt hkj hin (fun i _ h2 => hf i h2) hs
      rw [hb]
      exact ⟨con', src', dst', cnt', State.runBlocks_inactive _ _ rfl⟩
    · obtain ⟨src', dst', cnt', hb⟩ := h.runBlock_ok hk src dst cnt fun i _ h2 => hf i (by omega)
      have hnext := rowsEnd_next h.laid.legal hk
      rw [hb]
      split
      · next hk1 =>
        rw [if_pos hk1] at hnext
        exact ih (k + 1) n hk1 (by omega) (by omega) (by omega) _ _ _
      · next hk1 =>
        rw [if_neg hk1] at hnext
        omega

theorem State.Started.rounds_enough (h : s.Started) :
    ncbNeeded s.params s.size.toNat ≤ s.params.dmaMemBytes / 32 + 1 := by
  have h1 := h.laid.rowBase_lt
  omega

theorem State.Started.eq_replayed (h : s.Started) :
    s = s.replayed (blockAddr s.params 0) s.srcp s.dstp s.rowCnt (0 * rowsPerBlock s.params) := by
  have e : blockAddr s.params 0 = s.conblk := by
    rw [h.first]; simp [blockAddr]
  rw [e, Nat.zero_mul, s.replayed_zero h.zero]

/-- A round of the sequencer on a chain and an image the engine built, no fault sampled: every row of the frame is
output, once and in order (R213). -/
theorem State.Started.sequencerRound_ok (h : s.Started)
    (hf : ∀ j, j < nRows s.size.toNat → s.faultSample j = false) :
    ∃ src dst cnt, s.sequencerRound = s.completed src dst cnt := by
  unfold State.sequencerRound
  have := h.runBlocks_ok hf _ 0 (s.params.dmaMemBytes / 32 + 1) (ncbNeeded_pos h.laid.legal _) rfl
    (by simpa using h.rounds_enough) s.srcp s.dstp s.rowCnt
  rwa [← h.eq_replayed] at this

/-- The same with a fault sampled before row `j`: the rows before it are output, and no more (R208, R211). -/
theorem State.Started.sequencerRound_fault (h : s.Started) {j : Nat} (hj : j < nRows s.size.toNat)
    (hs : s.faultSample j = true) (hf : ∀ i, i < j → s.faultSample i = false) :
    ∃ con src dst cnt, s.sequencerRound = s.faulted con src dst cnt j := by
  unfold State.sequencerRound
  have := h.runBlocks_fault hj hs hf _ 0 (s.params.dmaMemBytes / 32 + 1) (ncbNeeded_pos h.laid.legal _) (by simp) rfl
    (by simpa using h.rounds_enough) s.srcp s.dstp s.rowCnt
  rwa [← h.eq_replayed] at this

end Sys2Proof.Machine
end

