-- ==== Sys2Proof/Laws/Transmit.lean ====
section
/-! SUPPORT. `TRANSMIT` as a whole: what the sequencer leaves unchanged in every state, and the start of either strategy
(41_transmit_direct.md R160, R161, 42_transmit_dma.md R190). -/

namespace Sys2Proof.Machine

/-! What the sequencer can change, whatever stands in `DMEM`. -/

/-- `t` is `s` but for the output port, the channel's own registers and the draws. -/
def State.Sequenced (s t : State) : Prop :=
  t = { s with
    lines := t.lines
    physTrace := t.physTrace
    dmacs := t.dmacs
    conblk := t.conblk
    srcp := t.srcp
    dstp := t.dstp
    rowCnt := t.rowCnt
    rowNo := t.rowNo
    subCause := t.subCause
    dmaFaultIn := t.dmaFaultIn
    drawNo := t.drawNo }

theorem State.Sequenced.refl (s : State) : s.Sequenced s := rfl

theorem State.Sequenced.trans {s t u : State} (h : s.Sequenced t) (k : t.Sequenced u) : s.Sequenced u := by
  unfold State.Sequenced at *
  rw [h] at k
  exact k

theorem State.stop_sequenced (s : State) (k : SubCause) : s.Sequenced (s.stop k) := rfl

theorem State.transferWord_sequenced (s : State) : s.Sequenced s.transferWord := by
  unfold State.transferWord
  split
  · rfl
  · split <;> rfl

theorem State.transferRow_sequenced (s : State) (ss ds : Word) : s.Sequenced (s.transferRow ss ds) := by
  have h1 := s.transferWord_sequenced
  have h2 := h1.trans s.transferWord.transferWord_sequenced
  unfold State.transferRow
  split
  · split
    · exact h2.trans (by rfl)
    · exact h2
  · exact h1

theorem State.rowStep_sequenced (s : State) (ss ds : Word) : s.Sequenced (s.rowStep ss ds) := by
  have hd : s.Sequenced s.drawFault.2 := by rw [State.drawFault_snd]; rfl
  unfold State.rowStep
  simp only
  split
  · exact hd.trans (State.stop_sequenced _ _)
  · exact hd.trans (State.transferRow_sequenced _ _ _)

theorem State.runRows_sequenced (ss ds : Word) (n : Nat) (s : State) : s.Sequenced (State.runRows ss ds n s) := by
  induction n generalizing s with
  | zero => exact State.Sequenced.refl s
  | succ n ih =>
    rw [State.runRows]
    split
    · exact (s.rowStep_sequenced ss ds).trans (ih _)
    · exact s.rowStep_sequenced ss ds

theorem State.link_sequenced (s : State) (next : Word) : s.Sequenced (s.link next) := by
  unfold State.link
  split <;> rfl

theorem State.runBlock_sequenced (s : State) : s.Sequenced s.runBlock := by
  unfold State.runBlock
  split
  · exact State.stop_sequenced _ _
  · split
    · exact State.stop_sequenced _ _
    · have h : s.Sequenced (State.runRows (srcStride (s.blockWord 4)) (dstStride (s.blockWord 4))
          (geomRows (s.blockWord 3)).toNat s.loadBlock) :=
        State.Sequenced.trans (t := s.loadBlock) rfl (State.runRows_sequenced _ _ _ _)
      simp only
      split
      · exact h.trans (State.link_sequenced _ _)
      · exact h

theorem State.runBlocks_sequenced (n : Nat) (s : State) : s.Sequenced (State.runBlocks n s) := by
  induction n generalizing s with
  | zero => exact State.Sequenced.refl s
  | succ n ih =>
    rw [State.runBlocks]
    split
    · exact s.runBlock_sequenced.trans (ih _)
    · exact State.Sequenced.refl s

/-- A round of the sequencer changes the output port, the channel's registers and the draws, and nothing else. -/
theorem State.sequencerRound_sequenced (s : State) : s.Sequenced s.sequencerRound :=
  State.runBlocks_sequenced _ s

/-! The lock (R160). -/

theorem State.occupy_locked {s : State} (h : s.phase ≠ .unconfigured) : s.occupy.phase = .locked := by
  have e : s.occupy.phase = if s.phase = .opened then .locked else s.phase := rfl
  rw [e]
  revert h
  cases s.phase <;> simp

/-! The start of the DMA strategy (R190). -/

/-- The state after the chain build, if one is needed. -/
def State.withChainOnce (s : State) : State := if s.chainBuilt then s else s.withChain

/-- The state in which the sequencer starts. -/
def State.dmaReady (s : State) : State := s.withChainOnce.withImage.dmaStart

theorem State.withChainOnce_laid {s : State} (h : s.Laid) : s.withChainOnce.Laid := by
  unfold State.withChainOnce
  split
  · exact h
  · exact ⟨h.legal, h.fits⟩

theorem State.withChainOnce_intact {s : State} (hc : s.chainBuilt = true → s.ChainIntact) :
    s.withChainOnce.ChainIntact := by
  unfold State.withChainOnce
  split
  · next h => exact hc h
  · exact s.withChain_intact

/-- The start of the DMA strategy, said once: it answers. -/
theorem State.startDma_eq {s : State} (h : s.Laid) (hc : s.chainBuilt = true → s.ChainIntact) :
    s.startDma = .ok s.dmaReady := by
  have h1 : (if s.chainBuilt then Except.ok s else s.buildChain) = .ok s.withChainOnce := by
    unfold State.withChainOnce
    split
    · rfl
    · exact State.buildChain_eq h
  have hl := State.withChainOnce_laid h
  have hr := (State.withChainOnce_intact hc).rowBase
  have h2 : s.withChainOnce.copyImage = .ok s.withChainOnce.withImage :=
    State.copyImage_eq hl (by rw [hr]; exact hl.rowBase_toNat)
  unfold State.startDma
  rw [h1]
  simp only [h2]
  rfl

/-- The sequencer is started on an intact chain and image. -/
theorem State.dmaReady_started {s : State} (h : s.Laid) (hc : s.chainBuilt = true → s.ChainIntact) :
    s.dmaReady.Started := by
  have hl := State.withChainOnce_laid h
  have hi := s.withChainOnce.withImage_image
  have hk := State.withImage_chain hl (State.withChainOnce_intact hc)
  exact ⟨⟨hl.legal, hl.fits⟩, ⟨hk.ncb, hk.rowBase, hk.words⟩, ⟨hi.set, hi.clr⟩, rfl, rfl, rfl⟩

/-- The start changes `DMEM`, the chain's registers and the channel's registers, and nothing else. -/
theorem State.dmaReady_eq (s : State) :
    s.dmaReady =
      { s with
        ncb := s.dmaReady.ncb
        rowBase := s.dmaReady.rowBase
        chainBuilt := true
        dmem := s.dmaReady.dmem
        dmacs := { active := true, ended := false, error := false }
        subCause := .none
        rowNo := 0#32
        conblk := s.params.dmaBase } := by
  unfold State.dmaReady State.withChainOnce
  cases h : s.chainBuilt
  · rfl
  · simp only [if_true]
    simp only [State.withImage, State.dmaStart, h]

/-! `DMEM` after the start. -/

/-- Every word the start writes lies in the chain or the row area (20_memory.md R77). -/
theorem State.dmaReady_dmem (s : State) :
    ∃ ws, s.dmaReady.dmem = writeWords s.dmem ws ∧
      ∀ w ∈ ws, w ∈ s.chainWords ∨ w ∈ s.withChainOnce.imageWords := by
  unfold State.dmaReady State.withChainOnce
  cases h : s.chainBuilt
  · refine ⟨s.chainWords ++ s.withChain.imageWords, ?_, fun w hw => List.mem_append.1 hw⟩
    simp [writeWords, State.withImage, State.withChain, State.dmaStart]
  · exact ⟨s.imageWords, by rfl, fun w hw => .inr hw⟩

/-- The bytes the start writes are the `NeedBytes(SIZE)` bytes from `DMA_BASE` up. -/
theorem State.dmaReady_words_lie {s : State} (h : s.Laid) (hc : s.chainBuilt = true → s.ChainIntact) {w : Nat × Word}
    (hw : w ∈ s.chainWords ∨ w ∈ s.withChainOnce.imageWords) :
    s.params.dmaBase.toNat ≤ w.1 ∧ w.1 + 4 ≤ s.params.dmaBase.toNat + needBytes s.params s.size.toNat := by
  have hs : s.withChainOnce.size = s.size := by unfold State.withChainOnce; split <;> rfl
  have hp : s.withChainOnce.params = s.params := by unfold State.withChainOnce; split <;> rfl
  have hr := (State.withChainOnce_intact hc).rowBase
  have hl := (State.withChainOnce_laid h).rowBase_toNat
  rw [← hr, hs, hp] at hl
  unfold needBytes
  rcases hw with hw | hw
  · have := State.mem_chainWords hw
    have : 0 < nRows s.size.toNat := by simp [nRows]
    omega
  · have := State.mem_imageWords hw
    rw [hs] at this
    omega

/-! The meaning of `TRANSMIT` by cases. -/

/-- A direct `TRANSMIT` that passes the prologue: its whole effect (R160, R161). -/
theorem execTransmit_direct {s : State} (hg : s.gate = none) (hd : s.strategy = .direct) :
    execTransmit s =
      .next (((if s.calDone then s.occupy else s.occupy.calibrate).issue
        (if s.calDone then s.occupy else s.occupy.calibrate).directOps).atWrite (nRows s.size.toNat)).endOk := by
  have hocc : s.occupy.calDone = s.calDone := rfl
  have hstrat : ∀ t : State, t.strategy = .direct → t.runTransmit.strategy = .direct →
      t.resume = t.shiftRest.endOk := by
    intro t h1 h2
    have e : t.runTransmit = t.shiftRest := by unfold State.runTransmit; rw [h1]
    unfold State.resume State.finishTransmit
    rw [h2]
    simp only [e]
  have hc : ∀ t : State, (t.atWrite 0).shiftRest.strategy = t.strategy := by
    intro t
    rw [State.shiftRest_atWrite_zero]
    simp
  have hcal : (if s.calDone then s.occupy else s.occupy.calibrate).strategy = .direct := by
    split
    · exact hd
    · rw [State.calibrate_eq]; exact hd
  have hsize : (if s.calDone then s.occupy else s.occupy.calibrate).size = s.size := by
    split
    · rfl
    · rw [State.calibrate_eq]; rfl
  have hstart : s.occupy.startDirect = (if s.calDone then s.occupy else s.occupy.calibrate).atWrite 0 := by
    unfold State.startDirect
    rw [hocc]
  have hb : s.beginTransmit = .ok ((if s.calDone then s.occupy else s.occupy.calibrate).atWrite 0) := by
    unfold State.beginTransmit
    rw [hd, ← hstart]
  have h0 : ((if s.calDone then s.occupy else s.occupy.calibrate).atWrite 0).strategy = .direct := by
    rw [State.atWrite_strategy]; exact hcal
  have h1 : ((if s.calDone then s.occupy else s.occupy.calibrate).atWrite 0).runTransmit.strategy = .direct := by
    unfold State.runTransmit
    rw [h0]
    simp only [hc, hcal]
  unfold execTransmit
  rw [hg]
  simp only [hb, hstrat _ h0 h1, State.shiftRest_atWrite_zero, hsize]

/-- A DMA `TRANSMIT` that passes the prologue: one round of the sequencer from the started state, then the end by
what stopped it (R190, R198). -/
theorem execTransmit_dma {s : State} (hg : s.gate = none) (hd : s.strategy = .dma) (hl : s.Laid)
    (hc : s.chainBuilt = true → s.ChainIntact) :
    execTransmit s = .next s.occupy.dmaReady.sequencerRound.finishTransmit := by
  have hs : s.occupy.startDma = .ok s.occupy.dmaReady := State.startDma_eq ⟨hl.legal, hl.fits⟩ fun h =>
    ⟨(hc h).ncb, (hc h).rowBase, (hc h).words⟩
  have hstr : s.occupy.dmaReady.strategy = .dma := by rw [State.dmaReady_eq]; exact hd
  have hact : s.occupy.dmaReady.dmacs.active = true := by rw [State.dmaReady_eq]
  have hb : s.beginTransmit = .ok s.occupy.dmaReady := by
    unfold State.beginTransmit
    rw [hd]
    exact hs
  have hr : s.occupy.dmaReady.runTransmit = s.occupy.dmaReady.sequencerRound := by
    unfold State.runTransmit
    rw [hstr]
    simp only [hact, if_true]
  unfold execTransmit
  rw [hg]
  simp only [hb, State.resume, hr]

/-- The end of a DMA `TRANSMIT` whose chain was replayed to its end (R198, R199). -/
theorem State.finishTransmit_completed {s : State} (hd : s.strategy = .dma) (h : s.Started) (src dst : Word)
    (cnt : BitVec 16) :
    (s.completed src dst cnt).finishTransmit = (s.completed src dst cnt).dmaReset.endOk := by
  have h1 : (s.completed src dst cnt).strategy = .dma := hd
  have h2 : (s.completed src dst cnt).dmacs.active = false := rfl
  have h3 : (s.completed src dst cnt).dmacs.error = false := by
    have : (s.completed src dst cnt).dmacs.error = s.dmacs.error := rfl
    rw [this, h.active]
  unfold State.finishTransmit
  rw [h1]
  simp only [h2, h3]
  rfl

/-- The end of a DMA `TRANSMIT` that a sampled fault stopped (R198, R208). -/
theorem State.finishTransmit_faulted {s : State} (hd : s.strategy = .dma) (con src dst : Word)
    (cnt : BitVec 16) (r : Nat) :
    (s.faulted con src dst cnt r).finishTransmit = (s.faulted con src dst cnt r).dmaReset.endDmaError := by
  have h1 : (s.faulted con src dst cnt r).strategy = .dma := hd
  have h2 : (s.faulted con src dst cnt r).dmacs.active = false := rfl
  have h3 : (s.faulted con src dst cnt r).dmacs.error = true := rfl
  unfold State.finishTransmit
  rw [h1]
  simp only [h2, h3]
  rfl

theorem State.faultSample_congr {s t : State} (h1 : t.dmaFaultIn = s.dmaFaultIn) (h2 : t.drawNo = s.drawNo) :
    t.faultSample = s.faultSample := by
  funext n
  unfold State.faultSample
  rw [h1, h2]

theorem State.frameOps_congr {s t : State} (hp : t.plane = s.plane) (hd : t.dataMask = s.dataMask)
    (hs : t.size = s.size) (hc : t.clkPin = s.clkPin) : t.frameOps = s.frameOps := by
  funext n
  unfold State.frameOps
  rw [State.rowOps_congr hp hd hs hc]

/-- Among the rows of a frame there is a first one before which `dma_fault` is sampled 1, or there is none. -/
theorem firstFault (s : State) (n : Nat) :
    (∀ r, r < n → s.faultSample r = false) ∨
      ∃ k, k < n ∧ s.faultSample k = true ∧ ∀ r, r < k → s.faultSample r = false := by
  induction n with
  | zero => exact .inl fun r h => absurd h (Nat.not_lt_zero r)
  | succ n ih =>
    rcases ih with h | ⟨k, h1, h2, h3⟩
    · cases hn : s.faultSample n
      · refine .inl fun r hr => ?_
        rcases Nat.lt_succ_iff_lt_or_eq.1 hr with h' | rfl
        · exact h r h'
        · exact hn
      · exact .inr ⟨n, Nat.lt_succ_self n, hn, h⟩
    · exact .inr ⟨k, Nat.lt_succ_of_lt h1, h2, h3⟩

/-! What `TRANSMIT` can change, whatever its outcome. -/

/-- `t` is `s` but for what a `TRANSMIT` of either strategy may write: so the platform, the configuration, the phase, the
topology, the plane, the strips, the pins' modes and the host's events are as before. -/
def State.Transmitted (s t : State) : Prop :=
  t = { s with
    rsp := t.rsp
    busy := t.busy
    txCount := t.txCount
    errFlags := t.errFlags
    lastErr := t.lastErr
    lines := t.lines
    physTrace := t.physTrace
    tick := t.tick
    ph := t.ph
    calDone := t.calDone
    calRep := t.calRep
    calBusy := t.calBusy
    dmacs := t.dmacs
    conblk := t.conblk
    srcp := t.srcp
    dstp := t.dstp
    rowCnt := t.rowCnt
    rowNo := t.rowNo
    subCause := t.subCause
    chainBuilt := t.chainBuilt
    ncb := t.ncb
    rowBase := t.rowBase
    dmem := t.dmem
    timeIn := t.timeIn
    dmaFaultIn := t.dmaFaultIn
    drawNo := t.drawNo }

theorem State.Transmitted.trans {s t u : State} (h : s.Transmitted t) (k : t.Transmitted u) : s.Transmitted u := by
  unfold State.Transmitted at *
  rw [h] at k
  exact k

theorem State.Sequenced.transmitted {s t : State} (h : s.Sequenced t) : s.Transmitted t := by
  unfold State.Transmitted
  rw [h]

theorem State.startDma_transmitted {s t : State} (h : s.startDma = .ok t) : s.Transmitted t := by
  unfold State.startDma at h
  have hb : ∀ u, (if s.chainBuilt then Except.ok s else s.buildChain) = .ok u → s.Transmitted u := by
    intro u hu
    split at hu
    · cases hu; rfl
    · unfold State.buildChain at hu
      have := (State.memWrites_ok hu).2
      rw [this]
      rfl
  cases h1 : (if s.chainBuilt then Except.ok s else s.buildChain) with
  | error f => rw [h1] at h; cases h
  | ok u =>
    rw [h1] at h
    simp only at h
    cases h2 : u.copyImage with
    | error f => rw [h2] at h; cases h
    | ok v =>
      rw [h2] at h
      simp only [Except.ok.injEq] at h
      have h3 : u.Transmitted v := by
        unfold State.copyImage at h2
        rw [(State.memWrites_ok h2).2]
        rfl
      rw [← h]
      exact ((hb u h1).trans h3).trans (by rfl)

theorem State.finishTransmit_transmitted (s : State) : s.Transmitted s.finishTransmit := by
  unfold State.finishTransmit
  split
  · rfl
  · split
    · rfl
    · split <;> rfl

theorem State.atWrite_transmitted (s : State) (r : Nat) : s.Transmitted (s.atWrite r) := by
  unfold State.atWrite
  split <;> rfl

theorem State.shift_transmitted (s : State) (r n : Nat) : s.Transmitted (s.shift r n) := by
  induction n generalizing s r with
  | zero => rfl
  | succ n ih =>
    rw [State.shift]
    exact State.Transmitted.trans (t := s.logicalWrite r) (by rfl)
      ((State.atWrite_transmitted _ _).trans (ih _ _))

theorem State.runTransmit_transmitted (s : State) : s.Transmitted s.runTransmit := by
  unfold State.runTransmit
  split
  · exact State.shift_transmitted _ _ _
  · split
    · exact s.sequencerRound_sequenced.transmitted
    · rfl

/-- A busy machine that goes on changes nothing else (R212). -/
theorem State.resume_transmitted (s : State) : s.Transmitted s.resume :=
  s.runTransmit_transmitted.trans (State.finishTransmit_transmitted _)

theorem State.beginTransmit_transmitted {s t : State} (h : s.beginTransmit = .ok t) : s.occupy.Transmitted t := by
  unfold State.beginTransmit at h
  split at h
  · cases h
    unfold State.startDirect
    refine State.Transmitted.trans ?_ (State.atWrite_transmitted _ _)
    split
    · rfl
    · rw [State.calibrate_eq]; rfl
  · exact State.startDma_transmitted h

/-- A `TRANSMIT` that passes the prologue and answers a next state has, whatever its outcome, locked the bus and
changed nothing else. -/
theorem execTransmit_transmitted {s t : State} (hg : s.gate = none) (h : execTransmit s = .next t) :
    s.occupy.Transmitted t := by
  unfold execTransmit at h
  rw [hg] at h
  simp only at h
  split at h
  · next u hu =>
    cases h
    exact (State.beginTransmit_transmitted hu).trans u.resume_transmitted
  · cases h

end Sys2Proof.Machine
end

