-- ==== Sys2Proof/Laws/Wire.lean ====
section
/-! SUPPORT. What the chips see of a frame: one logical write, each pair of operations repeated or not, said once
(41_transmit_direct.md R163, R165, R166). -/

namespace Sys2Proof.Machine

theorem latched_append (clk p : Pin) (l : Word) (a b : List GpioOp) :
    latched clk p l (a ++ b) = latched clk p l a ++ latched clk p (linesAfter l a) b := by
  induction a generalizing l with
  | nil => rfl
  | cons op a ih =>
    rw [List.cons_append, latched, latched, linesAfter_cons]
    split
    · rw [ih]; rfl
    · exact ih _

/-! The waveform (10_state.md R52, 41_transmit_direct.md R171). -/

theorem levels_append (mask l : Word) (a b : List GpioOp) :
    levels mask l (a ++ b) = levels mask l a ++ levels mask (linesAfter l a) b := by
  induction a generalizing l with
  | nil => rfl
  | cons op a ih => simp [levels, ih]

/-- Merging keeps the head. -/
theorem merged_cons (v : Word) (vs : List Word) : ∃ us, merged (v :: vs) = v :: us := by
  unfold merged
  split
  · exact ⟨_, rfl⟩
  · split
    · next h => exact ⟨_, by rw [h]⟩
    · exact ⟨_, rfl⟩

theorem merged_dup (v : Word) (vs : List Word) : merged (v :: v :: vs) = merged (v :: vs) := by
  obtain ⟨us, h⟩ := merged_cons v vs
  rw [merged, h]
  simp

/-- Merging a list depends on the merged tail alone. -/
theorem merged_append_congr (a : List Word) {b c : List Word} (h : merged b = merged c) :
    merged (a ++ b) = merged (a ++ c) := by
  induction a with
  | nil => exact h
  | cons v a ih => rw [List.cons_append, List.cons_append, merged, merged, ih]

theorem merged_merged (vs : List Word) : merged (merged vs) = merged vs := by
  induction vs with
  | nil => rfl
  | cons v vs ih =>
    rw [merged]
    split
    · rfl
    · next u us h =>
      rw [h] at ih
      split
      · exact ih
      · next hne => rw [merged, ih]; exact if_neg hne

@[simp] theorem logicalOps_set (m : Word) (ops : List GpioOp) : logicalOps (.set m :: ops) = .set m :: ops := rfl

@[simp] theorem logicalOps_calibration (n : Nat) (ops : List GpioOp) :
    logicalOps (List.replicate n (.clr 0#32) ++ ops) = logicalOps ops := by
  induction n with
  | zero => rfl
  | succ n ih => exact ih

/-- Calibration writes do not show in the waveform of a frame. -/
theorem frameWaveform_calibration (mask l : Word) (n : Nat) (ops : List GpioOp) :
    frameWaveform mask l (List.replicate n (.clr 0#32) ++ ops) = frameWaveform mask l ops := by
  unfold frameWaveform; rw [logicalOps_calibration]

/-- Calibration writes show in a waveform as the level before them. -/
theorem waveform_calibration (mask l : Word) (n : Nat) (ops : List GpioOp) :
    waveform mask l (List.replicate (n + 1) (.clr 0#32) ++ ops) = merged ((l &&& mask) :: waveform mask l ops) := by
  have e := GpioOp.apply_empty_clear l
  induction n with
  | zero =>
    have h := merged_append_congr [l &&& mask] (merged_merged (levels mask l ops))
    simpa [waveform, levels, e] using h.symm
  | succ n ih =>
    rw [← ih, List.replicate_succ, List.replicate_succ]
    simp only [waveform, List.cons_append, levels, e]
    exact merged_dup _ _

/-- What one pair of operations latches: the level of line `p` if the set mask raises the clock. -/
theorem latched_pair (clk p : Pin) (l a b : Word) :
    latched clk p l [.set a, .clr b] =
      if l.getLsbD clk.toNat = false ∧ a.getLsbD clk.toNat = true then [l.getLsbD p.toNat || a.getLsbD p.toNat]
      else [] := by
  simp only [latched, GpioOp.getLsbD_apply_set, GpioOp.getLsbD_apply_clr]
  cases l.getLsbD clk.toNat <;> cases a.getLsbD clk.toNat <;> cases b.getLsbD clk.toNat <;> simp

/-- A repeated pair of disjoint masks latches what one pair latches. -/
theorem latched_replicate_pair (clk p : Pin) (l a b : Word) (n : Nat) (h : a &&& b = 0#32) :
    latched clk p l (List.replicate (n + 1) [GpioOp.set a, .clr b]).flatten =
      latched clk p l [.set a, .clr b] := by
  have hab : ∀ i, a.getLsbD i = true → b.getLsbD i = false := by
    intro i ha
    have := congrArg (fun x => BitVec.getLsbD x i) h
    simpa [ha] using this
  induction n with
  | zero => simp
  | succ n ih =>
    rw [List.replicate_succ', List.flatten_append, latched_append, ih]
    have hl : linesAfter l (List.replicate (n + 1) [GpioOp.set a, .clr b]).flatten = linesAfter l [.set a, .clr b] :=
      linesAfter_replicate_pair l a b n h
    have hn : latched clk p (linesAfter l [.set a, .clr b]) [GpioOp.set a, .clr b] = [] := by
      rw [latched_pair, if_neg]
      rintro ⟨h1, h2⟩
      rw [getLsbD_pair, h2, hab _ h2] at h1
      simp at h1
    simp only [List.flatten_cons, List.flatten_nil, List.append_nil]
    rw [hl, hn, List.append_nil]

/-- The premises under which a frame's masks are what 41_transmit_direct.md R162 says: every plane lane is a registered
line, and the clock is none (10_state.md R26, R28). -/
structure State.Wired (s : State) : Prop where
  lanes : s.LanesRegistered
  clock : s.dataMask &&& s.clkBit = 0#32

theorem State.getLsbD_clkBit (s : State) (i : Nat) : s.clkBit.getLsbD i = decide (i = s.clkPin.toNat) :=
  getLsbD_pinBit s.clkPin i

theorem State.Wired.lane {s : State} (h : s.Wired) {t i : Nat} (hi : (s.planeAt t).getLsbD i = true) :
    s.dataMask.getLsbD i = true := by
  have hl := congrArg (fun x => BitVec.getLsbD x i) (h.lanes t)
  have hlt : i < 32 := by
    by_contra hc
    rw [BitVec.getLsbD_of_ge _ _ (Nat.le_of_not_lt hc)] at hi
    cases hi
  simpa [hi, hlt] using hl

theorem State.Wired.clock_off {s : State} (h : s.Wired) : s.dataMask.getLsbD s.clkPin.toNat = false := by
  have := congrArg (fun x => BitVec.getLsbD x s.clkPin.toNat) h.clock
  simpa [State.getLsbD_clkBit] using this

theorem State.Wired.plane_clock_off {s : State} (h : s.Wired) (t : Nat) :
    (s.planeAt t).getLsbD s.clkPin.toNat = false := by
  cases hp : (s.planeAt t).getLsbD s.clkPin.toNat
  · rfl
  · have := h.lane hp
    rw [h.clock_off] at this
    cases this

theorem State.getLsbD_lowLines (s : State) (t i : Nat) :
    (s.lowLines t).getLsbD i = (s.dataMask.getLsbD i && !(s.planeAt t).getLsbD i) := by
  unfold State.lowLines
  by_cases h : i < 32
  · simp [h]
  · simp [BitVec.getLsbD_of_ge _ i (Nat.le_of_not_lt h)]

/-- The masks of a logical write, bit by bit (R162). -/
theorem State.getLsbD_masks (s : State) (r i : Nat) :
    (s.setMask r).getLsbD i =
        (decide (r < 16 * s.size.toNat) &&
          ((s.planeAt (r / 2)).getLsbD i || (decide (r % 2 = 1) && decide (i = s.clkPin.toNat)))) ∧
      (s.clrMask r).getLsbD i =
        if r < 16 * s.size.toNat then
          (s.dataMask.getLsbD i && !(s.planeAt (r / 2)).getLsbD i) || (decide (r % 2 = 0) && decide (i = s.clkPin.toNat))
        else s.dataMask.getLsbD i || decide (i = s.clkPin.toNat) := by
  unfold State.setMask State.clrMask
  by_cases h : r < 16 * s.size.toNat
  · rcases Nat.mod_two_eq_zero_or_one r with h2 | h2 <;>
      simp [h, h2, State.getLsbD_lowLines, State.getLsbD_clkBit]
  · simp [h, State.getLsbD_clkBit]

/-- The two masks of a logical write are disjoint (R162). -/
theorem State.Wired.disjoint {s : State} (h : s.Wired) (r : Nat) : s.setMask r &&& s.clrMask r = 0#32 := by
  apply BitVec.eq_of_getLsbD_eq
  intro i hi
  obtain ⟨h1, h2⟩ := s.getLsbD_masks r i
  rw [BitVec.getLsbD_and, h1, h2, BitVec.getLsbD_zero]
  by_cases hr : r < 16 * s.size.toNat
  · have hp := h.plane_clock_off (r / 2)
    have hd := h.clock_off
    by_cases hc : i = s.clkPin.toNat
    · subst hc
      rcases Nat.mod_two_eq_zero_or_one r with h3 | h3 <;> simp [hr, h3, hp, hd]
    · simp [hr, hc]
      intro h4 _
      exact h4
  · simp [hr]

/-- One logical write leaves every registered line at its plane bit, the clock low after `A` and high after `B`, and
every line low after `FINAL` (R162, R164). -/
theorem State.Wired.lines_row {s : State} (h : s.Wired) (l : Word) (r : Nat) {i : Nat}
    (hi : s.dataMask.getLsbD i = true ∨ i = s.clkPin.toNat) :
    (linesAfter l (s.rowOps r)).getLsbD i =
      (decide (r < 16 * s.size.toNat) &&
        if i = s.clkPin.toNat then decide (r % 2 = 1) else (s.planeAt (r / 2)).getLsbD i) := by
  obtain ⟨h1, h2⟩ := s.getLsbD_masks r i
  unfold State.rowOps
  rw [getLsbD_pair, h1, h2]
  by_cases hr : r < 16 * s.size.toNat
  · by_cases hc : i = s.clkPin.toNat
    · have hp := h.plane_clock_off (r / 2)
      have hd := h.clock_off
      subst hc
      rcases Nat.mod_two_eq_zero_or_one r with h3 | h3 <;> simp [hr, h3, hp, hd]
    · have hd : s.dataMask.getLsbD i = true := hi.resolve_right hc
      cases hp : (s.planeAt (r / 2)).getLsbD i <;> simp [hr, hc, hd]
  · rcases hi with hd | hc
    · simp [hr, hd]
    · simp [hr, hc]

/-- A line that is neither registered nor the clock keeps its level (20_memory.md R70). -/
theorem State.Wired.lines_row_other {s : State} (h : s.Wired) (l : Word) (r : Nat) {i : Nat}
    (hd : s.dataMask.getLsbD i = false) (hc : i ≠ s.clkPin.toNat) :
    (linesAfter l (s.rowOps r)).getLsbD i = l.getLsbD i := by
  have hp : (s.planeAt (r / 2)).getLsbD i = false := by
    cases hp : (s.planeAt (r / 2)).getLsbD i
    · rfl
    · rw [h.lane hp] at hd; cases hd
  obtain ⟨h1, h2⟩ := s.getLsbD_masks r i
  unfold State.rowOps
  rw [getLsbD_pair, h1, h2]
  simp [hp, hd, hc]

/-- What one logical write latches: nothing for `A` and `FINAL`; for `B`, from a low clock, the line's plane bit. -/
theorem State.Wired.latched_row {s : State} (h : s.Wired) (l : Word) (r : Nat) {p : Pin}
    (hp : s.dataMask.getLsbD p.toNat = true)
    (hl : r < 16 * s.size.toNat → r % 2 = 1 →
      l.getLsbD s.clkPin.toNat = false ∧ l.getLsbD p.toNat = (s.planeAt (r / 2)).getLsbD p.toNat) :
    latched s.clkPin p l (s.rowOps r) =
      if r < 16 * s.size.toNat ∧ r % 2 = 1 then [(s.planeAt (r / 2)).getLsbD p.toNat] else [] := by
  have hclk := (s.getLsbD_masks r s.clkPin.toNat).1
  have hpin := (s.getLsbD_masks r p.toNat).1
  have hoff := h.plane_clock_off (r / 2)
  have hne : p.toNat ≠ s.clkPin.toNat := by
    intro e
    rw [e, h.clock_off] at hp
    cases hp
  unfold State.rowOps
  rw [latched_pair, hclk, hpin]
  by_cases hr : r < 16 * s.size.toNat
  · rcases Nat.mod_two_eq_zero_or_one r with h3 | h3
    · simp only [hr, h3, hoff]
      simp
    · obtain ⟨e1, e2⟩ := hl hr h3
      simp only [hr, h3, hoff, e1, e2, hne]
      simp
  · simp only [hr]
    simp

/-! Whole frames. -/

/-- Logical writes `0 .. n-1`, each pair `k` times: `State.frameOps` is the case `k = 1`, `State.directOps` the case
`k = CALREP`. -/
def State.repeatedOps (s : State) (k n : Nat) : List GpioOp :=
  (List.range n).flatMap fun r => (List.replicate k (s.rowOps r)).flatten

theorem State.repeatedOps_one (s : State) (n : Nat) : s.repeatedOps 1 n = s.frameOps n := by
  simp [State.repeatedOps, State.frameOps, List.replicate_one]

/-- A frame, one logical write longer. -/
theorem State.frameOps_rowOps (s : State) (n : Nat) : s.frameOps (n + 1) = s.frameOps n ++ s.rowOps n := by
  simp [State.frameOps, List.range_succ]

theorem State.directOps_eq (s : State) : s.directOps = s.repeatedOps s.calRep.toNat (nRows s.size.toNat) := rfl

theorem State.repeatedOps_succ (s : State) (k n : Nat) :
    s.repeatedOps k (n + 1) = s.repeatedOps k n ++ (List.replicate k (s.rowOps n)).flatten := by
  simp [State.repeatedOps, List.range_succ]

theorem State.repeatedOps_length (s : State) (k n : Nat) : (s.repeatedOps k n).length = 2 * k * n := by
  induction n with
  | zero => rfl
  | succ n ih =>
    have : (List.replicate k (s.rowOps n)).flatten.length = 2 * k := by
      simp [State.rowOps, Nat.mul_comm]
    rw [State.repeatedOps_succ, List.length_append, ih, this, Nat.mul_succ]

/-- Repetition leaves the lines where a single pass leaves them (20_memory.md R70). -/
theorem State.Wired.lines_repeated {s : State} (h : s.Wired) (l : Word) (k n : Nat) :
    linesAfter l (s.repeatedOps (k + 1) n) = linesAfter l (s.frameOps n) := by
  induction n with
  | zero => rfl
  | succ n ih =>
    rw [← s.repeatedOps_one] at *
    rw [State.repeatedOps_succ, State.repeatedOps_succ, linesAfter_append, linesAfter_append, ih]
    have := linesAfter_replicate_pair (linesAfter l (s.repeatedOps 1 n)) _ _ k (h.disjoint n)
    unfold State.rowOps
    rw [this]
    simp

/-- Repetition latches what a single pass latches. -/
theorem State.Wired.latched_repeated {s : State} (h : s.Wired) (clk p : Pin) (l : Word) (k n : Nat) :
    latched clk p l (s.repeatedOps (k + 1) n) = latched clk p l (s.frameOps n) := by
  induction n with
  | zero => rfl
  | succ n ih =>
    have hl := h.lines_repeated l k n
    rw [← s.repeatedOps_one] at *
    rw [State.repeatedOps_succ, State.repeatedOps_succ, latched_append, latched_append, ih, hl]
    have := latched_replicate_pair clk p (linesAfter l (s.repeatedOps 1 n)) _ _ k (h.disjoint n)
    unfold State.rowOps
    rw [this]
    simp

end Sys2Proof.Machine
end

