-- ==== Sys2Proof/Machine/Assembler.lean ====
section
/-! DEFINITION. The text form of the commands (30_encoding.md R117) and the pseudo-instructions (R118). The machine
itself reads command words only; nothing here is called by a step. -/

namespace Sys2Proof.Machine

/-! Pseudo-instructions (R118). -/

/-- What one line of text stands for: a command, or one of the pseudo-instructions of R118. -/
inductive AsmLine where
  /-- a command as it stands -/
  | command (i : Instr)
  /-- a constructor without its order -/
  | mkDefault (proto : Proto) (pin : Pin) (count : BitVec 16)
  /-- `setbrt1 <pin>, <s>` -/
  | setbrt1 (pin : Pin) (s : Word)
  /-- `fill8 <pin>, <n>, <r>, <g>, <b>`. The spec gives `n` no range: 0 to 65536, the counts whose indexes
  `0 .. n-1` all fit the 16 bits of `IDX`, is the model's choice (log 20) -/
  | fill8 (pin : Pin) (n : Fin 65537) (r g b : Byte)
deriving DecidableEq, Repr

/-- The default component order of a protocol (R118). -/
def Proto.defaultOrder : Proto → Order
  | .ws2801 => .rgb
  | .lpd6803 => .rgb
  | .lpd8806 => .rgb
  | .apa102 => .bgr
  | .sk9822 => .bgr

/-- The commands a line expands to, in order (R118). -/
def AsmLine.expand : AsmLine → List Instr
  | .command i => [i]
  | .mkDefault proto pin count => [proto.constructor pin proto.defaultOrder.code count]
  | .setbrt1 pin s => [.setbrt pin s s s]
  | .fill8 pin n r g b => (List.range n.val).map fun i => .setpix8 pin (BitVec.ofNat 16 i) r g b

/-! Numbers (R117): decimal, `0x` hexadecimal, and a scale as a decimal fraction `x`, which stands for
`floor(x * 65536)`. -/

/-- The value of one digit in a base, if it is one. -/
def digitOf (base : Nat) (c : Char) : Option Nat :=
  let v :=
    if '0' ≤ c ∧ c ≤ '9' then c.toNat - '0'.toNat
    else if 'a' ≤ c ∧ c ≤ 'f' then c.toNat - 'a'.toNat + 10
    else if 'A' ≤ c ∧ c ≤ 'F' then c.toNat - 'A'.toNat + 10
    else base
  if v < base then some v else none

/-- The number a run of digits is, continuing from `acc`. -/
def digitsFrom (base acc : Nat) : List Char → Option Nat
  | [] => some acc
  | c :: cs =>
    match digitOf base c with
    | none => none
    | some v => digitsFrom base (base * acc + v) cs

/-- A number. -/
def numberOf : List Char → Option Nat
  | [] => none
  | '0' :: 'x' :: [] => none
  | '0' :: 'x' :: c :: cs => digitsFrom 16 0 (c :: cs)
  | c :: cs => digitsFrom 10 0 (c :: cs)

/-- A number that fits an operand of `w` bits. -/
def operandOf (w : Nat) (cs : List Char) : Option (BitVec w) :=
  match numberOf cs with
  | none => none
  | some v => if v < 2 ^ w then some (BitVec.ofNat w v) else none

/-- The count of a `fill8` line: a number up to 65536, any larger one is refused (log 20). -/
def fillCountOf (cs : List Char) : Option (Fin 65537) :=
  match numberOf cs with
  | none => none
  | some v => if h : v < 65537 then some ⟨v, h⟩ else none

/-- A scale operand: a number, or a decimal fraction. -/
def scaleOf (cs : List Char) : Option Word :=
  if cs.contains '.' then
    let whole := cs.takeWhile (· ≠ '.')
    let frac := (cs.dropWhile (· ≠ '.')).drop 1
    if whole.isEmpty || frac.isEmpty then none
    else
      match digitsFrom 10 0 (whole ++ frac) with
      | none => none
      | some v =>
        if v * 65536 / 10 ^ frac.length < 2 ^ 32 then some (BitVec.ofNat 32 (v * 65536 / 10 ^ frac.length)) else none
  else operandOf 32 cs

/-! Words of the text. -/

/-- The code of an order's name (R101, R117). -/
def orderOf : List Char → Option (BitVec 3)
  | ['r', 'g', 'b'] => some Order.rgb.code
  | ['r', 'b', 'g'] => some Order.rbg.code
  | ['g', 'r', 'b'] => some Order.grb.code
  | ['g', 'b', 'r'] => some Order.gbr.code
  | ['b', 'r', 'g'] => some Order.brg.code
  | ['b', 'g', 'r'] => some Order.bgr.code
  | _ => none

/-- The strategy's name (R117). -/
def strategyOf : List Char → Option Strategy
  | ['d', 'i', 'r', 'e', 'c', 't'] => some .direct
  | ['d', 'm', 'a'] => some .dma
  | _ => none

/-- An operand without its keyword; the keyword may be left out (R117, 90_conflicts.md C13). -/
def withoutKeyword (key : List Char) (cs : List Char) : List Char :=
  if key.isPrefixOf cs then cs.drop key.length else cs

/-- Spaces at both ends dropped. -/
def trimmed (cs : List Char) : List Char :=
  ((cs.dropWhile (· = ' ')).reverse.dropWhile (· = ' ')).reverse

/-- The pieces between commas. -/
def commaPieces : List Char → List (List Char)
  | [] => [[]]
  | c :: cs =>
    match commaPieces cs with
    | [] => [[c]]
    | p :: ps => if c = ',' then [] :: p :: ps else (c :: p) :: ps

/-- The operands of a line, from the text after the mnemonic. -/
def operandsOf (cs : List Char) : List (List Char) :=
  if (trimmed cs).isEmpty then [] else (commaPieces cs).map trimmed

/-- A constructor line, with or without its order. -/
def constructorLine (proto : Proto) : List (List Char) → Option AsmLine
  | [p, n] => do return .mkDefault proto (← operandOf 5 p) (← operandOf 16 n)
  | [p, n, o] => do return .command (proto.constructor (← operandOf 5 p) (← orderOf o) (← operandOf 16 n))
  | _ => none

/-- The line a mnemonic and its operands are (R117, R118; log 20 for the count of `fill8`). -/
def lineOf (mnemonic : String) (ops : List (List Char)) : Option AsmLine :=
  match mnemonic, ops with
  | "nop", [] => some (.command .nop)
  | "buscfg", [c, s, f] => do
    return .command (.buscfg (← operandOf 5 (withoutKeyword ['c', 'l', 'k', '='] c))
      (← strategyOf (withoutKeyword ['s', 't', 'r', 'a', 't', '='] s))
      (← operandOf 32 (withoutKeyword ['f', 'r', 'e', 'q', '='] f)))
  | "regline", [p, l] => do return .command (.regline (← operandOf 5 p) (← operandOf 32 l))
  | "setbyte", [p, x, v] => do return .command (.setbyte (← operandOf 5 p) (← operandOf 32 x) (← operandOf 8 v))
  | "transmit", [] => some (.command .transmit)
  | "rdreg", [a] => do return .command (.rdreg (← operandOf 8 a) 0#5)
  | "rdreg", [a, p] => do return .command (.rdreg (← operandOf 8 a) (← operandOf 5 p))
  | "clrerr", [] => some (.command .clrerr)
  | "mkws2801", ops => constructorLine .ws2801 ops
  | "mklpd6803", ops => constructorLine .lpd6803 ops
  | "mklpd8806", ops => constructorLine .lpd8806 ops
  | "mkapa102", ops => constructorLine .apa102 ops
  | "mksk9822", ops => constructorLine .sk9822 ops
  | "setpix8", [p, i, r, g, b] => do
    return .command (.setpix8 (← operandOf 5 p) (← operandOf 16 i) (← operandOf 8 r) (← operandOf 8 g) (← operandOf 8 b))
  | "setpix16", [p, i, r, g, b] => do
    return .command
      (.setpix16 (← operandOf 5 p) (← operandOf 16 i) (← operandOf 16 r) (← operandOf 16 g) (← operandOf 16 b))
  | "setbrt", [p, r, g, b] => do
    return .command (.setbrt (← operandOf 5 p) (← scaleOf r) (← scaleOf g) (← scaleOf b))
  | "setbrt1", [p, s] => do return .setbrt1 (← operandOf 5 p) (← scaleOf s)
  | "fill8", [p, n, r, g, b] => do
    return .fill8 (← operandOf 5 p) (← fillCountOf n) (← operandOf 8 r) (← operandOf 8 g) (← operandOf 8 b)
  | "rmstrip", [p] => do return .command (.rmstrip (← operandOf 5 p))
  | _, _ => none

/-- The commands one line of text stands for; none where the line is no line of R117 and R118. A blank line and a line
that is only a comment stand for no command. -/
def assemble (line : String) : Option (List Instr) :=
  let text := trimmed (line.toList.takeWhile (· ≠ ';'))
  if text.isEmpty then some []
  else
    match lineOf (String.ofList (text.takeWhile (· ≠ ' '))) (operandsOf (text.dropWhile (· ≠ ' '))) with
    | none => none
    | some l => some l.expand

end Sys2Proof.Machine
end

