-- ==== Sys2Proof/Tests/Slice0.lean ====
section
/-! SUPPORT. Tests: words written out from 30_encoding.md, vectors of 95_test_vectors.md, and for every statement with
hypotheses a state and operands that meet them. Expected values come from the spec. -/

namespace Sys2Proof.Tests

/- One theorem at a time: each thread of the elaborator reserves its own stack, and a hundred small theorems elaborated at
once exceed the memory the check allows. -/
set_option Elab.async false

open Sys2Proof.Machine

/-! Well-formedness: the one check, refused in each of its ways (30_encoding.md R105 (c)). -/

theorem test_wf_refuses_undefined_register : (Instr.rdreg 0x0F#8 0#5).wf = false := by decide
theorem test_wf_refuses_bus_register_with_pin : (Instr.rdreg 0x05#8 1#5).wf = false := by decide
theorem test_wf_refuses_past_strip_registers : (Instr.rdreg 0x2A#8 7#5).wf = false := by decide
theorem test_wf_accepts_strip_register : (Instr.rdreg 0x29#8 31#5).wf = true := by decide

/-! Decoding: every constructor, words V1 to V20 (95_test_vectors.md section 2.1). -/

theorem test_decode_nop : decode 0x00000000_00000000_00000000_00000000#128 = .ok .nop := by decide
theorem test_decode_buscfg :
    decode 0x00000000_000F4240_00000000_00000401#128 = .ok (.buscfg 4#5 .direct 1000000#32) := by decide
theorem test_decode_buscfg_dma :
    decode 0x00000000_00000000_00000001_00000401#128 = .ok (.buscfg 4#5 .dma 0#32) := by decide
theorem test_decode_buscfg_pin17 :
    decode 0x00000000_003D0900_00000000_00001101#128 = .ok (.buscfg 17#5 .direct 4000000#32) := by decide
theorem test_decode_regline :
    decode 0x00000000_00000000_00000001_00000502#128 = .ok (.regline 5#5 1#32) := by decide
theorem test_decode_setbyte :
    decode 0x00000000_000000A5_00000002_00000503#128 = .ok (.setbyte 5#5 2#32 0xA5#8) := by decide
theorem test_decode_setbyte_high :
    decode 0x00000000_00000080_0000002F_00000603#128 = .ok (.setbyte 6#5 47#32 0x80#8) := by decide
theorem test_decode_transmit : decode 0x00000000_00000000_00000000_00000004#128 = .ok .transmit := by decide
theorem test_decode_rdreg_bus :
    decode 0x00000000_00000000_0000000E_00000005#128 = .ok (.rdreg 0x0E#8 0#5) := by decide
theorem test_decode_rdreg_strip :
    decode 0x00000000_00000000_00000024_00000705#128 = .ok (.rdreg 0x24#8 7#5) := by decide
theorem test_decode_clrerr : decode 0x00000000_00000000_00000000_00000006#128 = .ok .clrerr := by decide
theorem test_decode_mkws2801 :
    decode 0x00000000_00000000_00000000_00100510#128 = .ok (.mkws2801 5#5 0#3 16#16) := by decide
theorem test_decode_mklpd6803 :
    decode 0x00000000_00000000_00000000_00020611#128 = .ok (.mklpd6803 6#5 0#3 2#16) := by decide
theorem test_decode_mklpd8806 :
    decode 0x00000000_00000000_00000000_00024812#128 = .ok (.mklpd8806 8#5 2#3 2#16) := by decide
theorem test_decode_mkapa102 :
    decode 0x00000000_00000000_00000000_0011A713#128 = .ok (.mkapa102 7#5 5#3 17#16) := by decide
theorem test_decode_mksk9822 :
    decode 0x00000000_00000000_00000000_0001A914#128 = .ok (.mksk9822 9#5 5#3 1#16) := by decide
theorem test_decode_setpix8 :
    decode 0x00000000_00000000_00030201_00090718#128 = .ok (.setpix8 7#5 9#16 1#8 2#8 3#8) := by decide
theorem test_decode_setpix16 :
    decode 0x00000000_00000001_8000FFFF_00010719#128 =
      .ok (.setpix16 7#5 1#16 0xFFFF#16 0x8000#16 0x0001#16) := by decide
theorem test_decode_setbrt :
    decode 0x00004000_00008000_00010000_0000071A#128 =
      .ok (.setbrt 7#5 0x00010000#32 0x00008000#32 0x00004000#32) := by decide
theorem test_decode_rmstrip : decode 0x00000000_00000000_00000000_0000071B#128 = .ok (.rmstrip 7#5) := by decide

/-! Illegal words, one for each clause of R105. -/

theorem test_illegal_opcode : decode 0x00000000_00000000_00000000_00000007#128 = .error .opcode := by decide
theorem test_illegal_top_bit : decode 0x80000000_00000000_00000000_00000004#128 = .error .reserved := by decide
theorem test_illegal_bit_13 : decode 0x00000000_00000000_00000001_00002502#128 = .error .reserved := by decide
theorem test_illegal_register : decode 0x00000000_00000000_0000000F_00000005#128 = .error .register := by decide
theorem test_illegal_bus_register_pin : decode 0x00000000_00000000_00000005_00000105#128 = .error .register := by decide
theorem test_table_word : decodeTableWord 128 0x0011A713 = some (.mkapa102 7#5 5#3 17#16) := by decide

/-! Assembler text (30_encoding.md R117, R118). -/

theorem test_assemble_named :
    assemble "buscfg clk=4, strat=direct, freq=1000000 ; a comment" = some [.buscfg 4#5 .direct 1000000#32] := by
  decide +kernel
theorem test_assemble_pseudo :
    assemble "setbrt1 7, 0.5" = some [.setbrt 7#5 0x8000#32 0x8000#32 0x8000#32] := by decide +kernel

theorem test_assemble_fill8 :
    assemble "fill8 7, 2, 1, 2, 3" = some [.setpix8 7#5 0#16 1#8 2#8 3#8, .setpix8 7#5 1#16 1#8 2#8 3#8] ∧
      (lineOf "fill8" [['7'], ['6', '5', '5', '3', '6'], ['1'], ['2'], ['3']]).isSome = true := by decide +kernel

/-! Small states. -/

/-- Whether a command answers a next state with the property. -/
def after (o : Host.Outcome State Fault Refusal) (P : State → Bool) : Bool :=
  match o with
  | .next t => P t
  | .fault _ => false
  | .refused _ => false

/-- A direct bus with clock 4 and line 5 of two bytes. -/
def openBus : State :=
  { State.reset with phase := .opened, clkPin := 4#5, dataMask := 0x20#32, size := 2#32, outPins := 0x30#32 }

/-- The same, calibrated and locked, two repetitions. -/
def calBus : State := { openBus with phase := .locked, calDone := true, calRep := 2#32 }

/-- A calibrated direct bus with an empty buffer. -/
def calEmpty : State := { calBus with size := 0#32 }

/-- A DMA bus with clock 4, line 5 and an empty buffer; the one sample of `dma_fault` is 0. -/
def dmaEmpty : State :=
  { State.reset with
    phase := .opened, clkPin := 4#5, strategy := .dma, dataMask := 0x20#32, outPins := 0x30#32, dmaFaultIn := [false] }

/-- A DMA bus with a buffer of one byte; none of its 17 samples of `dma_fault` is 1. -/
def dmaOne : State := { dmaEmpty with size := 1#32, dmaFaultIn := List.replicate 17 false }

/-- A calibrated direct bus with a buffer of one byte. -/
def calOne : State := { calBus with size := 1#32 }

/-- A direct bus with a buffer of one byte before its first `TRANSMIT`; the time base fails. -/
def firstOne : State := { openBus with size := 1#32, timeIn := List.replicate 3 ⟨false, 0#64⟩ }

/-- The DMA bus with an empty buffer in the fatal state. -/
def fatalBus : State := { dmaEmpty with fatal := true }

/-- A DMA bus with a buffer of one byte; `dma_fault` is first sampled 1 before the last row. -/
def dmaFaulty : State := { dmaEmpty with size := 1#32, dmaFaultIn := List.replicate 16 false ++ [true] }

/-- A direct bus with one strip of one pixel on pin 5. -/
def stripBus (proto : Proto) : State :=
  { openBus with size := 16#32, strips := (Vector.replicate 32 Strip.blank).set 5 (Strip.fresh proto .bgr 1#16) }

/-- The two lines of V25: pin 5 carries 0xA5, pin 6 carries 0x3C. -/
def twoLines : State :=
  { calBus with
    dataMask := 0x60#32, size := 1#32, calRep := 1#32
    plane := [(0, 0x20#32), (2, 0x60#32), (3, 0x40#32), (4, 0x40#32), (5, 0x60#32), (7, 0x20#32)] }

/-! One command each. -/

theorem test_nop_response : after (exec .nop State.reset) (fun t => t.rsp == some 0#64) = true := by decide +kernel

/-- S6. -/
theorem test_regline_first :
    after (exec (.regline 5#5 48#32) { State.reset with phase := .opened, clkPin := 4#5 })
      (fun t => t.rsp == some 0x00000030_00000200#64 && t.dataMask == 0x20#32) = true := by decide +kernel

/-- V22: the clock pin. -/
theorem test_regline_clock_pin :
    after (exec (.regline 4#5 1#32) openBus)
      (fun t => t.rsp == some 0x00000000_00000203#64 && t.errFlags == 0x0008#16) = true := by decide +kernel

/-- V24. -/
theorem test_buscfg_twice :
    after (exec (.buscfg 9#5 .dma 5#32) openBus)
      (fun t => t.rsp == some 0x00000000_00000102#64 && t.clkPin == 4#5) = true := by decide +kernel

/-- V21: 0xA5 on lane 5. -/
theorem test_setbyte_lane :
    after (exec (.setbyte 5#5 1#32 0xA5#8) openBus)
      (fun t => t.plane == [(8, 0x20#32), (10, 0x20#32), (13, 0x20#32), (15, 0x20#32)]) = true := by decide +kernel

/-- V22: one past the end. -/
theorem test_setbyte_range :
    after (exec (.setbyte 5#5 2#32 1#8) openBus)
      (fun t => t.rsp == some 0x00000000_00000305#64 && t.plane == []) = true := by decide +kernel

/-- V23. -/
theorem test_rdreg_engine_id :
    after (exec (.rdreg 0x00#8 0#5) State.reset) (fun t => t.rsp == some 0x53505801_00000500#64) = true := by
  decide +kernel

/-- V23: `STATUS` of a DMA bus. -/
theorem test_rdreg_status :
    after (exec (.rdreg 0x01#8 0#5) dmaEmpty) (fun t => t.rsp == some 0x00000021_00000500#64) = true := by
  decide +kernel

theorem test_clrerr_clears :
    after (exec .clrerr { openBus with errFlags := 0x0208#16, lastErr := 0x0009#16 })
      (fun t => t.rsp == some 0x00000000_00000600#64 && t.errFlags == 0#16 && t.lastErr == 0#16) = true := by
  decide +kernel

/-- S1 for one pixel of APA102. -/
theorem test_mkapa102_black :
    after (exec (.mkapa102 7#5 5#3 1#16) openBus)
      (fun t => t.stream 7#5 == [0x00, 0x00, 0x00, 0x00, 0xE1, 0x00, 0x00, 0x00, 0x00, 0x00, 0x00, 0x00, 0x00] &&
        t.rsp == some 0x0000000D_00001300#64) = true := by decide +kernel

theorem test_mkws2801_size :
    after (exec (.mkws2801 6#5 0#3 2#16) openBus) (fun t => t.size == 6#32 && t.plane == []) = true := by
  decide +kernel

theorem test_mklpd6803_black :
    after (exec (.mklpd6803 6#5 0#3 1#16) openBus)
      (fun t => t.stream 6#5 == [0x00, 0x00, 0x00, 0x00, 0x80, 0x00, 0x00, 0x00, 0x00, 0x00]) = true := by
  decide +kernel

theorem test_mklpd8806_black :
    after (exec (.mklpd8806 8#5 2#3 1#16) openBus)
      (fun t => t.stream 8#5 == [0x00, 0x80, 0x80, 0x80]) = true := by decide +kernel

theorem test_mksk9822_proto :
    after (exec (.mksk9822 9#5 5#3 1#16) openBus)
      (fun t => (t.strip 9#5).proto == .sk9822 && (t.strip 9#5).valid) = true := by decide +kernel

/-- 43_strip_factory.md R233 (3): order code 6 is `ERR_STRIP`. -/
theorem test_constructor_reserved_order :
    after (exec (.mkws2801 6#5 6#3 1#16) openBus) (fun t => t.rsp == some 0x00000000_00001009#64) = true := by
  decide +kernel

/-- S7: red 255 at full brightness in order `bgr`. -/
theorem test_setpix8_apa102 :
    after (exec (.setpix8 5#5 0#16 255#8 0#8 0#8) (stripBus .apa102))
      (fun t => t.byteAt 5#5 4 == 0xFF#8 && t.byteAt 5#5 5 == 0#8 && t.byteAt 5#5 6 == 0#8 &&
        t.byteAt 5#5 7 == 0xFF#8) = true := by decide +kernel

theorem test_setpix8_past_end :
    after (exec (.setpix8 5#5 1#16 255#8 0#8 0#8) (stripBus .apa102))
      (fun t => t.rsp == some 0x00000000_00001800#64 && t.plane == []) = true := by decide +kernel

/-- 44_pixel_encoders.md R273: full red needs level 31; black takes level 1. -/
theorem test_setpix16_apa102 :
    after (exec (.setpix16 5#5 0#16 0xFFFF#16 0#16 0#16) (stripBus .apa102))
      (fun t => t.byteAt 5#5 4 == 0xFF#8 && t.byteAt 5#5 7 == 0xFF#8) = true := by decide +kernel
theorem test_setpix16_black :
    after (exec (.setpix16 5#5 0#16 0#16 0#16 0#16) (stripBus .apa102))
      (fun t => t.byteAt 5#5 4 == 0xE1#8 && t.byteAt 5#5 7 == 0x00#8) = true := by decide +kernel

/-- S9. -/
theorem test_setbrt_half :
    after (exec (.setbrt 5#5 0x8000#32 0x8000#32 0x8000#32) (stripBus .apa102))
      (fun t => (t.strip 5#5).level0 == 16#5 && (t.strip 5#5).compR == 0x0000F800#32) = true := by decide +kernel

/-- S3, two neighbours of the table V60. -/
theorem test_level_steps :
    level0Of 0x00842#32 0#32 0#32 = 1#5 ∧ level0Of 0x00843#32 0#32 0#32 = 2#5 := by decide +kernel

theorem test_rmstrip_clears :
    after (exec (.rmstrip 5#5) (stripBus .apa102))
      (fun t => !(t.strip 5#5).valid && t.rsp == some 0x00000000_00001B00#64) = true := by decide +kernel
theorem test_rmstrip_no_strip :
    after (exec (.rmstrip 5#5) openBus) (fun t => t.rsp == some 0x00000000_00001B09#64) = true := by decide +kernel

/-- V25: the waveform and the number of operations. -/
theorem test_transmit_waveform :
    after (exec .transmit twoLines)
      (fun t => t.physTrace.length == 34 &&
        waveform 0x70#32 0#32 t.physTrace ==
          [0x20, 0x30, 0x00, 0x10, 0x70, 0x60, 0x70, 0x40, 0x50, 0x40, 0x50, 0x70, 0x60, 0x70, 0x00, 0x10, 0x30, 0x20,
            0x30, 0x00]) = true := by decide +kernel

/-- P5: the frame of a first `TRANSMIT` with `CAL_N = 3` has the waveform of V25; the literal `Waveform` of R52 has the
level before the command at its head. -/
theorem test_first_transmit_waveform :
    after (exec .transmit
      { twoLines with
        phase := .opened, calDone := false, calRep := 0#32
        params := { exampleParams with calN := 3, minWrites := 1 }
        timeIn := [⟨true, 0#64⟩, ⟨true, 1#64⟩, ⟨true, 2#64⟩] })
      (fun t => t.physTrace.take 3 == List.replicate 3 (.clr 0#32) && t.physTrace.length == 37 &&
        t.calRep == 1#32 && t.calBusy == 0#32 && (waveform 0x70#32 0#32 t.physTrace).take 3 == [0x00, 0x20, 0x30] &&
        frameWaveform 0x70#32 0#32 t.physTrace ==
          [0x20, 0x30, 0x00, 0x10, 0x70, 0x60, 0x70, 0x40, 0x50, 0x40, 0x50, 0x70, 0x60, 0x70, 0x00, 0x10, 0x30, 0x20,
            0x30, 0x00]) = true := by decide +kernel

/-- V26 and R197 to R209: the chain of an empty buffer is replayed and ends. -/
theorem test_transmit_dma_empty :
    after (exec .transmit dmaEmpty)
      (fun t => t.rsp == some 0x00000000_00000400#64 && t.physTrace == [.set 0#32, .clr 0x30#32] &&
        t.ncb == 1#32 && t.txCount == 1#32) = true := by decide +kernel

/-- V27, second row. -/
theorem test_calibration :
    solveTiming exampleParams 1000000#32 ⟨true, 0#64⟩ ⟨true, 30000#64⟩ ⟨true, 40000#64⟩ = (8#32, 2#32) := by
  decide +kernel

/-- 10_state.md R46: the listed table is what its formula gives. -/
theorem test_rtab_formula : ∀ L : BitVec 5, 1 ≤ L.toNat → rtabAt rtabApa L = 31 * 65536 / L.toNat := by decide

/-- 60_exceptions.md R311. -/
theorem test_illegal_word :
    after (step (State.reset.withFetchWord 128 0x07)) (fun t => t.rsp == some 0x00000000_00000701#64) = true := by
  decide +kernel
theorem test_fetch_word :
    after (step (State.reset.withFetchWord 128 0x401)) (fun t => t.phase == .opened && t.clkPin == 4#5) = true := by
  decide +kernel
theorem test_reset_memory_wf :
    Memory.wf State.reset.plane = true ∧ Memory.wf State.reset.dmem = true := by decide

/-! Witnesses: for each statement with hypotheses, states and operands that meet them all, each clause at a boundary. -/

theorem exampleParams_legal : exampleParams.Legal := by constructor <;> decide

/-- A bus without strips, its plane and `DMEM` empty, meets the invariant when its plain fields do. -/
theorem inv_bare {s : State} (hp : s.params = exampleParams) (hpl : s.plane = []) (hdm : s.dmem = [])
    (hst : s.strips = Vector.replicate 32 Strip.blank)
    (hidle : s.busy = false ∧ s.dmacs = { active := false, ended := false, error := false } ∧ s.conblk = 0#32)
    (hmask : s.dataMask &&& s.clkBit = 0#32 ∧ s.dataMask &&& ~~~s.params.validPins = 0#32)
    (hphase : s.phase ≠ .unconfigured ∧ s.pinValid s.clkPin = true)
    (hfatal : s.fatal = true → s.phase = .opened ∧ s.strategy = .dma)
    (hsize : s.size.toNat ≤ 4096 ∧ needBytes exampleParams s.size.toNat ≤ 0x100000)
    (herr : s.errFlags &&& 0xFC01#16 = 0#16)
    (hcal : s.calDone = true → s.phase = .locked ∧ s.strategy = .direct ∧ 2 ≤ s.calRep.toNat)
    (huncal : s.calDone = false → s.calRep = 0#32 ∧ s.calBusy = 0#32)
    (hchain : s.chainBuilt = false ∧ s.ncb = 0#32 ∧ s.rowBase = 0#32) : Inv s := by
  have hstrip : ∀ p, (s.strip p).valid = false := by
    intro p
    unfold State.strip
    simp [hst, Strip.blank]
  constructor
  case params => rw [hp]; exact exampleParams_legal
  case idle => exact hidle.1
  case channel_idle => exact hidle.2.1
  case conblk_idle => exact hidle.2.2
  case clock_not_data => exact hmask.1
  case lines_valid => exact hmask.2
  case clock_valid => exact fun _ => hphase.2
  case no_bus => exact fun h => absurd h hphase.1
  case fatal_open => exact hfatal
  case size_le => rw [hp]; exact hsize.1
  case image_fits => intro _; rw [hp]; exact hsize.2
  case plane_wf => rw [hpl]; exact Memory.wf_nil
  case plane_bounded => rw [hpl]; simp
  case lanes => intro t; unfold State.planeAt; rw [hpl]; simp
  case strips => intro p h; rw [hstrip p] at h; cases h
  case err_reserved => exact herr
  case calibrated => intro h _; rw [hp]; exact (hcal h).2.2
  case uncalibrated => exact huncal
  case dma_uncalibrated =>
    intro h
    cases hc : s.calDone
    · rfl
    · rw [(hcal hc).2.1] at h; cases h
  case locked_once_sent =>
    rintro (h | h)
    · exact (hcal h).1
    · rw [hchain.1] at h; cases h
  case no_chain => exact fun _ => hchain.2
  case chain => intro h; rw [hchain.1] at h; cases h
  case dmem_wf => rw [hdm]; exact Memory.wf_nil
  case dmem_bounded => rw [hdm]; simp

theorem openBus_inv : Inv openBus := by
  apply inv_bare <;> first | rfl | decide
theorem calEmpty_inv : Inv calEmpty := by
  apply inv_bare <;> first | rfl | decide
theorem dmaEmpty_inv : Inv dmaEmpty := by
  apply inv_bare <;> first | rfl | decide
theorem fatalBus_inv : Inv fatalBus := by
  apply inv_bare <;> first | rfl | decide
theorem dmaOne_inv : Inv dmaOne := by
  apply inv_bare <;> first | rfl | decide
theorem calOne_inv : Inv calOne := by
  apply inv_bare <;> first | rfl | decide
theorem firstOne_inv : Inv firstOne := by
  apply inv_bare <;> first | rfl | decide

/-- What `after` says. -/
theorem exists_of_after {o : Host.Outcome State Fault Refusal} {P : State → Bool} (h : after o P = true) :
    ∃ t, o = .next t ∧ P t = true := by
  cases o with
  | next t => exact ⟨t, rfl, h⟩
  | fault f => cases h
  | refused r => cases h

theorem witness_DecodeEncodeRoundTrip :
    (Instr.rdreg 0x0E#8 0#5).wf = true ∧ (Instr.rdreg 0x20#8 31#5).wf = true ∧ Instr.transmit.wf = true := by decide

theorem witness_EncodeDecodedWord : ∃ i, decode 0x00000000_00000000_00000029_00001F05#128 = .ok i := ⟨_, rfl⟩

theorem witness_DecoderFollowsOpcodeTable :
    ∃ row ∈ opcodeTable, 0x00000000_00000000_00000029_00001F05#128 &&& row.mask = row.pattern ∧
      (row.pattern = 0x05#128 → registerDefined 0x29#8 31#5 = true) := by decide

theorem witness_StepRunsDecodedCommand :
    ({ State.reset with hostIn := [.command 0x04#128] } : State).busy = false ∧ decode 0x04#128 = .ok .transmit := by
  decide

theorem witness_IllegalWordAnswered :
    fatalBus.busy = false ∧ decode 0x07#128 = .error .opcode ∧ decode 0x10000004#128 = .error .reserved ∧
      decode 0x0000000F_00000005#128 = .error .register := by decide

theorem witness_BusyPortTakesNoCommand :
    ({ dmaEmpty with busy := true, hostIn := [.command 0#128] } : State).hostIn ≠ .reset :: [] := by decide

theorem witness_IdleMachineHoldsState : State.reset.busy = false ∧ State.reset.hostIn = [] := by decide

theorem witness_ResetPinResetsEngine :
    ({ calBus with hostIn := [.reset] } : State).hostIn = .reset :: [] := by decide

theorem witness_ResetAbandonsCommand :
    calEmpty.busy = false ∧ decode 0x04#128 = .ok .transmit ∧
      ∃ t, exec .transmit { calEmpty with hostIn := [], rsp := none } = .next t ∧
        ((opsIssued calEmpty t).take 1 == [.set 0#32]) = true :=
  ⟨by decide, by decide, exists_of_after (P := fun t => (opsIssued calEmpty t).take 1 == [.set 0#32])
    (by decide +kernel)⟩

theorem witness_StepKeepsInvariant :
    Inv openBus ∧ ∃ t, step { openBus with hostIn := [.command 0x00000001_00000502#128] } = .next t ∧
      (t.size == 2#32) = true :=
  ⟨openBus_inv, exists_of_after (P := fun t => t.size == 2#32) (by decide +kernel)⟩

theorem witness_InvariantMachineNeverStops : Inv dmaEmpty ∧ Inv fatalBus := ⟨dmaEmpty_inv, fatalBus_inv⟩

theorem witness_GateTable :
    fatalBus.gateCell .transmit = some 8#8 ∧ State.reset.gateCell .transmit = some 2#8 ∧
      calBus.gateCell (.regline 6#5 1#32) = some 4#8 ∧ openBus.gateCell (.buscfg 9#5 .direct 0#32) = some 2#8 ∧
      calEmpty.gateCell .transmit = none ∧
      (∃ t, exec .transmit calEmpty = .next t ∧ (!t.busy) = true) ∧ Inv fatalBus ∧ fatalBus.fatal = true :=
  ⟨by decide, by decide, by decide, by decide, by decide,
    exists_of_after (P := fun t => !t.busy) (by decide +kernel), fatalBus_inv, rfl⟩

theorem witness_CommandEndsWithItsStatus :
    (∃ t, exec .transmit dmaEmpty = .next t ∧ (!t.busy) = true) ∧
      ∃ t, exec (.rmstrip 5#5) openBus = .next t ∧ (t.status == some 9#8) = true :=
  ⟨exists_of_after (P := fun t => !t.busy) (by decide +kernel),
    exists_of_after (P := fun t => t.status == some 9#8) (by decide +kernel)⟩

/-- The second clause: `REGLINE` in phase OPEN of a DMA bus whose memory is one control block short. -/
theorem witness_FailureLeavesOnlyItsRecord :
    (∃ t, exec (.setbyte 5#5 2#32 0#8) openBus = .next t ∧ (t.status == some 5#8) = true) ∧
      ∃ t, exec (.regline 5#5 1#32) { dmaEmpty with params := { exampleParams with dmaMemBytes := 64 } } = .next t ∧
        (t.status == some 6#8 && t.fatal) = true :=
  ⟨exists_of_after (P := fun t => t.status == some 5#8) (by decide +kernel),
    exists_of_after (P := fun t => t.status == some 6#8 && t.fatal) (by decide +kernel)⟩

theorem witness_OkLeavesErrorRecord :
    ∃ t, exec .transmit { calEmpty with errFlags := 0x0208#16 } = .next t ∧
      (!t.busy && t.status == some 0#8 && t.errFlags == 0x0208#16) = true :=
  exists_of_after (P := fun t => !t.busy && t.status == some 0#8 && t.errFlags == 0x0208#16) (by decide +kernel)

theorem witness_BuscfgCreatesBus :
    (openBus.fatal = false ∧ openBus.phase ≠ .unconfigured) ∧
      (State.reset.phase = .unconfigured ∧ State.reset.params.validPins.getLsbD (31#5).toNat = true) ∧
      ({ State.reset with params := { exampleParams with validPins := 0x7FFFFFFF#32 } } : State).params.validPins.getLsbD
        (31#5).toNat = false := by decide

/-- Every clause: the lock, an invalid pin, the clock pin, one byte too long, memory one byte too small, and the
largest length that fits under either strategy. -/
theorem witness_ReglineRegistersLine :
    calBus.phase = .locked ∧ openBus.phase = .opened ∧ openBus.fatal = false ∧
      ({ exampleParams with validPins := 0x7FFFFFFF#32 } : Params).validPins.getLsbD (31#5).toNat = false ∧
      4#5 = openBus.clkPin ∧ 6#5 ≠ openBus.clkPin ∧ openBus.params.validPins.getLsbD (6#5).toNat = true ∧
      openBus.params.maxBytes < (4097#32).toNat ∧ (4096#32).toNat ≤ openBus.params.maxBytes ∧
      needBytes exampleParams (max 0 1) = 232 ∧ dmaEmpty.strategy = .dma ∧
      needBytes exampleParams (max dmaEmpty.size.toNat (4096#32).toNat) ≤ exampleParams.dmaMemBytes := by decide

theorem witness_SetbyteStoresByte :
    openBus.Ready ∧ calBus.Ready ∧ openBus.dataMask.getLsbD (6#5).toNat = false ∧
      openBus.dataMask.getLsbD (5#5).toNat = true ∧ openBus.size.toNat ≤ (2#32).toNat ∧
      (1#32).toNat < openBus.size.toNat := by decide

theorem witness_RdregReadsBusRegister :
    ((0x0E#8, 0#16 ++ openBus.lastErr) : BitVec 8 × Word) ∈
      [((0x0D#8, openBus.rowBase) : BitVec 8 × Word), (0x0E#8, 0#16 ++ openBus.lastErr)] ∧
    after (exec (.rdreg 0x05#8 0#5) openBus) (fun t => t.rsp == some (okRsp 0x05#8 2#32)) = true := by
  decide +kernel

theorem witness_RdregReadsStripRegister :
    after (exec (.rdreg 0x28#8 5#5) (stripBus .apa102)) (fun t => t.rsp == some (okRsp 0x05#8 13#32)) = true ∧
    after (exec (.rdreg 0x29#8 31#5) openBus) (fun t => t.rsp == some (okRsp 0x05#8 0#32)) = true := by
  decide +kernel

theorem witness_TwoLinesShareOneLength :
    State.reset.phase = .unconfigured ∧ State.reset.fatal = false ∧ State.reset.dataMask = 0#32 ∧
      State.reset.size = 0#32 ∧ 4#5 ≠ 5#5 ∧ 4#5 ≠ 6#5 ∧ State.reset.params.validPins.getLsbD (4#5).toNat = true ∧
      State.reset.params.validPins.getLsbD 5 = true ∧ State.reset.params.validPins.getLsbD 6 = true ∧
      48 ≤ State.reset.params.maxBytes := by decide

theorem witness_ConstructorLaysBlackFrame :
    openBus.CanRegister 7#5 (frameBytes .apa102 1) ∧ dmaEmpty.CanRegister 7#5 (frameBytes .lpd6803 0) ∧
      (openBus.strip 7#5).valid = false ∧ (dmaEmpty.strip 7#5).valid = false ∧ openBus.params.maxBytes ≤ 2 ^ 27 := by
  refine ⟨?_, ?_, by decide, by decide, by decide⟩ <;> constructor <;> first | rfl | decide

/-- Every clause of the checks; the clauses exclude each other by their form. -/
theorem witness_ConstructorChecksInOrder :
    openBus.fatal = false ∧ openBus.phase = .opened ∧ openBus.params.validPins.getLsbD (7#5).toNat = true ∧
      7#5 ≠ openBus.clkPin ∧ 4#5 = openBus.clkPin ∧ ((stripBus .ws2801).strip 5#5).valid = true ∧
      5 < (6#3).toNat ∧ (5#3).toNat ≤ 5 ∧ openBus.params.maxBytes < frameBytes .ws2801 1366 ∧
      frameBytes .ws2801 1365 ≤ openBus.params.maxBytes ∧ 64 < needBytes exampleParams (max 0 (frameBytes .ws2801 1)) := by
  decide

theorem witness_RmstripClearsValid :
    (stripBus .apa102).Ready ∧ ((stripBus .apa102).strip 5#5).valid = true ∧
      ((stripBus .apa102).strip 6#5).valid = false := by decide

theorem witness_PixelCommandsNeedStrip : openBus.Ready ∧ (openBus.strip 31#5).valid = false := by decide

theorem witness_OutOfRangePixelIsSilent :
    (stripBus .ws2801).Ready ∧ ((stripBus .ws2801).strip 5#5).valid = true ∧
      ((stripBus .ws2801).strip 5#5).count.toNat ≤ (1#16).toNat := by decide

theorem stripBus_writable (proto : Proto) : (stripBus proto).CanWritePixel 5#5 0#16 := by
  cases proto <;> constructor <;> decide

theorem witness_Setpix8EncodesWs2801 :
    (stripBus .ws2801).CanWritePixel 5#5 0#16 ∧ ((stripBus .ws2801).strip 5#5).proto = .ws2801 :=
  ⟨stripBus_writable _, by decide⟩

theorem witness_Setpix8EncodesLpd6803 :
    (stripBus .lpd6803).CanWritePixel 5#5 0#16 ∧ ((stripBus .lpd6803).strip 5#5).proto = .lpd6803 :=
  ⟨stripBus_writable _, by decide⟩

theorem witness_Setpix8EncodesLpd8806 :
    (stripBus .lpd8806).CanWritePixel 5#5 0#16 ∧ ((stripBus .lpd8806).strip 5#5).proto = .lpd8806 :=
  ⟨stripBus_writable _, by decide⟩

theorem witness_Setpix8EncodesApa102 :
    (stripBus .sk9822).CanWritePixel 5#5 0#16 ∧ ((stripBus .sk9822).strip 5#5).proto = .sk9822 :=
  ⟨stripBus_writable _, by decide⟩

theorem witness_Setpix16EncodesApa102 :
    (stripBus .apa102).CanWritePixel 5#5 0#16 ∧ ((stripBus .apa102).strip 5#5).proto = .apa102 :=
  ⟨stripBus_writable _, by decide⟩

theorem witness_Setpix16IsSetpix8OfHighBytes :
    ((stripBus .lpd8806).strip 5#5).proto = .lpd8806 ∧ (stripBus .lpd8806).CanWritePixel 5#5 0#16 :=
  ⟨by decide, stripBus_writable _⟩

theorem witness_ZeroStaysZero : (stripBus .apa102).CanWritePixel 5#5 0#16 ∧ (stripBus .lpd6803).CanWritePixel 5#5 0#16 :=
  ⟨stripBus_writable _, stripBus_writable _⟩

/-- The bus with one APA102 strip meets the invariant. -/
theorem stripBus_inv : Inv (stripBus .apa102) := by
  have h := openBus_inv
  refine { h with
    size_le := by decide
    image_fits := by intro h; cases h
    plane_bounded := by intro e he; cases he
    no_bus := by intro h; cases h
    chain := by intro h; cases h
    strips := ?_ }
  intro p hp
  have : p = 5#5 := by
    revert p
    decide
  subst this
  constructor
  · decide
  · decide
  · decide
  · intro _; decide

theorem witness_BrightnessLevelNeverZero :
    Inv (stripBus .apa102) ∧ (stripBus .apa102).CanWritePixel 5#5 0#16 ∧
      ((stripBus .apa102).strip 5#5).proto = .apa102 ∧
      (∃ t, exec (.setpix16 5#5 0#16 0#16 0#16 0#16) (stripBus .apa102) = .next t ∧ (t.byteAt 5#5 4 == 0xE1#8) = true) ∧
      (∃ t, exec (.setpix8 5#5 0#16 0#8 0#8 0#8) (stripBus .apa102) = .next t ∧ (t.byteAt 5#5 4 == 0xFF#8) = true) ∧
      ∃ t, exec (Proto.sk9822.constructor 7#5 5#3 1#16) openBus = .next t ∧ (t.status == some 0#8) = true :=
  ⟨stripBus_inv, stripBus_writable _, by decide,
    exists_of_after (P := fun t => t.byteAt 5#5 4 == 0xE1#8) (by decide +kernel),
    exists_of_after (P := fun t => t.byteAt 5#5 4 == 0xFF#8) (by decide +kernel),
    exists_of_after (P := fun t => t.status == some 0#8) (by decide +kernel)⟩

theorem witness_SixteenBitPathIsPrecise :
    (stripBus .sk9822).CanWritePixel 5#5 0#16 ∧
      (((stripBus .sk9822).strip 5#5).proto = .sk9822 ∧ (stripBus .sk9822).params.skRtabR = rtabApa ∧
        (stripBus .sk9822).params.skRtabGB = rtabApa) ∧
      ∃ t, exec (.setpix16 5#5 0#16 0xFFFF#16 1#16 0#16) (stripBus .sk9822) = .next t ∧
        (t.byteAt 5#5 4 == 0xFF#8) = true :=
  ⟨stripBus_writable _, by decide, exists_of_after (P := fun t => t.byteAt 5#5 4 == 0xFF#8) (by decide +kernel)⟩

theorem witness_SetbrtRecomputesScales :
    (stripBus .apa102).Ready ∧ ((stripBus .apa102).strip 5#5).valid = true ∧
      ((stripBus .apa102).strip 6#5).valid = false := by decide

theorem witness_LevelIsMonotone :
    (stripBus .apa102).Ready ∧ ((stripBus .apa102).strip 5#5).valid = true ∧
      (∃ t, exec (.setbrt 5#5 0#32 0#32 0#32) (stripBus .apa102) = .next t ∧ ((t.strip 5#5).level0 == 1#5) = true) ∧
      ∃ t, exec (.setbrt 5#5 0xFFFFFFFF#32 0#32 0#32) (stripBus .apa102) = .next t ∧
        ((t.strip 5#5).level0 == 31#5) = true :=
  ⟨by decide, by decide, exists_of_after (P := fun t => (t.strip 5#5).level0 == 1#5) (by decide +kernel),
    exists_of_after (P := fun t => (t.strip 5#5).level0 == 31#5) (by decide +kernel)⟩

theorem witness_ScaleLaws : (255 : Nat) ≤ 255 ∧ (0 : Nat) ≤ 255 ∧ (0x10000 : Nat) ≤ 0xFFFFFFFF := by decide

theorem witness_PixelLevelIsLeast : (1 : Nat) ≤ 1 ∧ (1 : Nat) ≤ 31 ∧ (31 : Nat) ≤ 31 := by decide

theorem witness_FrameMasks : openBus.LanesRegistered ∧ openBus.dataMask &&& openBus.clkBit = 0#32 ∧ 15 < 8 * openBus.size.toNat :=
  ⟨openBus_inv.lanes, by decide, by decide⟩

theorem witness_DirectTransmitSendsFrame :
    calBus.Ready ∧ calBus.strategy = .direct ∧ calBus.calDone = true := by decide

/-- A first `TRANSMIT` whose clock advances, whose clock is not monotonic, and on a bus with `FREQ = 0`. -/
theorem witness_FirstDirectTransmitCalibrates :
    openBus.Ready ∧ openBus.strategy = .direct ∧ openBus.calDone = false ∧ openBus.params.calDefaultRepeat < 2 ^ 32 ∧
      openBus.params.calDefaultBusy < 2 ^ 32 ∧ openBus.freq = 0#32 ∧
      ({ openBus with freq := 1000000#32, timeIn := [⟨true, 0#64⟩, ⟨true, 30000#64⟩, ⟨true, 40000#64⟩] } : State).timeSample 1 =
        ⟨true, 30000#64⟩ ∧
      ({ openBus with timeIn := [⟨true, 7#64⟩, ⟨true, 7#64⟩, ⟨true, 9#64⟩] } : State).timeSample 1 = ⟨true, 7#64⟩ := by
  decide

theorem witness_TransmitLocksAndKeepsBuffer :
    dmaEmpty.Ready ∧ ∃ t, exec .transmit dmaEmpty = .next t ∧ (t.phase == .locked) = true :=
  ⟨by decide, exists_of_after (P := fun t => t.phase == .locked) (by decide +kernel)⟩

theorem witness_TransmitLeavesOutputsLow :
    Inv calEmpty ∧ calEmpty.params.calDefaultRepeat < 2 ^ 32 ∧
      ∃ t, exec .transmit calEmpty = .next t ∧ (t.status == some 0#8) = true :=
  ⟨calEmpty_inv, by decide, exists_of_after (P := fun t => t.status == some 0#8) (by decide +kernel)⟩

theorem witness_OnlyTransmitDrivesTheLines :
    Inv dmaEmpty ∧ (∃ t, exec .transmit dmaEmpty = .next t ∧ (t.physTrace.contains (.clr 0x30#32)) = true) ∧
      ∃ t, exec (.setbyte 5#5 0#32 1#8) openBus = .next t ∧ (t.status == some 0#8) = true :=
  ⟨dmaEmpty_inv, exists_of_after (P := fun t => t.physTrace.contains (.clr 0x30#32)) (by decide +kernel),
    exists_of_after (P := fun t => t.status == some 0#8) (by decide +kernel)⟩

theorem witness_PhaseOnlyAdvances :
    (∃ t, exec (.buscfg 4#5 .dma 0#32) State.reset = .next t ∧ (t.phase == .opened) = true) ∧
      (∃ t, exec .transmit dmaEmpty = .next t ∧ (t.phase == .locked) = true) ∧
      ∃ t, exec (.regline 6#5 9#32) calBus = .next t ∧ (t.phase == .locked) = true :=
  ⟨exists_of_after (P := fun t => t.phase == .opened) (by decide +kernel),
    exists_of_after (P := fun t => t.phase == .locked) (by decide +kernel),
    exists_of_after (P := fun t => t.phase == .locked) (by decide +kernel)⟩

/-- The buffer of one byte: under DMA, calibrated direct, and the first `TRANSMIT` of a direct bus. -/
theorem witness_ChipsLatchTheStream :
    (Inv dmaOne ∧ dmaOne.registered 5#5 = true ∧ ∃ t, exec .transmit dmaOne = .next t ∧ (t.status == some 0#8) = true) ∧
      (Inv calOne ∧ calOne.params.calDefaultRepeat < 2 ^ 32 ∧ calOne.registered 5#5 = true ∧
        ∃ t, exec .transmit calOne = .next t ∧ (t.status == some 0#8) = true) ∧
      Inv firstOne ∧ ∃ t, exec .transmit firstOne = .next t ∧ (t.status == some 0#8) = true :=
  ⟨⟨dmaOne_inv, by decide, exists_of_after (P := fun t => t.status == some 0#8) (by decide +kernel)⟩,
    ⟨calOne_inv, by decide, by decide, exists_of_after (P := fun t => t.status == some 0#8) (by decide +kernel)⟩,
    firstOne_inv, exists_of_after (P := fun t => t.status == some 0#8) (by decide +kernel)⟩

theorem witness_EventCounts :
    (Inv dmaEmpty ∧ ∃ t, exec .transmit dmaEmpty = .next t ∧ (t.status == some 0#8) = true) ∧
      Inv calEmpty ∧ calEmpty.params.calDefaultRepeat < 2 ^ 32 ∧
        ∃ t, exec .transmit calEmpty = .next t ∧ (t.status == some 0#8) = true :=
  ⟨⟨dmaEmpty_inv, exists_of_after (P := fun t => t.status == some 0#8) (by decide +kernel)⟩, calEmpty_inv, by decide,
    exists_of_after (P := fun t => t.status == some 0#8) (by decide +kernel)⟩

/-- A first and a later direct `TRANSMIT` beside a DMA one, for a buffer of one byte; each of the three ends with `OK`
(`witness_ChipsLatchTheStream`). -/
theorem witness_StrategiesGiveOneWaveform :
    (calOne.strategy = .direct ∧ calOne.calDone = true ∧ firstOne.strategy = .direct ∧ firstOne.calDone = false ∧
        dmaOne.strategy = .dma) ∧
      (dmaOne.plane = calOne.plane ∧ dmaOne.size = calOne.size ∧ dmaOne.dataMask = calOne.dataMask ∧
        dmaOne.clkPin = calOne.clkPin ∧ dmaOne.lines = calOne.lines) ∧
      (dmaOne.plane = firstOne.plane ∧ dmaOne.size = firstOne.size ∧ dmaOne.dataMask = firstOne.dataMask ∧
        dmaOne.clkPin = firstOne.clkPin ∧ dmaOne.lines = firstOne.lines) ∧
      (∃ t, exec .transmit calOne = .next t ∧ (t.status == some 0#8) = true) ∧
      (∃ t, exec .transmit firstOne = .next t ∧ (t.status == some 0#8) = true) ∧
      ∃ t, exec .transmit dmaOne = .next t ∧ (t.status == some 0#8) = true :=
  ⟨by decide, by decide, by decide, witness_ChipsLatchTheStream.2.1.2.2.2, witness_ChipsLatchTheStream.2.2.2,
    witness_ChipsLatchTheStream.1.2.2⟩

theorem witness_NeedBytesGrows : exampleParams.Legal ∧ (0 : Nat) < 1 ∧ (2 : Nat) ^ 27 ≤ 2 ^ 27 :=
  ⟨exampleParams_legal, by decide, Nat.le_refl _⟩

theorem witness_DmaTransmitReplaysFrame :
    dmaOne.Ready ∧ dmaOne.strategy = .dma ∧ dmaOne.params.Legal ∧
      needBytes dmaOne.params dmaOne.size.toNat ≤ dmaOne.params.dmaMemBytes ∧
      (dmaOne.chainBuilt = true → dmaOne.ChainIntact) ∧
      ∀ r, r < nRows dmaOne.size.toNat → dmaOne.faultSample r = false := by
  refine ⟨by decide, by decide, exampleParams_legal, by decide, (by intro h; cases h), ?_⟩
  intro r h
  replace h : r < 17 := h
  interval_cases r <;> rfl

theorem witness_DmaFaultStopsFrame :
    dmaFaulty.Ready ∧ dmaFaulty.strategy = .dma ∧ dmaFaulty.params.Legal ∧
      needBytes dmaFaulty.params dmaFaulty.size.toNat ≤ dmaFaulty.params.dmaMemBytes ∧
      (dmaFaulty.chainBuilt = true → dmaFaulty.ChainIntact) ∧ 16 < nRows dmaFaulty.size.toNat ∧
      dmaFaulty.faultSample 16 = true ∧ ∀ r, r < 16 → dmaFaulty.faultSample r = false := by
  refine ⟨by decide, by decide, exampleParams_legal, by decide, (by intro h; cases h), by decide, rfl, ?_⟩
  intro r h
  interval_cases r <;> rfl

/-- The clauses: a block below `DMEM`, one of zeros at its start, one with a bad geometry at its end; and a sequencer that
has stopped on the first and on the last sub-cause. -/
theorem witness_SequencerRejectsBadBlock :
    ¬exampleParams.dmaBase.toNat ≤ (0x3FFFFFE0#32).toNat ∧
      (0x40000000#32).toNat % 32 = 0 ∧ dmaEmpty.memRead 0x40000000 = 0#32 ∧
      ((0x400FFFE0#32).toNat % 32 = 0 ∧ (0x400FFFE0#32).toNat + 32 ≤ exampleParams.dmaBase.toNat + exampleParams.dmaMemBytes) ∧
      ({ dmaEmpty with dmem := [(0x400FFFE0, 0x01#8)] } : State).memRead 0x400FFFE0 = 1#32 ∧
      ({ dmaEmpty with dmem := [(0x400FFFE0, 0x01#8)] } : State).memRead 0x400FFFEC = 0#32 ∧
      dmaEmpty.strategy = .dma ∧ (dmaEmpty.stop .cbAddr).dmacs = { active := false, ended := false, error := true } ∧
      (dmaEmpty.stop .cbAddr).subCause = .cbAddr ∧ (dmaEmpty.stop .extFault).subCause = .extFault := by decide +kernel

/-- The clauses: a source past `DMEM`; the last source word with each destination; a bad destination. -/
theorem witness_WordTransferChecksAddresses :
    ¬(0x40100000#32).toNat + 4 ≤ exampleParams.dmaBase.toNat + exampleParams.dmaMemBytes ∧
      ((0x400FFFFC#32).toNat % 4 = 0 ∧ exampleParams.dmaBase.toNat ≤ (0x400FFFFC#32).toNat ∧
        (0x400FFFFC#32).toNat + 4 ≤ exampleParams.dmaBase.toNat + exampleParams.dmaMemBytes) ∧
      0x50000000#32 = exampleParams.gpioSetAddr ∧ 0x50000004#32 = exampleParams.gpioSetAddr + 4#32 ∧
      0x50000008#32 ≠ exampleParams.gpioSetAddr ∧ 0x50000008#32 ≠ exampleParams.gpioSetAddr + 4#32 := by decide

end Sys2Proof.Tests
end

