-- ==== Sys2Proof/Proofs/MemoryObligations.lean ====
section
/-! The reading of `DMEM` as little-endian words (20_memory.md R67): the byte a word write puts at each offset. -/

namespace Sys2Proof.Machine

/-- Offset `k` of a written word holds the word's bits from `8 * k` up. -/
theorem Memory.read_writeWord_offset (m : List Host.Cell) (a : Nat) (v : Word) {k : Nat} (hk : k < 4) :
    Memory.read (Memory.writeWord m a v) (a + k) = v.extractLsb' (8 * k) 8 := by
  rw [Memory.read_writeWord]
  interval_cases k <;> simp

/-- Settles O60: the read-back and the frame are the laws of word writes, and a byte field of the word is the word
shifted down to it. -/
theorem dmemIsLittleEndian : Obligations.DmemIsLittleEndian := by
  intro m a v
  refine ⟨Memory.readWord_writeWord_same m a v, ?bytes, ?frame, ?word⟩
  case bytes =>
    intro k hk
    rw [Memory.read_writeWord_offset m a v hk, BitVec.setWidth_ushiftRight_eq_extractLsb]
  case frame => exact fun b hb => Memory.read_writeWord_other m v hb
  case word => rfl

end Sys2Proof.Machine
end

