-- ==== Sys2Proof/Proofs/BusCommandObligations.lean ====
section
/-! `NOP`, `BUSCFG`, `SETBYTE` and `CLRERR` (40_bus_commands.md R130, R131, R133, R136): how `exec` answers each of them,
one equation for each case, and the obligations about them. -/

namespace Sys2Proof.Machine

/-! The commands without checks. -/

theorem exec_nop (s : State) : exec .nop s = .next { s with rsp := some (okRsp 0x00#8 0#32) } :=
  congrArg Host.Outcome.next (s.respond_eq Opc.nop 0#32)

theorem exec_clrerr (s : State) :
    exec .clrerr s = .next { s with errFlags := 0#16, lastErr := 0#16, rsp := some (okRsp 0x06#8 0#32) } :=
  congrArg Host.Outcome.next (State.respond_eq { s with errFlags := 0#16, lastErr := 0#16 } Opc.clrerr 0#32)

/-- Settles O20: the response word of `NOP` is 0. -/
theorem nopAnswersOk : Obligations.NopAnswersOk := by
  have hword : okRsp 0x00#8 0#32 = 0x00000000_00000000#64 := by decide
  exact ⟨by decide, fun s => hword ▸ exec_nop s⟩

/-- Settles O21: the response word of `CLRERR` holds its opcode and zeros. -/
theorem clrerrClearsRecord : Obligations.ClrerrClearsRecord := by
  have hword : okRsp 0x06#8 0#32 = 0x00000000_00000600#64 := by decide
  exact ⟨by decide, fun s => hword ▸ exec_clrerr s⟩

/-! `BUSCFG`. -/

/-- The gate of `BUSCFG` on a machine that is not fatal asks for the phase alone (60_exceptions.md R313). -/
theorem State.gateBuscfg_of_not_fatal {s : State} (hf : s.fatal = false) :
    s.gateBuscfg = if s.phase = .unconfigured then none else some .state := by
  rw [State.gateBuscfg, hf]
  rfl

theorem State.configure_eq (s : State) (clk : Pin) (strat : Strategy) (freq : Word) :
    s.configure clk strat freq =
      { s with
        clkPin := clk
        strategy := strat
        freq := freq
        phase := .opened
        outPins := s.outPins ||| 1#32 <<< clk.toNat
        outenTrace := s.outenTrace ++ [clk] } := by
  rw [← pinBit_eq]
  rfl

section
variable {s : State} (clk : Pin) (strat : Strategy) (freq : Word)

theorem exec_buscfg_configured (hf : s.fatal = false) (hp : s.phase ≠ .unconfigured) :
    exec (.buscfg clk strat freq) s = .next (s.failed 0x01#8 2#8) := by
  change execBuscfg clk strat freq s = _
  rw [execBuscfg, s.gateBuscfg_of_not_fatal hf, if_neg hp]
  exact fails_eq s Opc.buscfg .state

theorem exec_buscfg_invalid_pin (hf : s.fatal = false) (hp : s.phase = .unconfigured) (hv : s.pinValid clk = false) :
    exec (.buscfg clk strat freq) s = .next (s.failed 0x01#8 3#8) := by
  change execBuscfg clk strat freq s = _
  rw [execBuscfg, s.gateBuscfg_of_not_fatal hf, if_pos hp, hv]
  exact fails_eq s Opc.buscfg .pin

theorem exec_buscfg_creates (hf : s.fatal = false) (hp : s.phase = .unconfigured) (hv : s.pinValid clk = true) :
    exec (.buscfg clk strat freq) s =
      .next { s.configure clk strat freq with rsp := some (okRsp 0x01#8 0#32) } := by
  change execBuscfg clk strat freq s = _
  rw [execBuscfg, s.gateBuscfg_of_not_fatal hf, if_pos hp, hv]
  exact congrArg Host.Outcome.next ((s.configure clk strat freq).respond_eq Opc.buscfg 0#32)

end

/-- Settles O22: one equation for each of the three outcomes. -/
theorem buscfgCreatesBus : Obligations.BuscfgCreatesBus := by
  refine ⟨by decide, fun s clk strat freq hf => ⟨?configured, ?invalid_pin, ?creates⟩⟩
  case configured => exact exec_buscfg_configured clk strat freq hf
  case invalid_pin => exact exec_buscfg_invalid_pin clk strat freq hf
  case creates =>
    intro hp hv
    rw [exec_buscfg_creates clk strat freq hf hp hv, State.configure_eq]

/-! `SETBYTE`. -/

section
variable {s : State} (pin : Pin) (pos : Word) (val : Byte)

theorem exec_setbyte_unregistered (hs : s.Ready) (hr : s.registered pin = false) :
    exec (.setbyte pin pos val) s = .next (s.failed 0x03#8 3#8) := by
  change execSetbyte pin pos val s = _
  rw [execSetbyte, s.gate_none_iff.2 hs, hr]
  exact fails_eq s Opc.setbyte .pin

theorem exec_setbyte_past_end (hs : s.Ready) (hr : s.registered pin = true) (hp : s.size.toNat ≤ pos.toNat) :
    exec (.setbyte pin pos val) s = .next (s.failed 0x03#8 5#8) := by
  change execSetbyte pin pos val s = _
  rw [execSetbyte, s.gate_none_iff.2 hs, hr]
  exact (if_pos hp).trans (fails_eq s Opc.setbyte .range)

/-- A `SETBYTE` that passes its checks stores a run of one byte. -/
theorem exec_setbyte_stores (hs : s.Ready) (hr : s.registered pin = true) (hp : pos.toNat < s.size.toNat) :
    exec (.setbyte pin pos val) s =
      .next ((s.withBytes pin pos.toNat [val]).respond Opc.setbyte 0#32) := by
  have hstore : s.busSetBytes pin [(pos.toNat, val)] = .ok (s.withBytes pin pos.toNat [val]) :=
    s.busSetBytes_eq pin (placed pos.toNat [val]) hr (all_placed_lt _ _ _ hp)
  change execSetbyte pin pos val s = _
  rw [execSetbyte, s.gate_none_iff.2 hs, hr, hstore]
  exact if_neg (Nat.not_le.2 hp)

end

@[simp] theorem State.byteAt_respond (s : State) (opc : BitVec 8) (v : Word) (p : Pin) (pos : Nat) :
    (s.respond opc v).byteAt p pos = s.byteAt p pos := rfl

/-- Bytes stored and an answer given change the plane and the response alone. -/
theorem State.respond_withBytes_frame (s : State) (p : Pin) (base : Nat) (vs : List Byte) (opc : BitVec 8) (v : Word) :
    { (s.withBytes p base vs).respond opc v with plane := s.plane, rsp := s.rsp } = s := rfl

/-- What is read back after one byte is stored, everywhere. -/
theorem State.byteAt_withBytes_one (s : State) (p q : Pin) (pos x : Nat) (v : Byte) :
    (s.withBytes p pos [v]).byteAt q x = if q = p ∧ x = pos then v else s.byteAt q x := by
  have hbase : placed pos [v] = [(pos, v)] := rfl
  rw [State.byteAt_eq_byteOf, State.withBytes, hbase, busSetAll_cons, busSetAll_nil, byteOf_busSetByte]
  rfl

/-- Bit `7 - k` of a line's byte, seen in the plane (20_memory.md R64): word `8 * pos + k` holds it at the line's bit. -/
theorem State.getLsbD_planeAt (s : State) (p : Pin) (pos : Nat) {k : Nat} (hk : k < 8) :
    (s.planeAt (8 * pos + k)).getLsbD p.toNat = (s.byteAt p pos).getLsbD (7 - k) := by
  rw [s.getLsbD_byteAt p pos (7 - k) (by omega), show 7 - (7 - k) = k by omega]

/-- Settles O24: a `SETBYTE` that passes both checks stores a run of one byte; the bits of the plane are those of the byte
read back. -/
theorem setbyteStoresByte : Obligations.SetbyteStoresByte := by
  refine ⟨by decide, fun s pin pos val hs => ⟨?unregistered, fun hr => ⟨?past_end, ?stores⟩⟩⟩
  case unregistered => exact exec_setbyte_unregistered pin pos val hs
  case past_end => exact exec_setbyte_past_end pin pos val hs hr
  case stores =>
    intro hp
    have hbyte : ∀ q x, ((s.withBytes pin pos.toNat [val]).respond Opc.setbyte 0#32).byteAt q x =
        if q = pin ∧ x = pos.toNat then val else s.byteAt q x := by
      intro q x
      rw [State.byteAt_respond, State.byteAt_withBytes_one]
    refine ⟨_, exec_setbyte_stores pin pos val hs hr hp, ?answer, hbyte, ?bits, ?frame⟩
    case answer => rw [State.respond_rsp, rspOf_ok, Opc.setbyte]
    case frame => exact s.respond_withBytes_frame pin pos.toNat [val] Opc.setbyte 0#32
    case bits =>
      intro k hk
      rw [State.getLsbD_planeAt _ _ _ hk, hbyte, if_pos ⟨rfl, rfl⟩]

end Sys2Proof.Machine
end

