-- ==== Sys2Proof/Proofs/SequencerObligations.lean ====
section
/-! The sequencer's checks of a control block (42_transmit_dma.md R202, R203), for any content of `DMEM`, and the end of a
`TRANSMIT` whose sequencer has stopped with a sub-cause (R198, R199, R211). -/

namespace Sys2Proof.Machine

/-! The checks, each as a proposition. -/

theorem State.blockAddrOk_iff (s : State) :
    s.blockAddrOk = true ↔ s.conblk.toNat % 32 = 0 ∧ s.params.dmaBase.toNat ≤ s.conblk.toNat ∧
      s.conblk.toNat + 32 ≤ s.params.dmaBase.toNat + s.params.dmaMemBytes := by
  simp [State.blockAddrOk, and_assoc]

/-- The control and reserved words are looked at first, whatever the geometry (R202). -/
theorem State.blockError_of_bad_ctrl {s : State}
    (h : ¬(s.blockWord 0 = 1#32 ∧ s.blockWord 6 = 0#32 ∧ s.blockWord 7 = 0#32)) :
    s.blockError = some .cbCtrl :=
  if_pos (by simpa only [not_and_or] using h)

theorem State.blockError_of_bad_geom {s : State}
    (hc : s.blockWord 0 = 1#32 ∧ s.blockWord 6 = 0#32 ∧ s.blockWord 7 = 0#32)
    (hg : ¬(geomRowBytes (s.blockWord 3) = 8#16 ∧ geomRows (s.blockWord 3) ≠ 0#16 ∧
      8 * (geomRows (s.blockWord 3)).toNat ≤ s.params.maxSpan)) :
    s.blockError = some .cbGeom := by
  have hctrl : ¬(s.blockWord 0 ≠ 1#32 ∨ s.blockWord 6 ≠ 0#32 ∨ s.blockWord 7 ≠ 0#32) := by
    simpa only [ne_eq, ← not_and_or, not_not] using hc
  have hgeom : geomRowBytes (s.blockWord 3) ≠ 8#16 ∨ geomRows (s.blockWord 3) = 0#16 ∨
      8 * (geomRows (s.blockWord 3)).toNat > s.params.maxSpan := by
    simpa only [not_and_or, ne_eq, not_not, not_le] using hg
  exact (if_neg hctrl).trans (if_pos hgeom)

/-! A control block that fails a check: the sequencer stops where it stands. -/

theorem State.runBlock_of_bad_addr {s : State} (h : s.blockAddrOk = false) : s.runBlock = s.stop .cbAddr := by
  rw [State.runBlock, h]
  rfl

theorem State.runBlock_of_blockError {s : State} {k : SubCause} (ha : s.blockAddrOk = true)
    (he : s.blockError = some k) : s.runBlock = s.stop k := by
  rw [State.runBlock, ha, he]
  rfl

/-! The report of a sub-cause. -/

/-- The channel is read before it is reset: an error it holds is reported (R198, R199). -/
theorem State.finishTransmit_of_dma_error {s : State} (hd : s.strategy = .dma) (ha : s.dmacs.active = false)
    (he : s.dmacs.error = true) : s.finishTransmit = s.dmaReset.endDmaError := by
  rw [State.finishTransmit, hd, ha, he]
  rfl

/-- The whole end of a `TRANSMIT` that fails: busy flag, channel and error record, and nothing else. -/
theorem State.endDmaError_dmaReset_eq (s : State) :
    s.dmaReset.endDmaError =
      { s with
        busy := false
        dmacs := { active := false, ended := false, error := false }
        conblk := 0#32
        errFlags := s.errFlags ||| 0x0080#16
        lastErr := s.subCause.code ++ 0x07#8
        rsp := some (0#32 ++ 0#8 ++ s.subCause.code ++ 0x04#8 ++ 0x07#8) } := rfl

/-- The codes of R210. -/
theorem SubCause.code_of_mem {c : SubCause} {k : BitVec 8}
    (h : (c, k) ∈ [(SubCause.cbAddr, 1#8), (.cbCtrl, 2#8), (.cbGeom, 3#8), (.srcFault, 4#8), (.dstFault, 5#8),
      (.extFault, 6#8)]) : c.code = k := by
  simp only [List.mem_cons, Prod.mk.injEq, List.not_mem_nil, or_false] at h
  obtain ⟨rfl, rfl⟩ | ⟨rfl, rfl⟩ | ⟨rfl, rfl⟩ | ⟨rfl, rfl⟩ | ⟨rfl, rfl⟩ | ⟨rfl, rfl⟩ := h <;> rfl

/-- Settles O58: a clause for each check in the order of R203 and R202, and the report. -/
theorem sequencerRejectsBadBlock : Obligations.SequencerRejectsBadBlock := by
  intro s
  refine ⟨?address, ?control, ?geometry, ?report⟩
  case address =>
    intro ha
    exact State.runBlock_of_bad_addr (Bool.eq_false_iff.2 (mt s.blockAddrOk_iff.1 ha))
  case control =>
    intro ha hc
    exact State.runBlock_of_blockError (s.blockAddrOk_iff.2 ha) (State.blockError_of_bad_ctrl hc)
  case geometry =>
    intro ha hc hg
    exact State.runBlock_of_blockError (s.blockAddrOk_iff.2 ha) (State.blockError_of_bad_geom hc hg)
  case report =>
    intro hd ha he k hk
    rw [State.finishTransmit_of_dma_error hd ha he, State.endDmaError_dmaReset_eq, SubCause.code_of_mem hk]

end Sys2Proof.Machine
end

