-- ==== Sys2Proof/Proofs/PixelEncoderObligations.lean ====
section
/-! The pixel encoders and `SETBRT` (44_pixel_encoders.md): the fixed-point arithmetic, the bytes of a pixel channel by
channel, what `exec` answers for the three commands, and the obligations about them. -/

namespace Sys2Proof.Machine

/-! Fixed-point arithmetic (R264, R265). -/

theorem scaled_eq (c s : Nat) : scaled c s = c * s / 65536 := Nat.shiftRight_eq_div_pow (c * s) 16

theorem scale8_eq (c s : Nat) : scale8 c s = min 255 (c * s / 65536) := by rw [scale8, scaled_eq]

@[simp] theorem scaled_zero (s : Nat) : scaled 0 s = 0 := by rw [scaled_eq, Nat.zero_mul, Nat.zero_div]

@[simp] theorem scale8_zero (s : Nat) : scale8 0 s = 0 := by rw [scale8, scaled_zero, Nat.min_zero]

theorem scale8_one {c : Nat} (hc : c ≤ 255) : scale8 c 0x00010000 = c := by
  rw [scale8_eq, Nat.mul_div_cancel _ (by decide), Nat.min_eq_right hc]

theorem scale8_mono {c c' s s' : Nat} (hc : c ≤ c') (hs : s ≤ s') : scale8 c s ≤ scale8 c' s' := by
  rw [scale8_eq, scale8_eq]
  exact min_le_min_left 255 (Nat.div_le_div_right (Nat.mul_le_mul hc hs))

/-- Settles O44: the formula and the three laws, one lemma each. -/
theorem scaleLaws : Obligations.ScaleLaws :=
  ⟨scale8_eq, fun _ => scale8_one, scale8_zero, fun _ _ _ _ => scale8_mono⟩

/-! The levels (R273, R281). -/

/-- The clamp to 1..31 fits the five bits of `LEVEL0`. -/
theorem level0Of_toNat (rs gs bs : Word) :
    (level0Of rs gs bs).toNat = max 1 (min ((max (max rs.toNat gs.toNat) bs.toNat * 31 + 65535) / 65536) 31) := by
  rw [level0Of, clamp, BitVec.toNat_ofNat, Nat.shiftRight_eq_div_pow]
  exact Nat.mod_eq_of_lt (by omega)

theorem level0Of_range (rs gs bs : Word) : 1 ≤ (level0Of rs gs bs).toNat ∧ (level0Of rs gs bs).toNat ≤ 31 := by
  rw [level0Of_toNat]
  omega

theorem level0Of_mono {rs gs bs rs' gs' bs' : Word} (hr : rs.toNat ≤ rs'.toNat) (hg : gs.toNat ≤ gs'.toNat)
    (hb : bs.toNat ≤ bs'.toNat) : (level0Of rs gs bs).toNat ≤ (level0Of rs' gs' bs').toNat := by
  have hmax : max (max rs.toNat gs.toNat) bs.toNat ≤ max (max rs'.toNat gs'.toNat) bs'.toNat :=
    max_le_max (max_le_max hr hg) hb
  rw [level0Of_toNat, level0Of_toNat]
  omega

theorem compOf_toNat (xs : Word) (T : Vector Word 32) (level : BitVec 5) :
    (compOf xs T level).toNat = min (xs.toNat * rtabAt T level / 65536) (2 ^ 32 - 1) := by
  rw [compOf, sat32, scaled_eq, BitVec.toNat_ofNat]
  exact Nat.mod_eq_of_lt (by omega)

theorem apaLevel_range (S : Strip) (v : Chan → Nat) : 1 ≤ apaLevel S v ∧ apaLevel S v ≤ 31 := by
  have hw : ∀ X, apaWanted S v X ≤ 65535 := fun X => Nat.min_le_left ..
  have hmax := max_le (max_le (hw .red) (hw .green)) (hw .blue)
  rw [apaLevel, Nat.shiftRight_eq_div_pow]
  omega

/-- R115: 111, then the level. -/
theorem brightnessByte_eq (level : BitVec 5) : brightnessByte level = 0b111#3 ++ level := by
  revert level
  decide

theorem extractLsb'_brightnessByte (level : BitVec 5) : (brightnessByte level).extractLsb' 0 5 = level := by
  rw [brightnessByte_eq, BitVec.extractLsb'_append_eq_right]

/-! The bytes of a pixel, channel by channel (R266 to R272): the byte at a channel's slot is that channel's. -/

/-- Three bytes written in wire order hold at the slot of channel `X` what was computed for `X`. -/
theorem wireOrder_slot (o : Order) (f : Chan → Byte) (X : Chan) :
    ([0, 1, 2].map fun k => f (o.chanAt k))[o.slot X]'(o.slot_lt X) = f X := by
  have hslot : ∀ k (hk : k < 3), [0, 1, 2][k] = k := by decide
  rw [List.getElem_map, hslot _ (o.slot_lt X), o.chanAt_slot]

section
variable (S : Strip) (v : Chan → Nat) (X : Chan)

theorem ws2801Pixel_slot :
    (ws2801Pixel S v)[S.ord.slot X]'(S.ord.slot_lt X) = BitVec.ofNat 8 (min 255 (v X * (S.scale X).toNat / 65536)) := by
  rw [← scale8_eq]
  exact wireOrder_slot S.ord (fun X => BitVec.ofNat 8 (scale8 (v X) (S.scale X).toNat)) X

theorem lpd8806Pixel_slot :
    (lpd8806Pixel S v)[S.ord.slot X]'(S.ord.slot_lt X) =
      0x80#8 ||| BitVec.ofNat 8 (min 255 (v X * (S.scale X).toNat / 65536) / 2) := by
  rw [← scale8_eq, ← Nat.shiftRight_one]
  exact wireOrder_slot S.ord (fun X => 0x80#8 ||| BitVec.ofNat 8 (scale8 (v X) (S.scale X).toNat >>> 1)) X

/-- The three colour bytes of the 8-bit path come after the brightness byte. -/
theorem apaPixel8_slot :
    (apaPixel8 S v)[S.ord.slot X + 1]'(Nat.succ_lt_succ (S.ord.slot_lt X)) =
      BitVec.ofNat 8 (min 255 (v X * (S.comp X).toNat / 65536)) := by
  rw [← scaled_eq]
  exact wireOrder_slot S.ord (fun X => BitVec.ofNat 8 (min 255 (scaled (v X) (S.comp X).toNat))) X

/-- The field at channel `X`'s slot is the five high bits of its scaled component (R268). -/
theorem lpd6803Field_slot :
    lpd6803Field S v (S.ord.slot X) = BitVec.ofNat 5 (min 255 (v X * (S.scale X).toNat / 65536) / 8) := by
  rw [lpd6803Field, S.ord.chanAt_slot, scale8_eq, Nat.shiftRight_eq_div_pow]

/-- Field `k` stands at bits `10 - 5 * k` and up of the pixel word (30_encoding.md R113). -/
theorem lpd6803Word_field {k : Nat} (hk : k < 3) :
    (lpd6803Word S v >>> (10 - 5 * k)).setWidth 5 = lpd6803Field S v k := by
  rw [BitVec.setWidth_ushiftRight_eq_extractLsb, lpd6803Word]
  obtain rfl | rfl | rfl : k = 0 ∨ k = 1 ∨ k = 2 := by omega
  · rw [BitVec.extractLsb'_append_eq_of_le (by decide), BitVec.extractLsb'_append_eq_of_le (by decide)]
    exact BitVec.extractLsb'_append_eq_right
  · rw [BitVec.extractLsb'_append_eq_of_le (by decide)]
    exact BitVec.extractLsb'_append_eq_right
  · exact BitVec.extractLsb'_append_eq_right

/-- High byte first, then the low byte: the word again (20_memory.md R79). -/
theorem lpd6803Word_bytes :
    ((lpd6803Word S v).extractLsb' 8 8 ++ (lpd6803Word S v).extractLsb' 0 8 : BitVec 16) = lpd6803Word S v := by
  rw [BitVec.extractLsb'_append_extractLsb'_eq_extractLsb' (by rfl)]
  exact BitVec.extractLsb'_eq_self

/-- The fixed leading 1 of the pixel word. -/
theorem lpd6803Word_marker : ((lpd6803Word S v).extractLsb' 8 8).getLsbD 7 = true := by
  simp only [lpd6803Word, BitVec.getLsbD_extractLsb', BitVec.getLsbD_append]
  rfl

end

/-! The bytes of a black pixel (R276): the forced bits alone. -/

/-- The bytes of a black pixel of a strip; `lead` is the brightness byte of the protocols that have one. -/
def Strip.darkBytes (S : Strip) (lead : Byte) : List Byte :=
  match S.proto with
  | .ws2801 => List.replicate 3 0x00#8
  | .lpd6803 => [0x80#8, 0x00#8]
  | .lpd8806 => List.replicate 3 0x80#8
  | .apa102 | .sk9822 => lead :: List.replicate 3 0x00#8

theorem chanValue_zero (w : Nat) : chanValue 0#w 0#w 0#w = fun _ => 0 := by
  funext X
  cases X <;> exact BitVec.toNat_zero

theorem ws2801Pixel_zero (S : Strip) : ws2801Pixel S (fun _ => 0) = List.replicate 3 0x00#8 := by
  simp [ws2801Pixel]

theorem lpd6803Pixel_zero (S : Strip) : lpd6803Pixel S (fun _ => 0) = [0x80#8, 0x00#8] := by
  simp [lpd6803Pixel, lpd6803Word, lpd6803Field]

theorem lpd8806Pixel_zero (S : Strip) : lpd8806Pixel S (fun _ => 0) = List.replicate 3 0x80#8 := by
  simp [lpd8806Pixel]

theorem apaPixel8_zero (S : Strip) :
    apaPixel8 S (fun _ => 0) = brightnessByte S.level0 :: List.replicate 3 0x00#8 := by
  simp [apaPixel8]

theorem apaPixel16_zero (P : Params) (S : Strip) :
    apaPixel16 P S (fun _ => 0) = 0xE1#8 :: List.replicate 3 0x00#8 := by
  have hw : ∀ X, apaWanted S (fun _ => 0) X = 0 := fun X => by rw [apaWanted, scaled_zero, Nat.min_zero]
  have hlead : brightnessByte 1#5 = 0xE1#8 := by decide
  simp [apaPixel16, apaLevel, hw, hlead]

theorem pixelBytes8_zero (S : Strip) :
    pixelBytes8 S (chanValue 0#8 0#8 0#8) = S.darkBytes (0b111#3 ++ S.level0) := by
  rw [chanValue_zero, ← brightnessByte_eq, pixelBytes8, Strip.darkBytes]
  cases S.proto
  case ws2801 => exact ws2801Pixel_zero S
  case lpd6803 => exact lpd6803Pixel_zero S
  case lpd8806 => exact lpd8806Pixel_zero S
  case apa102 | sk9822 => exact apaPixel8_zero S

theorem pixelBytes16_zero (P : Params) (S : Strip) :
    pixelBytes16 P S (chanValue 0#16 0#16 0#16) = S.darkBytes 0xE1#8 := by
  rw [chanValue_zero, pixelBytes16, Strip.darkBytes]
  simp only [Nat.zero_shiftRight]
  cases S.proto
  case ws2801 => exact ws2801Pixel_zero S
  case lpd6803 => exact lpd6803Pixel_zero S
  case lpd8806 => exact lpd8806Pixel_zero S
  case apa102 | sk9822 => exact apaPixel16_zero P S

/-! A pixel write on any path (R260, R262, R263). -/

/-- `t` is what a pixel write of the bytes `vs` from `base` up leaves of `s`. -/
structure State.PixelStored (s t : State) (opc : BitVec 8) (pin : Pin) (base : Nat) (vs : List Byte) : Prop where
  written : s.PixelWritten t opc pin base vs.length
  byte : ∀ k (hk : k < vs.length), t.byteAt pin (base + k) = vs[k]

theorem State.pixelStored_withBytes (s : State) (opc : BitVec 8) (pin : Pin) (base : Nat) (vs : List Byte) :
    s.PixelStored ((s.withBytes pin base vs).respond opc 0#32) opc pin base vs where
  written :=
    { answer := by rw [State.respond_rsp, rspOf_ok]
      frame := s.respond_withBytes_frame pin base vs opc 0#32
      others := fun q pos h => by rw [State.byteAt_respond, State.byteAt_withBytes, if_neg h] }
  byte := fun k hk => by
    rw [State.byteAt_respond, State.byteAt_withBytes, if_pos ⟨rfl, by omega, by omega⟩, Nat.add_sub_cancel_left,
      List.getElem?_eq_getElem hk, Option.getD_some]

/-- The position of a pixel's first byte, protocol by protocol (10_state.md R35, 43_strip_factory.md R231). -/
theorem Strip.pixelBase_eq (S : Strip) (i : Nat) :
    S.pixelBase i =
      match S.proto with
      | .ws2801 => 3 * i
      | .lpd6803 => 4 + 2 * i
      | .lpd8806 => 1 + 3 * i
      | .apa102 | .sk9822 => 4 + 4 * i := by
  rw [Strip.pixelBase]
  cases S.proto
  case ws2801 => exact Nat.zero_add _
  all_goals rfl

theorem exec_setpix8_eq_setPixel (s : State) (pin : Pin) (idx : BitVec 16) (r g b : Byte) :
    exec (.setpix8 pin idx r g b) s = setPixel Opc.setpix8 pin idx (pixelBytes8 · (chanValue r g b)) s := rfl

theorem exec_setpix16_eq_setPixel (s : State) (pin : Pin) (idx r g b : BitVec 16) :
    exec (.setpix16 pin idx r g b) s =
      setPixel Opc.setpix16 pin idx (pixelBytes16 s.params · (chanValue r g b)) s := rfl

section
variable {s : State} {pin : Pin} {idx : BitVec 16}

theorem exec_setpix8_stores (h : s.CanWritePixel pin idx) (r g b : Byte) :
    ∃ t, exec (.setpix8 pin idx r g b) s = .next t ∧
      s.PixelStored t 0x18#8 pin ((s.strip pin).pixelBase idx.toNat) (pixelBytes8 (s.strip pin) (chanValue r g b)) :=
  ⟨_, setPixel_eq h Opc.setpix8 (pixelBytes8 · (chanValue r g b)) (pixelBytes8_length · _),
    s.pixelStored_withBytes ..⟩

theorem exec_setpix16_stores (h : s.CanWritePixel pin idx) (r g b : BitVec 16) :
    ∃ t, exec (.setpix16 pin idx r g b) s = .next t ∧
      s.PixelStored t 0x19#8 pin ((s.strip pin).pixelBase idx.toNat)
        (pixelBytes16 s.params (s.strip pin) (chanValue r g b)) :=
  ⟨_, setPixel_eq h Opc.setpix16 (pixelBytes16 s.params · (chanValue r g b)) (pixelBytes16_length s.params · _),
    s.pixelStored_withBytes ..⟩

/-- A write past the end of the strip answers `OK` and stores nothing (R261). -/
theorem setPixel_past_end (hs : s.Ready) (hv : (s.strip pin).valid = true)
    (hi : (s.strip pin).count.toNat ≤ idx.toNat) (opc : BitVec 8) (bytes : Strip → List Byte) :
    setPixel opc pin idx bytes s = .next { s with rsp := some (okRsp opc 0#32) } := by
  rw [setPixel, s.gate_none_iff.2 hs, hv, ← State.respond_eq]
  exact if_pos hi

end

/-- Settles O32: both commands are the one pixel write, which stores nothing past the end. -/
theorem outOfRangePixelIsSilent : Obligations.OutOfRangePixelIsSilent := by
  intro s pin idx hs hv hi
  refine ⟨fun r g b => ?path8, fun r g b => ?path16⟩
  case path8 => rw [exec_setpix8_eq_setPixel, setPixel_past_end hs hv hi, Opc.setpix8]
  case path16 => rw [exec_setpix16_eq_setPixel, setPixel_past_end hs hv hi, Opc.setpix16]

/-! `SETPIX8`, protocol by protocol. -/

/-- Settles O33. -/
theorem setpix8EncodesWs2801 : Obligations.Setpix8EncodesWs2801 := by
  intro s pin idx r g b h hp
  obtain ⟨t, ht, hstored⟩ := exec_setpix8_stores h r g b
  simp only [Strip.pixelBase_eq, pixelBytes8, hp] at hstored
  refine ⟨t, ht, hstored.written, fun X => ?slot⟩
  case slot => rw [hstored.byte _ ((s.strip pin).ord.slot_lt X), ws2801Pixel_slot]

/-- Settles O34: the two bytes read back are the pixel word, whose fields stand at their bits. -/
theorem setpix8EncodesLpd6803 : Obligations.Setpix8EncodesLpd6803 := by
  intro s pin idx r g b h hp
  obtain ⟨t, ht, hstored⟩ := exec_setpix8_stores h r g b
  simp only [Strip.pixelBase_eq, pixelBytes8, hp] at hstored
  have hhigh : t.byteAt pin (4 + 2 * idx.toNat) = (lpd6803Word (s.strip pin) (chanValue r g b)).extractLsb' 8 8 :=
    hstored.byte 0 Nat.zero_lt_two
  have hlow : t.byteAt pin (4 + 2 * idx.toNat + 1) = (lpd6803Word (s.strip pin) (chanValue r g b)).extractLsb' 0 8 :=
    hstored.byte 1 Nat.one_lt_two
  refine ⟨t, ht, hstored.written, ?_⟩
  rw [hhigh, hlow]
  refine ⟨lpd6803Word_marker _ _, fun X => ?field⟩
  case field => rw [lpd6803Word_bytes, lpd6803Word_field _ _ ((s.strip pin).ord.slot_lt X), lpd6803Field_slot]

/-- Settles O35. -/
theorem setpix8EncodesLpd8806 : Obligations.Setpix8EncodesLpd8806 := by
  intro s pin idx r g b h hp
  obtain ⟨t, ht, hstored⟩ := exec_setpix8_stores h r g b
  simp only [Strip.pixelBase_eq, pixelBytes8, hp] at hstored
  refine ⟨t, ht, hstored.written, fun X => ?slot⟩
  case slot => rw [hstored.byte _ ((s.strip pin).ord.slot_lt X), lpd8806Pixel_slot]

/-- `SETPIX8` on APA102 and SK9822 stores one run of bytes: the two differ in nothing on the 8-bit path. -/
theorem exec_setpix8_stores_apa {s : State} {pin : Pin} {idx : BitVec 16} (h : s.CanWritePixel pin idx)
    (hp : (s.strip pin).proto = .apa102 ∨ (s.strip pin).proto = .sk9822) (r g b : Byte) :
    ∃ t, exec (.setpix8 pin idx r g b) s = .next t ∧
      s.PixelStored t 0x18#8 pin (4 + 4 * idx.toNat) (apaPixel8 (s.strip pin) (chanValue r g b)) := by
  obtain ⟨t, ht, hstored⟩ := exec_setpix8_stores h r g b
  refine ⟨t, ht, ?_⟩
  rcases hp with hp | hp <;> simpa only [Strip.pixelBase_eq, pixelBytes8, hp] using hstored

/-- `SETPIX16` on APA102 and SK9822 stores one run of bytes, which the strip's tables decide (R273). -/
theorem exec_setpix16_stores_apa {s : State} {pin : Pin} {idx : BitVec 16} (h : s.CanWritePixel pin idx)
    (hp : (s.strip pin).proto = .apa102 ∨ (s.strip pin).proto = .sk9822) (r g b : BitVec 16) :
    ∃ t, exec (.setpix16 pin idx r g b) s = .next t ∧
      s.PixelStored t 0x19#8 pin (4 + 4 * idx.toNat) (apaPixel16 s.params (s.strip pin) (chanValue r g b)) := by
  obtain ⟨t, ht, hstored⟩ := exec_setpix16_stores h r g b
  refine ⟨t, ht, ?_⟩
  rcases hp with hp | hp <;> simpa only [Strip.pixelBase_eq, pixelBytes16, hp] using hstored

/-- Settles O36: the brightness byte is the run's first, the colour of a channel stands one past its slot. -/
theorem setpix8EncodesApa102 : Obligations.Setpix8EncodesApa102 := by
  intro s pin idx r g b h hp
  obtain ⟨t, ht, hstored⟩ := exec_setpix8_stores_apa h hp r g b
  refine ⟨t, ht, hstored.written, ?level, fun X => ?slot⟩
  case level =>
    rw [← brightnessByte_eq]
    exact hstored.byte 0 (Nat.zero_lt_succ _)
  case slot =>
    rw [Nat.add_right_comm _ 1, Nat.add_assoc, hstored.byte _ (Nat.succ_lt_succ ((s.strip pin).ord.slot_lt X)),
      apaPixel8_slot]

/-! Black pixels. -/

/-- A black pixel as it is read back (R276); `lead` is the brightness byte of the protocols that have one. -/
def State.PixelDark (t : State) (S : Strip) (pin : Pin) (i : Nat) (lead : Byte) : Prop :=
  match S.proto with
  | .ws2801 => ∀ k, k < 3 → t.byteAt pin (3 * i + k) = 0x00#8
  | .lpd6803 => t.byteAt pin (4 + 2 * i) = 0x80#8 ∧ t.byteAt pin (4 + 2 * i + 1) = 0x00#8
  | .lpd8806 => ∀ k, k < 3 → t.byteAt pin (1 + 3 * i + k) = 0x80#8
  | .apa102 | .sk9822 => t.byteAt pin (4 + 4 * i) = lead ∧ ∀ k, k < 3 → t.byteAt pin (4 + 4 * i + 1 + k) = 0x00#8

/-- A run whose bytes are one and the same is read back as that byte. -/
theorem State.PixelStored.byte_replicate {s t : State} {opc : BitVec 8} {pin : Pin} {base n k : Nat} {v : Byte}
    (h : s.PixelStored t opc pin base (List.replicate n v)) (hk : k < n) : t.byteAt pin (base + k) = v := by
  rw [h.byte k (by rwa [List.length_replicate]), List.getElem_replicate]

theorem State.PixelStored.byte_cons_replicate {s t : State} {opc : BitVec 8} {pin : Pin} {base n k : Nat} {u v : Byte}
    (h : s.PixelStored t opc pin base (u :: List.replicate n v)) (hk : k < n) : t.byteAt pin (base + 1 + k) = v := by
  rw [Nat.add_right_comm, Nat.add_assoc, h.byte (k + 1) (by simpa using hk), List.getElem_cons_succ,
    List.getElem_replicate]

/-- A pixel whose bytes are the forced bits alone is read back as such, on either path. -/
theorem State.PixelStored.dark {s t : State} {opc : BitVec 8} {pin : Pin} {i : Nat} {S : Strip} {lead : Byte}
    (h : s.PixelStored t opc pin (S.pixelBase i) (S.darkBytes lead)) : t.PixelDark S pin i lead := by
  rw [Strip.pixelBase_eq, Strip.darkBytes] at h
  rw [State.PixelDark]
  cases hp : S.proto <;> rw [hp] at h
  case ws2801 | lpd8806 => exact fun k hk => h.byte_replicate hk
  case lpd6803 => exact ⟨h.byte 0 Nat.zero_lt_two, h.byte 1 Nat.one_lt_two⟩
  case apa102 | sk9822 => exact ⟨h.byte 0 (Nat.zero_lt_succ _), fun k hk => h.byte_cons_replicate hk⟩

/-- Settles O39: on both paths the bytes stored for colour 0 are those of a black pixel. -/
theorem zeroStaysZero : Obligations.ZeroStaysZero := by
  intro s pin idx h
  obtain ⟨t, ht, hstored⟩ := exec_setpix8_stores h 0#8 0#8 0#8
  obtain ⟨u, hu, hstored16⟩ := exec_setpix16_stores h 0#16 0#16 0#16
  rw [pixelBytes8_zero] at hstored
  rw [pixelBytes16_zero] at hstored16
  exact ⟨⟨t, ht, hstored.dark⟩, u, hu, hstored16.dark⟩

/-! `SETPIX16` on the three 8-bit protocols (R267, R269, R271, R274). -/

/-- Two states that differ in the response alone, and responses that differ in the opcode echoed alone. -/
def State.SameButOpcode (t u : State) (opc opc' : BitVec 8) : Prop :=
  { t with rsp := u.rsp } = u ∧
    ∃ r q, t.rsp = some r ∧ u.rsp = some q ∧ r.extractLsb' 0 8 = q.extractLsb' 0 8 ∧
      r.extractLsb' 16 48 = q.extractLsb' 16 48 ∧ r.extractLsb' 8 8 = opc ∧ q.extractLsb' 8 8 = opc'

/-- The three fields of a response word around and at the opcode echoed (30_encoding.md R108). -/
theorem response_fields (hi : BitVec 48) (opc code : BitVec 8) :
    (hi ++ opc ++ code : Response).extractLsb' 0 8 = code ∧ (hi ++ opc ++ code : Response).extractLsb' 16 48 = hi ∧
      (hi ++ opc ++ code : Response).extractLsb' 8 8 = opc := by
  refine ⟨BitVec.extractLsb'_append_eq_right, ?_, ?_⟩
  · rw [BitVec.extractLsb'_append_eq_of_le (by decide)]
    exact BitVec.extractLsb'_append_eq_left
  · rw [BitVec.extractLsb'_append_eq_of_le (by decide)]
    exact BitVec.extractLsb'_append_eq_right

/-- One state answering with two response words that are built alike. -/
theorem State.sameButOpcode_answers (s : State) (hi : BitVec 48) (opc opc' code : BitVec 8) :
    State.SameButOpcode { s with rsp := some (hi ++ opc ++ code) } { s with rsp := some (hi ++ opc' ++ code) }
      opc opc' := by
  obtain ⟨hcode, hhi, hopc⟩ := response_fields hi opc code
  obtain ⟨hcode', hhi', hopc'⟩ := response_fields hi opc' code
  exact ⟨rfl, _, _, rfl, rfl, hcode.trans hcode'.symm, hhi.trans hhi'.symm, hopc, hopc'⟩

theorem State.sameButOpcode_failed (s : State) (opc opc' code : BitVec 8) :
    (s.failed opc code).SameButOpcode (s.failed opc' code) opc opc' :=
  State.sameButOpcode_answers (s.failed opc code) (0#32 ++ 0#8 ++ 0x00#8) opc opc' code

theorem State.sameButOpcode_respond (s : State) (opc opc' : BitVec 8) (v : Word) :
    (s.respond opc v).SameButOpcode (s.respond opc' v) opc opc' := by
  rw [State.respond_eq, State.respond_eq]
  exact s.sameButOpcode_answers (v ++ 0#16) opc opc' 0x00#8

/-- The opcode of a pixel write shows in its answer alone: whatever the state, the outcome is one of these for every
opcode at once. -/
theorem setPixel_outcome (pin : Pin) (idx : BitVec 16) (bytes : Strip → List Byte) (s : State) :
    (∃ c, ∀ opc, setPixel opc pin idx bytes s = .next (s.failed opc c)) ∨
      (∃ u : State, ∀ opc, setPixel opc pin idx bytes s = .next (u.respond opc 0#32)) ∨
      ∃ f, ∀ opc, setPixel opc pin idx bytes s = .fault f := by
  simp only [setPixel, fails_eq]
  cases s.gate with
  | some e => exact .inl ⟨e.code, fun _ => rfl⟩
  | none =>
    cases (s.strip pin).valid with
    | false => exact .inl ⟨Err.strip.code, fun _ => rfl⟩
    | true =>
      by_cases hi : idx.toNat ≥ (s.strip pin).count.toNat
      · exact .inr (.inl ⟨s, fun _ => if_pos hi⟩)
      · simp only [hi, if_false]
        cases s.busSetBytes pin (placed ((s.strip pin).pixelBase idx.toNat) (bytes (s.strip pin))) with
        | ok u => exact .inr (.inl ⟨u, fun _ => rfl⟩)
        | error f => exact .inr (.inr ⟨f, fun _ => rfl⟩)

/-- A pixel write asks the encoder for the bytes of the pin's own strip and of no other. -/
theorem setPixel_congr {pin : Pin} {bytes bytes' : Strip → List Byte} {s : State}
    (h : bytes (s.strip pin) = bytes' (s.strip pin)) (opc : BitVec 8) (idx : BitVec 16) :
    setPixel opc pin idx bytes s = setPixel opc pin idx bytes' s := by
  rw [setPixel, setPixel, h]

theorem chanValue_highBytes (r g b : BitVec 16) :
    chanValue (r.extractLsb' 8 8) (g.extractLsb' 8 8) (b.extractLsb' 8 8) = fun X => chanValue r g b X >>> 8 := by
  have hhigh : ∀ x : BitVec 16, (x.extractLsb' 8 8).toNat = x.toNat >>> 8 := by
    intro x
    have := x.isLt
    rw [BitVec.extractLsb'_toNat, Nat.shiftRight_eq_div_pow]
    exact Nat.mod_eq_of_lt (by omega)
  funext X
  cases X <;> exact hhigh _

theorem pixelBytes16_eq_pixelBytes8_highBytes (P : Params) {S : Strip}
    (hp : S.proto = .ws2801 ∨ S.proto = .lpd6803 ∨ S.proto = .lpd8806) (r g b : BitVec 16) :
    pixelBytes16 P S (chanValue r g b) =
      pixelBytes8 S (chanValue (r.extractLsb' 8 8) (g.extractLsb' 8 8) (b.extractLsb' 8 8)) := by
  rw [chanValue_highBytes, pixelBytes16, pixelBytes8]
  rcases hp with hp | hp | hp <;> rw [hp]

/-- On the three 8-bit protocols `SETPIX16` is the pixel write of the 8-bit encoder under its own opcode. -/
theorem exec_setpix16_eq_setPixel8 {s : State} {pin : Pin}
    (hp : (s.strip pin).proto = .ws2801 ∨ (s.strip pin).proto = .lpd6803 ∨ (s.strip pin).proto = .lpd8806)
    (idx r g b : BitVec 16) :
    exec (.setpix16 pin idx r g b) s =
      setPixel Opc.setpix16 pin idx
        (pixelBytes8 · (chanValue (r.extractLsb' 8 8) (g.extractLsb' 8 8) (b.extractLsb' 8 8))) s := by
  rw [exec_setpix16_eq_setPixel]
  exact setPixel_congr (pixelBytes16_eq_pixelBytes8_highBytes s.params hp r g b) Opc.setpix16 idx

/-- Settles O38: both commands are one pixel write under two opcodes. -/
theorem setpix16IsSetpix8OfHighBytes : Obligations.Setpix16IsSetpix8OfHighBytes := by
  intro s pin idx r g b hp
  refine ⟨?alike, fun h => ?completes⟩
  case alike =>
    rw [exec_setpix16_eq_setPixel8 hp, exec_setpix8_eq_setPixel]
    rcases setPixel_outcome pin idx
        (pixelBytes8 · (chanValue (r.extractLsb' 8 8) (g.extractLsb' 8 8) (b.extractLsb' 8 8))) s with
      ⟨c, hfails⟩ | ⟨u, hanswers⟩ | ⟨f, hfaults⟩
    · rw [hfails, hfails]
      exact s.sameButOpcode_failed _ _ c
    · rw [hanswers, hanswers]
      exact u.sameButOpcode_respond _ _ 0#32
    · rw [hfaults, hfaults]
  case completes =>
    obtain ⟨t, ht, hstored⟩ := exec_setpix16_stores h r g b
    exact ⟨t, ht, hstored.written.answer⟩

/-! `SETBRT` (R280 to R282). -/

section
variable {s : State} {pin : Pin} (rs gs bs : Word)

theorem exec_setbrt_no_strip (hs : s.Ready) (hv : (s.strip pin).valid = false) :
    exec (.setbrt pin rs gs bs) s = .next (s.failed 0x1A#8 9#8) := by
  change execSetbrt pin rs gs bs s = _
  rw [execSetbrt, s.gate_none_iff.2 hs, hv]
  exact fails_eq s Opc.setbrt .strip

theorem exec_setbrt_rescales (hs : s.Ready) (hv : (s.strip pin).valid = true) :
    exec (.setbrt pin rs gs bs) s =
      .next ((s.setStrip pin ((s.strip pin).withScales s.params rs gs bs)).respond Opc.setbrt 0#32) := by
  change execSetbrt pin rs gs bs s = _
  rw [execSetbrt, s.gate_none_iff.2 hs, hv]
  rfl

end

@[simp] theorem State.strip_respond (s : State) (opc : BitVec 8) (v : Word) (p : Pin) :
    (s.respond opc v).strip p = s.strip p := rfl

theorem Strip.withScales_comp (P : Params) (S : Strip) (rs gs bs : Word) (X : Chan) :
    (S.withScales P rs gs bs).comp X =
      compOf ((S.withScales P rs gs bs).scale X) (rtab P S.proto X) (S.withScales P rs gs bs).level0 := by
  cases X <;> rfl

/-- Settles O42: the new entry is `withScales`, field by field, and the entry alone changes. -/
theorem setbrtRecomputesScales : Obligations.SetbrtRecomputesScales := by
  refine ⟨by decide, fun s pin rs gs bs hs => ⟨exec_setbrt_no_strip rs gs bs hs, fun hv => ?_⟩⟩
  refine ⟨_, exec_setbrt_rescales rs gs bs hs hv, ?_⟩
  simp only [State.strip_respond, State.strip_setStrip, if_true]
  refine ⟨?answer, rfl, rfl, rfl, ?level, fun X => ?comp, hv, rfl, rfl, rfl, fun q hq => if_neg hq, rfl⟩
  case answer => rw [State.respond_rsp, rspOf_ok, Opc.setbrt]
  case level => exact level0Of_toNat rs gs bs
  case comp => rw [Strip.withScales_comp, compOf_toNat]

/-- The level a `SETBRT` on a strip that exists leaves in the entry. -/
theorem level0_of_exec_setbrt {s t : State} {pin : Pin} {rs gs bs : Word} (hs : s.Ready)
    (hv : (s.strip pin).valid = true) (h : exec (.setbrt pin rs gs bs) s = .next t) :
    (t.strip pin).level0 = level0Of rs gs bs := by
  rw [exec_setbrt_rescales rs gs bs hs hv, Host.Outcome.next.injEq] at h
  rw [← h, State.strip_respond, State.strip_setStrip, if_pos rfl]
  rfl

/-- Settles O43. -/
theorem levelIsMonotone : Obligations.LevelIsMonotone := by
  intro s t s' t' pin rs gs bs rs' gs' bs' hs hs' hv hv' h h' hr hg hb
  rw [level0_of_exec_setbrt hs hv h, level0_of_exec_setbrt hs' hv' h']
  exact ⟨level0Of_mono hr hg hb, level0Of_range rs gs bs⟩

/-! No brightness byte has level 0 (R278). -/

/-- A level of 1 to 31 in its five bits is not 0. -/
theorem ofNat_level_ne_zero {n : Nat} (h : 1 ≤ n ∧ n ≤ 31) : BitVec.ofNat 5 n ≠ 0#5 := by
  intro h0
  have := congrArg BitVec.toNat h0
  rw [BitVec.toNat_ofNat, Nat.mod_eq_of_lt (by omega), BitVec.toNat_zero] at this
  omega

theorem level_of_exec_setpix8 {s t : State} {pin : Pin} {idx : BitVec 16} {r g b : Byte} (h : s.CanWritePixel pin idx)
    (hp : (s.strip pin).proto = .apa102 ∨ (s.strip pin).proto = .sk9822)
    (ht : exec (.setpix8 pin idx r g b) s = .next t) :
    (t.byteAt pin (4 + 4 * idx.toNat)).extractLsb' 0 5 = (s.strip pin).level0 := by
  obtain ⟨u, hu, hstored⟩ := exec_setpix8_stores_apa h hp r g b
  obtain rfl : u = t := Host.Outcome.next.inj (hu.symm.trans ht)
  exact (congrArg _ (hstored.byte 0 (Nat.zero_lt_succ _))).trans (extractLsb'_brightnessByte _)

theorem level_of_exec_setpix16 {s t : State} {pin : Pin} {idx r g b : BitVec 16} (h : s.CanWritePixel pin idx)
    (hp : (s.strip pin).proto = .apa102 ∨ (s.strip pin).proto = .sk9822)
    (ht : exec (.setpix16 pin idx r g b) s = .next t) :
    (t.byteAt pin (4 + 4 * idx.toNat)).extractLsb' 0 5 =
      BitVec.ofNat 5 (apaLevel (s.strip pin) (chanValue r g b)) := by
  obtain ⟨u, hu, hstored⟩ := exec_setpix16_stores_apa h hp r g b
  obtain rfl : u = t := Host.Outcome.next.inj (hu.symm.trans ht)
  exact (congrArg _ (hstored.byte 0 (Nat.zero_lt_succ _))).trans (extractLsb'_brightnessByte _)

/-- The five constructors are one command body under their own opcodes (43_strip_factory.md R233). -/
theorem exec_constructor_eq_mkStrip (proto : Proto) (pin : Pin) (ord : BitVec 3) (count : BitVec 16) (s : State) :
    exec (proto.constructor pin ord count) s =
      mkStrip (proto.constructor pin ord count).opcode proto pin ord count s := by
  cases proto <;> rfl

/-- A constructor that answers `OK` passed all its checks and had its effect. -/
theorem mkStrip_of_status_ok {opc : BitVec 8} {proto : Proto} {pin : Pin} {ord : BitVec 3} {count : BitVec 16}
    {s t : State} (h : mkStrip opc proto pin ord count s = .next t) (hok : t.status = some 0#8) :
    ∃ o, t = (s.withStrip proto pin o count).respond opc (s.withStrip proto pin o count).size := by
  rcases mkStrip_cases h with ⟨c, rfl, hc⟩ | ⟨-, -, -, rfl⟩ | ⟨o, -, -, -, ht⟩
  · rw [State.status_failed, Option.some.injEq] at hok
    subst hok
    simp at hc
  · rw [State.status_failed] at hok
    exact absurd hok (by decide)
  · exact ⟨o, ht⟩

/-- A constructor's frame is read back from position 0 up. -/
theorem State.byteAt_withStrip (s : State) (proto : Proto) (pin : Pin) (o : Order) (count : BitVec 16) {pos : Nat}
    {v : Byte} (h : (proto.blackFrame count.toNat)[pos]? = some v) :
    (s.withStrip proto pin o count).byteAt pin pos = v := by
  have hpos : pos < (proto.blackFrame count.toNat).length := (List.getElem?_eq_some_iff.1 h).1
  rw [State.withStrip, State.byteAt_withBytes, if_pos ⟨rfl, Nat.zero_le _, by omega⟩, Nat.sub_zero, h,
    Option.getD_some]

/-- The first byte of every black pixel of APA102 and SK9822 is the brightness byte of level 1. -/
theorem blackFrame_brightnessByte {proto : Proto} (hp : proto = .apa102 ∨ proto = .sk9822) {n i : Nat} (hi : i < n) :
    (proto.blackFrame n)[4 + 4 * i]? = some 0xE1#8 := by
  have hpos : 4 + 4 * i < proto.frameLen n := by
    rcases hp with rfl | rfl <;> simp only [Proto.frameLen, Proto.startLen, Proto.pixW] <;> omega
  have hbyte : blackByte proto n (4 + 4 * i) = 0xE1#8 := by
    rcases hp with rfl | rfl <;> exact if_pos (by omega)
  have hget := blackFrame_byte proto n _ hpos
  rw [List.getElem?_eq_getElem (by rwa [Proto.blackFrame_length]), Option.getD_some, hbyte] at hget
  rw [List.getElem?_eq_getElem (by rwa [Proto.blackFrame_length]), hget]

/-- Settles O40: the clamp of `SETBRT`, the level of each path, and the pre-seeded frame. -/
theorem brightnessLevelNeverZero : Obligations.BrightnessLevelNeverZero := by
  refine ⟨level0Of_range, ?path16, ?path8, ?preseed⟩
  case path16 =>
    intro s t pin idx r g b h hp ht
    rw [level_of_exec_setpix16 h hp ht]
    exact ofNat_level_ne_zero (apaLevel_range _ _)
  case path8 =>
    intro s t pin idx r g b hinv h hp ht hzero
    rw [level_of_exec_setpix8 h hp ht] at hzero
    have hpos := (hinv.strips pin h.strip_valid).level_pos hp
    rw [hzero] at hpos
    exact absurd hpos (by decide)
  case preseed =>
    intro proto s t pin ord count hp ht hok i hi
    rw [exec_constructor_eq_mkStrip] at ht
    obtain ⟨o, rfl⟩ := mkStrip_of_status_ok ht hok
    have hframe := blackFrame_brightnessByte hp hi
    refine ⟨hframe, ?_⟩
    rw [State.byteAt_respond, s.byteAt_withStrip proto pin o count hframe]
    decide

end Sys2Proof.Machine
end

/-! Status codes and the gates of the common prologue (60_exceptions.md R311, R313, R318): the answer to a word that does
not decode, and the gating table. -/

namespace Sys2Proof.Machine

/-! The command port of an idle machine (30_encoding.md R92). -/

theorem step_command {s : State} {w : Command} {rest : List HostEvent} (hb : s.busy = false)
    (hw : s.hostIn = .command w :: rest) : step s = runCommand w (s.accept rest) := by
  rw [step, hostStep, hb, hw]

theorem runCommand_of_not_decoded {w : Command} {e : DecodeError} (hd : decode w = .error e) (s : State) :
    runCommand w s = .next (s.failed (Field.opc w) 1#8) := by
  rw [runCommand, hd]
  exact fails_eq s (Field.opc w) .illegal

/-- Settles O6: a word that does not decode meets no gate, it fails by itself. -/
theorem illegalWordAnswered : Obligations.IllegalWordAnswered := by
  intro s w rest e hb hw hd
  rw [step_command hb hw]
  exact runCommand_of_not_decoded hd (s.accept rest)

/-! The gates by row of the table. -/

/-- The lock, step 4 of R313. -/
def State.lockGate (s : State) : Option Err := if s.phase = .locked then some .locked else none

/-- The error by which the gates stop a command of a row: the cell of R318 as an error and not as a code
(`State.gateCell_eq`), put together from the gates the commands ask. -/
def State.gateError (s : State) : GateRow → Option Err
  | .always => none
  | .creates => s.gateBuscfg
  | .registers => s.gate.or s.lockGate
  | .usesBus => s.gate

theorem State.gateCell_eq (s : State) (i : Instr) : s.gateCell i = (s.gateError (gateRow i)).map Err.code := by
  rw [State.gateCell]
  cases gateRow i with
  | always => rfl
  | creates | registers | usesBus =>
    cases hf : s.fatal <;> cases hp : s.phase <;>
      simp [State.gateError, State.gateBuscfg, State.gate, State.lockGate, hf, hp, Err.code]

/-- A registration asks for the lock before its pin, whichever it is (R313 steps 4 and 5). -/
theorem State.lockPinError_of_lockGate {s : State} {e : Err} (h : s.lockGate = some e) (pin : Pin) :
    s.lockPinError pin = some e := by
  rw [State.lockGate] at h
  rw [State.lockPinError]
  split at h
  · next hp => rw [if_pos hp, h]
  · cases h

theorem State.gate_of_registers {s : State} {e : Err} (h : s.gateError .registers = some e) (pin : Pin) :
    s.gate = some e ∨ s.gate = none ∧ s.lockPinError pin = some e := by
  rcases Option.or_eq_some_iff.1 h with hg | ⟨hg, hl⟩
  · exact .inl hg
  · exact .inr ⟨hg, State.lockPinError_of_lockGate hl pin⟩

theorem State.open_of_registers {s : State} (h : s.gateError .registers = none) :
    s.gate = none ∧ s.phase ≠ .locked := by
  obtain ⟨hg, hl⟩ := Option.or_eq_none_iff.1 h
  refine ⟨hg, fun hp => ?_⟩
  rw [State.lockGate, if_pos hp] at hl
  cases hl

/-! A command the gates stop. -/

theorem setPixel_gated {s : State} {e : Err} (hg : s.gate = some e) (opc : BitVec 8) (pin : Pin) (idx : BitVec 16)
    (bytes : Strip → List Byte) : setPixel opc pin idx bytes s = fails s opc e := by
  rw [setPixel, hg]

theorem mkStrip_gated {s : State} {e : Err} (h : s.gateError .registers = some e) (opc : BitVec 8) (proto : Proto)
    (pin : Pin) (ord : BitVec 3) (count : BitVec 16) : mkStrip opc proto pin ord count s = fails s opc e := by
  rcases State.gate_of_registers h pin with hg | ⟨hg, hl⟩
  · rw [mkStrip, hg]
  · rw [mkStrip, hg, hl]

theorem execRegline_gated {s : State} {e : Err} (h : s.gateError .registers = some e) (pin : Pin) (len : Word) :
    execRegline pin len s = fails s Opc.regline e := by
  rcases State.gate_of_registers h pin with hg | ⟨hg, hl⟩
  · rw [execRegline, hg]
  · rw [execRegline, hg, hl]

/-- Every command asks the gates of its row before all else. -/
theorem exec_gated {i : Instr} {s : State} {e : Err} (h : s.gateError (gateRow i) = some e) :
    exec i s = fails s i.opcode e := by
  cases i with
  | nop | rdreg | clrerr => cases h
  | buscfg pin strat freq => rw [exec, execBuscfg, show s.gateBuscfg = some e from h]; rfl
  | regline pin len => exact execRegline_gated h pin len
  | mkws2801 pin ord count | mklpd6803 pin ord count | mklpd8806 pin ord count | mkapa102 pin ord count
  | mksk9822 pin ord count => exact mkStrip_gated h _ _ pin ord count
  | setpix8 pin idx r g b => exact (exec_setpix8_eq_setPixel ..).trans (setPixel_gated h ..)
  | setpix16 pin idx r g b => exact (exec_setpix16_eq_setPixel ..).trans (setPixel_gated h ..)
  | setbyte pin pos val => rw [exec, execSetbyte, show s.gate = some e from h]; rfl
  | setbrt pin rs gs bs => rw [exec, execSetbrt, show s.gate = some e from h]; rfl
  | rmstrip pin => rw [exec, execRmstrip, show s.gate = some e from h]; rfl
  | transmit => rw [exec, execTransmit, show s.gate = some e from h]; rfl

/-! A command the gates let through ends with none of their statuses. -/

/-- The statuses the cells of R318 name: `ERR_FATAL`, `ERR_STATE`, `ERR_LOCKED`. -/
def gateCodes : List (BitVec 8) := [8#8, 2#8, 4#8]

/-- The response on the port has none of the statuses in `gateCodes`. -/
def State.NoGateStatus (t : State) : Prop := t.status ≠ some 8#8 ∧ t.status ≠ some 2#8 ∧ t.status ≠ some 4#8

/-- An outcome in which no gate speaks: a state without a gate's status, or none. -/
def PastGate (o : Host.Outcome State Fault Refusal) : Prop := ∀ t, o = .next t → t.NoGateStatus

theorem State.noGateStatus_of_status {t : State} {c : BitVec 8} (h : t.status = some c)
    (hc : c ∉ gateCodes) : t.NoGateStatus := by
  simpa [State.NoGateStatus, gateCodes, h] using hc

theorem State.noGateStatus_respond (s : State) (opc : BitVec 8) (v : Word) : (s.respond opc v).NoGateStatus :=
  State.noGateStatus_of_status (s.status_respond opc v) (by decide)

theorem State.noGateStatus_failed (s : State) (opc : BitVec 8) {c : BitVec 8} (hc : c ∉ gateCodes) :
    (s.failed opc c).NoGateStatus :=
  State.noGateStatus_of_status (s.status_failed opc c) hc

theorem pastGate_next {t : State} (h : t.NoGateStatus) : PastGate (.next t) := fun _ ht =>
  Host.Outcome.next.inj ht ▸ h

theorem pastGate_fault (f : Fault) : PastGate (.fault f) := fun _ ht => nomatch ht

theorem pastGate_respond (s : State) (opc : BitVec 8) (v : Word) : PastGate (.next (s.respond opc v)) :=
  pastGate_next (s.noGateStatus_respond opc v)

theorem pastGate_fails (s : State) (opc : BitVec 8) {e : Err} (he : e.code ∉ gateCodes) :
    PastGate (fails s opc e) := by
  rw [fails_eq]
  exact pastGate_next (s.noGateStatus_failed opc he)

theorem pastGate_failsFatally (s : State) (opc : BitVec 8) : PastGate (failsFatally s opc) := by
  rw [failsFatally_eq]
  exact pastGate_next (State.noGateStatus_failed _ opc (by decide))

theorem pastGate_ite {c : Prop} [Decidable c] {a b : Host.Outcome State Fault Refusal} (ha : PastGate a)
    (hb : PastGate b) : PastGate (if c then a else b) := by
  split
  · exact ha
  · exact hb

theorem execBuscfg_pastGate {s : State} (hg : s.gateBuscfg = none) (pin : Pin) (strat : Strategy) (freq : Word) :
    PastGate (execBuscfg pin strat freq s) := by
  rw [execBuscfg, hg]
  exact pastGate_ite (pastGate_respond _ _ _) (pastGate_fails _ _ (by decide))

theorem execRegline_pastGate {s : State} (hg : s.gate = none) (hl : s.phase ≠ .locked) (pin : Pin) (len : Word) :
    PastGate (execRegline pin len s) := by
  rw [execRegline, hg]
  rcases s.lockPinError_cases pin with ⟨-, hp⟩ | ⟨he, -⟩ | ⟨he, -⟩
  · exact absurd hp hl
  · rw [he]
    exact pastGate_fails _ _ (by decide)
  · rw [he]
    exact pastGate_ite (pastGate_fails _ _ (by decide))
      (pastGate_ite (pastGate_failsFatally _ _) (pastGate_respond _ _ _))

theorem execSetbyte_pastGate {s : State} (hg : s.gate = none) (pin : Pin) (pos : Word) (val : Byte) :
    PastGate (execSetbyte pin pos val s) := by
  rw [execSetbyte, hg]
  refine pastGate_ite (pastGate_fails _ _ (by decide)) (pastGate_ite (pastGate_fails _ _ (by decide)) ?_)
  cases s.busSetBytes pin [(pos.toNat, val)] with
  | ok t => exact pastGate_respond _ _ _
  | error f => exact pastGate_fault f

theorem execRdreg_pastGate (s : State) (addr : BitVec 8) (pin : Pin) : PastGate (execRdreg addr pin s) := by
  rw [execRdreg]
  cases s.csr addr pin with
  | some v => exact pastGate_respond _ _ _
  | none => exact pastGate_fails _ _ (by decide)

theorem execSetbrt_pastGate {s : State} (hg : s.gate = none) (pin : Pin) (rs gs bs : Word) :
    PastGate (execSetbrt pin rs gs bs s) := by
  rw [execSetbrt, hg]
  exact pastGate_ite (pastGate_respond _ _ _) (pastGate_fails _ _ (by decide))

theorem execRmstrip_pastGate {s : State} (hg : s.gate = none) (pin : Pin) : PastGate (execRmstrip pin s) := by
  rw [execRmstrip, hg]
  exact pastGate_ite (pastGate_respond _ _ _) (pastGate_fails _ _ (by decide))

theorem setPixel_pastGate {s : State} (hg : s.gate = none) (opc : BitVec 8) (pin : Pin) (idx : BitVec 16)
    (bytes : Strip → List Byte) : PastGate (setPixel opc pin idx bytes s) := by
  intro t ht
  rcases setPixel_cases ht with ⟨c, rfl, ⟨hf, -⟩ | ⟨hu, -⟩ | ⟨-, -, rfl⟩⟩ | ⟨-, -, -, rfl⟩ | ⟨-, -, -, -, -, rfl⟩
  · cases hg.symm.trans hf
  · cases hg.symm.trans hu
  · exact s.noGateStatus_failed opc (by decide)
  · exact State.noGateStatus_respond _ _ _
  · exact State.noGateStatus_respond _ _ _

theorem mkStrip_pastGate {s : State} (hg : s.gate = none) (hl : s.phase ≠ .locked) (opc : BitVec 8) (proto : Proto)
    (pin : Pin) (ord : BitVec 3) (count : BitVec 16) : PastGate (mkStrip opc proto pin ord count s) := by
  intro t ht
  rcases mkStrip_cases ht with
    ⟨c, rfl, ⟨hf, -⟩ | ⟨hu, -⟩ | ⟨-, hp, -⟩ | ⟨-, -, hc⟩⟩ | ⟨-, -, -, rfl⟩ | ⟨o, -, -, -, rfl⟩
  · cases hg.symm.trans hf
  · cases hg.symm.trans hu
  · exact absurd hp hl
  · exact s.noGateStatus_failed opc (by rcases hc with rfl | rfl | rfl <;> decide)
  · exact State.noGateStatus_failed _ opc (by decide)
  · exact State.noGateStatus_respond _ _ _

/-! `TRANSMIT` (R160): the machine is busy from the lock on, until the end answers `OK` or `ERR_DMA`. -/

theorem State.status_raise (s : State) (opc : BitVec 8) (e : Err) (sub : SubCause) :
    (s.raise opc e sub).status = some e.code :=
  congrArg some BitVec.extractLsb'_append_eq_right

theorem State.shift_busy (s : State) (r n : Nat) : (s.shift r n).busy = s.busy := by
  induction n generalizing s r with
  | zero => rfl
  | succ n ih => rw [State.shift, ih, State.atWrite_busy, State.logicalWrite, State.issue_busy]

theorem State.Sequenced.busy {s t : State} (h : s.Sequenced t) : t.busy = s.busy := by
  rw [h]

theorem State.runTransmit_busy (s : State) : s.runTransmit.busy = s.busy := by
  rw [State.runTransmit]
  cases s.strategy with
  | direct => exact s.shift_busy _ _
  | dma =>
    cases s.dmacs.active with
    | true => exact s.sequencerRound_sequenced.busy
    | false => rfl

theorem State.memWrites_busy {s t : State} {ws : List (Nat × Word)} (h : s.memWrites ws = .ok t) :
    t.busy = s.busy := by
  rw [(State.memWrites_ok h).2]

theorem State.startDma_busy {s t : State} (h : s.startDma = .ok t) : t.busy = s.busy := by
  have hchain : ∀ u, (if s.chainBuilt then Except.ok s else s.buildChain) = .ok u → u.busy = s.busy := by
    intro u hu
    split at hu
    · cases hu; rfl
    · exact (State.memWrites_busy hu :)
  rw [State.startDma] at h
  split at h
  · cases h
  · next u hu =>
    split at h
    · cases h
    · next v hv =>
      cases h
      exact (State.memWrites_busy hv).trans (hchain u hu)

theorem State.startDirect_busy (s : State) : s.startDirect.busy = s.busy := by
  rw [State.startDirect, State.atWrite_busy]
  split
  · rfl
  · rw [State.calibrate_eq, State.issue_busy]

theorem State.beginTransmit_busy {s t : State} (h : s.beginTransmit = .ok t) : t.busy = true := by
  rw [State.beginTransmit] at h
  split at h
  · cases h
    exact s.occupy.startDirect_busy
  · exact State.startDma_busy h

/-- The end of a `TRANSMIT`: none while the sequencer is active, else `OK` or `ERR_DMA`. -/
theorem State.finishTransmit_cases (s : State) :
    s.finishTransmit = s ∨ (∃ u : State, s.finishTransmit = u.endOk) ∨ ∃ u : State, s.finishTransmit = u.endDmaError := by
  rw [State.finishTransmit]
  cases s.strategy with
  | direct => exact .inr (.inl ⟨s, rfl⟩)
  | dma =>
    cases s.dmacs.active with
    | true => exact .inl rfl
    | false =>
      cases s.dmacs.error with
      | true => exact .inr (.inr ⟨s.dmaReset, rfl⟩)
      | false => exact .inr (.inl ⟨s.dmaReset, rfl⟩)

/-- A busy machine that is no longer busy after the end of its `TRANSMIT` has answered, and not as a gate does. -/
theorem State.finishTransmit_noGateStatus {s : State} (hb : s.busy = true) (hf : s.finishTransmit.busy = false) :
    s.finishTransmit.NoGateStatus := by
  rcases s.finishTransmit_cases with h | ⟨u, h⟩ | ⟨u, h⟩
  · rw [h, hb] at hf
    cases hf
  · rw [h]
    exact State.noGateStatus_respond _ _ _
  · rw [h]
    exact State.noGateStatus_of_status (State.status_raise _ _ .dma _) (by decide)

theorem execTransmit_noGateStatus {s t : State} (hg : s.gate = none) (h : execTransmit s = .next t)
    (hb : t.busy = false) : t.NoGateStatus := by
  rw [execTransmit, hg] at h
  cases hu : s.beginTransmit with
  | error f => rw [hu] at h; cases h
  | ok u =>
    rw [hu] at h
    cases h
    exact State.finishTransmit_noGateStatus (u.runTransmit_busy.trans (State.beginTransmit_busy hu)) hb

/-! The table. -/

theorem exec_noGateStatus {i : Instr} {s t : State} (hg : s.gateError (gateRow i) = none) (h : exec i s = .next t)
    (hb : i = .transmit → t.busy = false) : t.NoGateStatus := by
  cases i with
  | nop | clrerr => exact pastGate_respond _ _ _ t h
  | rdreg addr pin => exact execRdreg_pastGate s addr pin t h
  | buscfg pin strat freq => exact execBuscfg_pastGate hg pin strat freq t h
  | regline pin len =>
    obtain ⟨hgate, hlock⟩ := State.open_of_registers hg
    exact execRegline_pastGate hgate hlock pin len t h
  | mkws2801 pin ord count | mklpd6803 pin ord count | mklpd8806 pin ord count | mkapa102 pin ord count
  | mksk9822 pin ord count =>
    obtain ⟨hgate, hlock⟩ := State.open_of_registers hg
    exact mkStrip_pastGate hgate hlock _ _ pin ord count t h
  | setpix8 pin idx r g b =>
    rw [exec_setpix8_eq_setPixel] at h
    exact setPixel_pastGate hg _ pin idx _ t h
  | setpix16 pin idx r g b =>
    rw [exec_setpix16_eq_setPixel] at h
    exact setPixel_pastGate hg _ pin idx _ t h
  | setbyte pin pos val => exact execSetbyte_pastGate hg pin pos val t h
  | setbrt pin rs gs bs => exact execSetbrt_pastGate hg pin rs gs bs t h
  | rmstrip pin => exact execRmstrip_pastGate hg pin t h
  | transmit => exact execTransmit_noGateStatus hg h (hb rfl)

/-- Settles O15: the cell is the error of the gates a command asks first; past them it ends by its own checks. -/
theorem gateTable : Obligations.GateTable := by
  refine ⟨fun i s c hc => ?stopped, fun i s t hc => ?passed, fun s hinv => hinv.fatal_open⟩
  case stopped =>
    rw [State.gateCell_eq, Option.map_eq_some_iff] at hc
    obtain ⟨e, he, rfl⟩ := hc
    rw [exec_gated he, fails_eq]
  case passed =>
    rw [State.gateCell_eq, Option.map_eq_none_iff] at hc
    exact exec_noGateStatus hc

end Sys2Proof.Machine

section
/-! The encoding (30_encoding.md R93 to R105): the fields of a command are read back from its word, and a legal word is
put together again from its fields. -/

namespace Sys2Proof

/-! The decoder by opcode (R104). -/

/-- The format by which the decoder reads every word with the opcode of the command. -/
def Instr.decoder (w : Command) : Instr → Except DecodeError Instr
  | .nop => Decode.formatN w .nop
  | .buscfg _ _ _ => Decode.formatC w
  | .regline _ _ => Decode.formatL w
  | .setbyte _ _ _ => Decode.formatY w
  | .transmit => Decode.formatN w .transmit
  | .rdreg _ _ => Decode.formatG w
  | .clrerr => Decode.formatN w .clrerr
  | .mkws2801 _ _ _ => Decode.formatM w .mkws2801
  | .mklpd6803 _ _ _ => Decode.formatM w .mklpd6803
  | .mklpd8806 _ _ _ => Decode.formatM w .mklpd8806
  | .mkapa102 _ _ _ => Decode.formatM w .mkapa102
  | .mksk9822 _ _ _ => Decode.formatM w .mksk9822
  | .setpix8 _ _ _ _ _ => Decode.formatP8 w
  | .setpix16 _ _ _ _ _ => Decode.formatP16 w
  | .setbrt _ _ _ _ => Decode.formatS w
  | .rmstrip _ => Decode.formatD w

theorem decode_of_opcode {w : Command} {i : Instr} (h : Field.opc w = i.opcode) : decode w = i.decoder w := by
  rw [decode, h]
  cases i <;> rfl

/-- One command of each row of the opcode table, in the table's order. -/
def Instr.samples : List Instr :=
  [.nop, .buscfg 0 .direct 0, .regline 0 0, .setbyte 0 0 0, .transmit, .rdreg 0 0, .clrerr, .mkws2801 0 0 0,
   .mklpd6803 0 0 0, .mklpd8806 0 0 0, .mkapa102 0 0 0, .mksk9822 0 0 0, .setpix8 0 0 0 0 0, .setpix16 0 0 0 0 0,
   .setbrt 0 0 0 0, .rmstrip 0]

theorem opcodeTable_eq_map_samples : opcodeTable = Instr.samples.map Instr.row := rfl

/-- A word decodes by the format of its own opcode, or not at all. -/
theorem opcode_of_decode {w : Command} {i : Instr} (h : decode w = .ok i) :
    ∃ k : Instr, Field.opc w = k.opcode ∧ k.decoder w = .ok i := by
  by_cases hk : ∃ k ∈ Instr.samples, Field.opc w = k.opcode
  · obtain ⟨k, _, hk⟩ := hk
    exact ⟨k, hk, (decode_of_opcode hk).symm.trans h⟩
  · simp only [Instr.samples, List.exists_mem_cons_iff, Instr.opcode, not_or] at hk
    simp [decode, hk] at h

/-! The formats. -/

theorem Field.zero_iff (w : Command) (lo len : Nat) : Field.zero w lo len = true ↔ w.extractLsb' lo len = 0#len := by
  rw [Field.zero, beq_iff_eq]

theorem Decode.zeroed_ok_iff {ok : Bool} {i j : Instr} : Decode.zeroed ok i = .ok j ↔ ok = true ∧ i = j := by
  cases ok <;> simp [Decode.zeroed]

@[simp] theorem Strategy.ofBit_bit (strat : Strategy) : Strategy.ofBit strat.bit = strat := by
  cases strat <;> rfl

theorem Strategy.bit_ofBit (b : BitVec 1) : (Strategy.ofBit b).bit = b := by revert b; decide

theorem registerDefined_iff (addr : BitVec 8) (pin : Pin) :
    registerDefined addr pin = true ↔
      addr.toNat ≤ 0x0E ∧ pin = 0#5 ∨ 0x20 ≤ addr.toNat ∧ addr.toNat ≤ 0x29 := by
  simp [registerDefined]

/-- Format G names a defined register (R98, R105 (c)). -/
theorem Decode.formatG_ok_iff {w : Command} {i : Instr} :
    Decode.formatG w = .ok i ↔
      (Field.zero w 13 19 && Field.zero w 40 88) = true ∧
        registerDefined (w.extractLsb' 32 8) (Field.pin w) = true ∧ .rdreg (w.extractLsb' 32 8) (Field.pin w) = i := by
  rw [Decode.formatG, registerDefined_iff]
  cases Field.zero w 13 19 && Field.zero w 40 88 with
  | false => simp
  | true =>
    rw [if_pos rfl]
    split
    · next hreg => simp only [hreg, true_and, Except.ok.injEq]
    · next hreg => simp only [hreg, true_and, false_and, reduceCtorEq]

/-! From a command to its word and back. -/

theorem opc_encode (i : Instr) : Field.opc (encode i) = i.opcode := by
  cases i <;>
    simp (disch := omega) only [encode, encodeM, Field.opc, Instr.opcode, Field.extract_or, Field.extract_place_same,
      Field.extract_place_apart, BitVec.or_zero]

/-- Settles O1: each format reads from a word made of placed fields the field placed at its bits, and 0 where none is. -/
theorem decodeEncodeRoundTrip : Obligations.DecodeEncodeRoundTrip := by
  intro i hwf
  rw [decode_of_opcode (opc_encode i)]
  cases i with
  | nop | transmit | clrerr => rfl
  | rdreg addr pin =>
    rw [Instr.decoder, Decode.formatG_ok_iff]
    simp (disch := omega) only [encode, Field.pin, Field.zero, Field.extract_or, Field.extract_place_same,
      Field.extract_place_apart, BitVec.or_zero, BitVec.zero_or]
    exact ⟨rfl, hwf, trivial⟩
  | _ =>
    simp (disch := omega) [encode, encodeM, Instr.decoder, Decode.formatC, Decode.formatL, Decode.formatY,
      Decode.formatM, Decode.formatP8, Decode.formatP16, Decode.formatS, Decode.formatD, Decode.zeroed_ok_iff,
      Field.zero_iff, Field.pin, Field.ord, Field.idx, Field.extract_or, Field.extract_place_same,
      Field.extract_place_apart]

/-! From a legal word to its command and back. -/

/-- The fields of a word from bit `lo` up, of the lengths given, put together. -/
def Field.parts (w : Command) (lo : Nat) : List Nat → Command
  | [] => 0#128
  | n :: ns => Field.place lo (w.extractLsb' lo n) ||| Field.parts w (lo + n) ns

theorem Field.parts_eq_place (w : Command) (lo : Nat) (ns : List Nat) (h : lo + ns.sum ≤ 128) :
    Field.parts w lo ns = Field.place lo (w.extractLsb' lo ns.sum) := by
  induction ns generalizing lo with
  | nil => exact (Field.place_zero lo 0).symm.trans (congrArg (Field.place lo) BitVec.of_length_zero.symm)
  | cons n ns ih =>
    rw [List.sum_cons] at h ⊢
    rw [Field.parts, ih (lo + n) (by omega), Field.place_split w lo n ns.sum h]

/-- A word is its fields, put together. -/
theorem Field.parts_whole (w : Command) (ns : List Nat) (h : ns.sum = 128) : Field.parts w 0 ns = w := by
  rw [Field.parts_eq_place w 0 ns (by omega), h, Field.place_whole]

/-- The lengths of the fields of the command's format, lowest bits first (R94 to R103). -/
def Instr.fieldLengths : Instr → List Nat
  | .nop | .transmit | .clrerr => [8, 120]
  | .buscfg _ _ _ => [8, 5, 3, 16, 1, 31, 32, 32]
  | .regline _ _ => [8, 5, 19, 32, 64]
  | .setbyte _ _ _ => [8, 5, 19, 32, 8, 56]
  | .rdreg _ _ => [8, 5, 19, 8, 88]
  | .mkws2801 _ _ _ | .mklpd6803 _ _ _ | .mklpd8806 _ _ _ | .mkapa102 _ _ _ | .mksk9822 _ _ _ => [8, 5, 3, 16, 96]
  | .setpix8 _ _ _ _ _ => [8, 5, 3, 16, 8, 8, 8, 72]
  | .setpix16 _ _ _ _ _ => [8, 5, 3, 16, 16, 16, 16, 48]
  | .setbrt _ _ _ _ => [8, 5, 19, 32, 32, 32]
  | .rmstrip _ => [8, 5, 115]

theorem Instr.fieldLengths_sum (i : Instr) : i.fieldLengths.sum = 128 := by
  cases i <;> rfl

theorem encode_of_decoder {w : Command} {i k : Instr} (ho : Field.opc w = k.opcode) (h : k.decoder w = .ok i) :
    encode i = w ∧ i.wf = true := by
  have hw := Field.parts_whole w k.fieldLengths k.fieldLengths_sum
  cases k with
  | rdreg addr pin =>
    simp only [Instr.decoder, Decode.formatG_ok_iff, Bool.and_eq_true, Field.zero_iff] at h
    obtain ⟨⟨hz1, hz2⟩, hreg, rfl⟩ := h
    refine ⟨Eq.trans ?_ hw, hreg⟩
    simp only [Field.opc, Instr.opcode] at ho
    simp [encode, Instr.fieldLengths, Field.parts, Field.pin, hz1, hz2, ho, BitVec.or_assoc]
  | _ =>
    simp only [Instr.decoder, Decode.formatN, Decode.formatC, Decode.formatL, Decode.formatY, Decode.formatM,
      Decode.formatP8, Decode.formatP16, Decode.formatS, Decode.formatD, Decode.zeroed_ok_iff, Bool.and_eq_true,
      Field.zero_iff] at h
    obtain ⟨hz, rfl⟩ := h
    refine ⟨Eq.trans ?_ hw, rfl⟩
    simp only [Field.opc, Instr.opcode] at ho
    simp [encode, encodeM, Instr.fieldLengths, Field.parts, Field.pin, Field.ord, Field.idx, hz, ho, BitVec.or_assoc,
      Strategy.bit_ofBit]

/-- Settles O2: the word is the fields of its format put together, and the decoder found those it does not read 0. -/
theorem encodeDecodedWord : Obligations.EncodeDecodedWord := by
  intro w i h
  obtain ⟨k, ho, hk⟩ := opcode_of_decode h
  exact encode_of_decoder ho hk

/-! The opcode table. -/

theorem encode_row (i : Instr) : Laws.TableRow.Statement i := by
  cases i with
  | nop => exact Laws.TableRow.nop
  | buscfg pin strat freq => exact Laws.TableRow.buscfg pin strat freq
  | regline pin len => exact Laws.TableRow.regline pin len
  | setbyte pin pos val => exact Laws.TableRow.setbyte pin pos val
  | transmit => exact Laws.TableRow.transmit
  | rdreg addr pin => exact Laws.TableRow.rdreg addr pin
  | clrerr => exact Laws.TableRow.clrerr
  | mkws2801 pin ord count => exact Laws.TableRow.mkws2801 pin ord count
  | mklpd6803 pin ord count => exact Laws.TableRow.mklpd6803 pin ord count
  | mklpd8806 pin ord count => exact Laws.TableRow.mklpd8806 pin ord count
  | mkapa102 pin ord count => exact Laws.TableRow.mkapa102 pin ord count
  | mksk9822 pin ord count => exact Laws.TableRow.mksk9822 pin ord count
  | setpix8 pin idx r g b => exact Laws.TableRow.setpix8 pin idx r g b
  | setpix16 pin idx r g b => exact Laws.TableRow.setpix16 pin idx r g b
  | setbrt pin rs gs bs => exact Laws.TableRow.setbrt pin rs gs bs
  | rmstrip pin => exact Laws.TableRow.rmstrip pin

/-- A slice that lies under the mask is the pattern's. -/
theorem extract_of_masked {w mask pattern : Command} (h : w &&& mask = pattern) (lo len : Nat)
    (hm : mask.extractLsb' lo len = BitVec.allOnes len) : w.extractLsb' lo len = pattern.extractLsb' lo len := by
  rw [← h, BitVec.extractLsb'_and, hm, BitVec.and_allOnes]

theorem zero_of_masked {w mask pattern : Command} (h : w &&& mask = pattern) (lo len : Nat)
    (hm : mask.extractLsb' lo len = BitVec.allOnes len) (hp : pattern.extractLsb' lo len = 0#len) :
    Field.zero w lo len = true := by
  rw [Field.zero_iff, extract_of_masked h lo len hm, hp]

theorem samples_opcode_masked :
    ∀ k ∈ Instr.samples, k.row.mask.extractLsb' 0 8 = BitVec.allOnes 8 ∧ k.row.pattern.extractLsb' 0 8 = k.opcode := by
  decide

/-- Every slice that a format checks lies under the mask of its row. -/
theorem decoder_of_row {w : Command} {i : Instr} (h : w &&& i.row.mask = i.row.pattern)
    (hreg : i.row.pattern = 0x05#128 → registerDefined (w.extractLsb' 32 8) (Field.pin w) = true) :
    ∃ j, i.decoder w = .ok j := by
  cases i with
  | rdreg addr pin =>
    have h : w &&& OpcodeRow.maskG = 0x05#128 := h
    simp only [Instr.decoder, Decode.formatG_ok_iff, Bool.and_eq_true]
    exact ⟨_, ⟨zero_of_masked h _ _ (by decide) (by decide), zero_of_masked h _ _ (by decide) (by decide)⟩,
      hreg rfl, rfl⟩
  | _ =>
    simp only [Instr.row] at h
    simp (disch := decide) [Instr.decoder, Decode.formatN, Decode.formatC, Decode.formatL, Decode.formatY,
      Decode.formatM, Decode.formatP8, Decode.formatP16, Decode.formatS, Decode.formatD, Decode.zeroed,
      zero_of_masked h]

/-- The register a word of the `RDREG` row names is the one its command reads. -/
theorem register_of_rdreg_row {i : Instr} (h : i.row.pattern = 0x05#128) :
    i.wf = registerDefined ((encode i).extractLsb' 32 8) ((encode i).extractLsb' 8 5) := by
  cases i with
  | rdreg addr pin =>
    simp (disch := omega) only [encode, Instr.wf, Field.extract_or, Field.extract_place_same,
      Field.extract_place_apart, BitVec.or_zero, BitVec.zero_or]
  | _ => simp [Instr.row] at h

/-- Settles O3: a legal word is the word of its command, which the table has; a word that matches a row has the row's
opcode and passes the checks of the row's format. -/
theorem decoderFollowsOpcodeTable : Obligations.DecoderFollowsOpcodeTable := by
  intro w
  have row_of_decode : ∀ i, decode w = .ok i → w &&& i.row.mask = i.row.pattern := by
    intro i hi
    rw [← (encodeDecodedWord w i hi).1]
    exact (encode_row i).1
  refine ⟨⟨?legal, ?matched⟩, row_of_decode⟩
  case legal =>
    rintro ⟨i, hi⟩
    obtain ⟨rfl, hwf⟩ := encodeDecodedWord w i hi
    refine ⟨i.row, (encode_row i).2, row_of_decode i hi, fun hp => ?_⟩
    rw [← register_of_rdreg_row hp]
    exact hwf
  case matched =>
    rintro ⟨row, hrow, hm, hreg⟩
    rw [opcodeTable_eq_map_samples] at hrow
    obtain ⟨k, hk, rfl⟩ := List.mem_map.1 hrow
    obtain ⟨hmask, hpattern⟩ := samples_opcode_masked k hk
    rw [decode_of_opcode ((extract_of_masked hm 0 8 hmask).trans hpattern)]
    exact decoder_of_row hm hreg

/-- Settles O4, word by word. -/
theorem specWordsDecode : Obligations.SpecWordsDecode := by
  unfold Obligations.SpecWordsDecode
  decide

end Sys2Proof
end

section
/-! What a command other than `TRANSMIT` can do, said once: it fails, it fails fatally, or it has its effect and answers
(60_exceptions.md R310 to R313). -/

namespace Sys2Proof.Machine

/-! The effects. -/

/-- `u` is `s` with bytes of a registered line inside the buffer stored, by `BusSetByte` (20_memory.md R63). -/
structure State.Stored (s : State) (pin : Pin) (base : Nat) (vs : List Byte) (u : State) : Prop where
  registered : s.registered pin = true
  inside : ∀ w ∈ placed base vs, w.1 < s.size.toNat
  eq : u = s.withBytes pin base vs

/-- `u` is what a pixel write leaves of `s` before its answer: nothing stored past the end of the strip, else the bytes
of one pixel (44_pixel_encoders.md R260, R261). -/
def State.PixelEffect (s : State) (pin : Pin) (u : State) : Prop := u = s ∨ ∃ base vs, s.Stored pin base vs u

/-- `u` is what the command leaves of `s` when its checks pass, before its answer. -/
inductive State.Effect (s : State) : Instr → State → Prop where
  | nop : s.Effect .nop s
  | rdreg (addr : BitVec 8) (pin : Pin) : s.Effect (.rdreg addr pin) s
  | clrerr : s.Effect .clrerr { s with errFlags := 0#16, lastErr := 0#16 }
  | buscfg {clk : Pin} (strat : Strategy) (freq : Word) (gate : s.gateBuscfg = none) (valid : s.pinValid clk = true) :
      s.Effect (.buscfg clk strat freq) (s.configure clk strat freq)
  | regline {pin : Pin} {len : Word} (can : s.CanRegister pin len.toNat) :
      s.Effect (.regline pin len) (s.registerLine pin len.toNat)
  | construct {proto : Proto} {pin : Pin} {o : Order} {count : BitVec 16}
      (can : s.CanRegister pin (proto.frameLen count.toNat)) (free : (s.strip pin).valid = false) :
      s.Effect (proto.constructor pin o.code count) (s.withStrip proto pin o count)
  | setbyte {pin : Pin} {pos : Word} {val : Byte} {u : State} (ready : s.Ready) (stored : s.Stored pin pos.toNat [val] u) :
      s.Effect (.setbyte pin pos val) u
  | setpix8 {pin : Pin} (idx : BitVec 16) (r g b : Byte) {u : State} (ready : s.Ready) (pixel : s.PixelEffect pin u) :
      s.Effect (.setpix8 pin idx r g b) u
  | setpix16 {pin : Pin} (idx r g b : BitVec 16) {u : State} (ready : s.Ready) (pixel : s.PixelEffect pin u) :
      s.Effect (.setpix16 pin idx r g b) u
  | setbrt {pin : Pin} (rs gs bs : Word) (ready : s.Ready) (valid : (s.strip pin).valid = true) :
      s.Effect (.setbrt pin rs gs bs) (s.setStrip pin ((s.strip pin).withScales s.params rs gs bs))
  | rmstrip {pin : Pin} (ready : s.Ready) (valid : (s.strip pin).valid = true) :
      s.Effect (.rmstrip pin) (s.setStrip pin { s.strip pin with valid := false })

/-- `t` is how a command other than `TRANSMIT` can leave `s`. -/
inductive State.Ends (s : State) (i : Instr) : State → Prop where
  | failed (e : Err) (listed : i.wf = true → e.code ∈ statusCodes i) : s.Ends i (s.failed i.opcode e.code)
  | fatally (row : gateRow i = .registers) (ready : s.Ready) (unlocked : s.phase ≠ .locked) (dma : s.strategy = .dma) :
      s.Ends i (({ s with fatal := true } : State).failed i.opcode 6#8)
  | ok {u : State} (v : Word) (effect : s.Effect i u) : s.Ends i (u.respond i.opcode v)

/-! Each command ends in one of these ways. -/

/-- A next state of the outcome, if there is one, is an end of the command. -/
def State.EndsBy (s : State) (i : Instr) (o : Host.Outcome State Fault Refusal) : Prop := ∀ t, o = .next t → s.Ends i t

theorem State.endsBy_fails (s : State) (i : Instr) {e : Err} (h : i.wf = true → e.code ∈ statusCodes i) :
    s.EndsBy i (fails s i.opcode e) := by
  rintro t ht
  rw [fails_eq] at ht
  cases ht
  exact .failed e h

theorem State.endsBy_respond {s u : State} {i : Instr} (v : Word) (h : s.Effect i u) :
    s.EndsBy i (.next (u.respond i.opcode v)) := by
  rintro t ht
  cases ht
  exact .ok v h

theorem State.endsBy_ite {s : State} {i : Instr} {c : Prop} [Decidable c] {a b : Host.Outcome State Fault Refusal}
    (ha : c → s.EndsBy i a) (hb : ¬c → s.EndsBy i b) : s.EndsBy i (if c then a else b) := by
  split
  · next h => exact ha h
  · next h => exact hb h

theorem gateError_cases {s : State} {row : GateRow} {e : Err} (h : s.gateError row = some e) :
    row ≠ .always ∧ (e = .fatal ∨ e = .state) ∨ row = .registers ∧ e = .locked := by
  have of_gate : s.gate = some e → e = .fatal ∨ e = .state := by
    intro hg
    rcases s.gate_cases with ⟨h1, -⟩ | ⟨h1, -⟩ | ⟨h1, -⟩
    · exact .inl (Option.some.inj (hg.symm.trans h1))
    · exact .inr (Option.some.inj (hg.symm.trans h1))
    · cases hg.symm.trans h1
  cases row with
  | always => cases h
  | usesBus => exact .inl ⟨nofun, of_gate h⟩
  | registers =>
    rcases Option.or_eq_some_iff.1 h with hg | ⟨-, hl⟩
    · exact .inl ⟨nofun, of_gate hg⟩
    · rw [State.lockGate] at hl
      split at hl
      · cases hl
        exact .inr ⟨rfl, rfl⟩
      · cases hl
  | creates =>
    have hb : (if s.fatal then some Err.fatal else if s.phase = .unconfigured then none else some .state) = some e := h
    split at hb
    · cases hb
      exact .inl ⟨nofun, .inl rfl⟩
    · split at hb
      · cases hb
      · cases hb
        exact .inl ⟨nofun, .inr rfl⟩

/-- The statuses of the gates are in the list of every command that asks them. -/
theorem gateError_listed {i : Instr} {s : State} {e : Err} (h : s.gateError (gateRow i) = some e) :
    e.code ∈ statusCodes i := by
  rcases gateError_cases h with ⟨hrow, rfl | rfl⟩ | ⟨hrow, rfl⟩ <;>
    cases i <;> simp_all [gateRow, statusCodes, Err.code]

/-- A failure whose status is in the command's list. -/
theorem State.endsBy_fails_listed {s : State} {i : Instr} {e : Err} (h : e.code ∈ statusCodes i) :
    s.EndsBy i (fails s i.opcode e) := s.endsBy_fails i fun _ => h

theorem execBuscfg_ends {s : State} (hg : s.gateBuscfg = none) (clk : Pin) (strat : Strategy) (freq : Word) :
    s.EndsBy (.buscfg clk strat freq) (execBuscfg clk strat freq s) := by
  rw [execBuscfg, hg]
  exact State.endsBy_ite (fun hv => State.endsBy_respond _ (.buscfg strat freq hg hv))
    fun _ => State.endsBy_fails_listed (i := .buscfg clk strat freq) (by simp [statusCodes, Err.code])

/-- The checks of a registration after the prologue and the lock, put together (40_bus_commands.md R132). -/
theorem State.canRegister_of_checks {s : State} {pin : Pin} {len : Nat} (hg : s.gate = none)
    (hl : s.lockPinError pin = none) (hc : ¬s.overCapacity len = true) (hi : ¬s.imageTooLarge len = true) :
    s.CanRegister pin len := by
  obtain ⟨hf, hp⟩ := (State.gate_none_iff s).1 hg
  obtain ⟨hlock, hv, hne⟩ := (State.lockPinError_none_iff s pin).1 hl
  rw [State.overCapacity_iff] at hc
  rw [State.imageTooLarge_iff] at hi
  refine ⟨hf, ?_, hv, hne, by omega, fun hd => Nat.le_of_not_lt fun hlt => hi ⟨hd, hlt⟩⟩
  cases hph : s.phase with
  | unconfigured => exact absurd hph hp
  | opened => rfl
  | locked => exact absurd hph hlock

theorem execRegline_ends {s : State} (hopen : s.gateError .registers = none) (pin : Pin) (len : Word) :
    s.EndsBy (.regline pin len) (execRegline pin len s) := by
  obtain ⟨hg, hl⟩ := State.open_of_registers hopen
  rw [execRegline, hg]
  rcases s.lockPinError_cases pin with ⟨-, hp⟩ | ⟨he, -⟩ | ⟨he, -⟩
  · exact absurd hp hl
  · rw [he]
    exact State.endsBy_fails_listed (i := .regline pin len) (by simp [statusCodes, Err.code])
  · rw [he]
    refine State.endsBy_ite (fun _ => State.endsBy_fails_listed (i := .regline pin len)
      (by simp [statusCodes, Err.code])) fun hc => State.endsBy_ite (fun hi t ht => ?_) fun hi => ?_
    · rw [failsFatally_eq] at ht
      cases ht
      exact .fatally rfl ((State.gate_none_iff s).1 hg) hl ((State.imageTooLarge_iff _ _).1 hi).1
    · exact State.endsBy_respond _ (.regline (State.canRegister_of_checks hg he hc hi))

theorem execSetbyte_ends {s : State} (hg : s.gate = none) (pin : Pin) (pos : Word) (val : Byte) :
    s.EndsBy (.setbyte pin pos val) (execSetbyte pin pos val s) := by
  rw [execSetbyte, hg]
  refine State.endsBy_ite (fun _ => State.endsBy_fails_listed (i := .setbyte pin pos val)
    (by simp [statusCodes, Err.code])) fun _ => State.endsBy_ite (fun _ =>
      State.endsBy_fails_listed (i := .setbyte pin pos val) (by simp [statusCodes, Err.code])) fun _ => ?_
  cases hb : s.busSetBytes pin [(pos.toNat, val)] with
  | error f => exact fun t ht => nomatch ht
  | ok u =>
    obtain ⟨hr, hw, hu⟩ := State.busSetBytes_ok hb
    exact State.endsBy_respond _ (.setbyte ((State.gate_none_iff s).1 hg) ⟨hr, hw, hu⟩)

theorem State.csr_of_registerDefined (s : State) {addr : BitVec 8} {pin : Pin} (h : registerDefined addr pin = true) :
    s.csr addr pin ≠ none := by
  rw [registerDefined_iff] at h
  rw [State.csr]
  revert h
  generalize addr.toNat = a
  rintro (⟨ha, rfl⟩ | ⟨h1, h2⟩)
  · rw [if_pos (by omega), if_pos rfl]
    interval_cases a <;> exact Option.some_ne_none _
  · rw [if_neg (by omega)]
    interval_cases a <;> exact Option.some_ne_none _

theorem execRdreg_ends (s : State) (addr : BitVec 8) (pin : Pin) :
    s.EndsBy (.rdreg addr pin) (execRdreg addr pin s) := by
  rw [execRdreg]
  cases hv : s.csr addr pin with
  | some v => exact State.endsBy_respond v (.rdreg addr pin)
  | none => exact s.endsBy_fails (.rdreg addr pin) fun hwf => absurd hv (s.csr_of_registerDefined hwf)

theorem execSetbrt_ends {s : State} (hg : s.gate = none) (pin : Pin) (rs gs bs : Word) :
    s.EndsBy (.setbrt pin rs gs bs) (execSetbrt pin rs gs bs s) := by
  rw [execSetbrt, hg]
  exact State.endsBy_ite (fun hv => State.endsBy_respond _ (.setbrt rs gs bs ((State.gate_none_iff s).1 hg) hv))
    fun _ => State.endsBy_fails_listed (i := .setbrt pin rs gs bs) (by simp [statusCodes, Err.code])

theorem execRmstrip_ends {s : State} (hg : s.gate = none) (pin : Pin) :
    s.EndsBy (.rmstrip pin) (execRmstrip pin s) := by
  rw [execRmstrip, hg]
  exact State.endsBy_ite (fun hv => State.endsBy_respond _ (.rmstrip ((State.gate_none_iff s).1 hg) hv))
    fun _ => State.endsBy_fails_listed (i := .rmstrip pin) (by simp [statusCodes, Err.code])

/-- A pixel write past the gate: it fails for want of a strip, or it has its effect. -/
theorem setPixel_ends {s : State} {i : Instr} (hg : s.gate = none) (pin : Pin) (idx : BitVec 16)
    (bytes : Strip → List Byte) (hl : Err.strip.code ∈ statusCodes i) (he : ∀ u, s.PixelEffect pin u → s.Effect i u) :
    s.EndsBy i (setPixel i.opcode pin idx bytes s) := by
  intro t ht
  rcases setPixel_cases ht with
    ⟨c, rfl, ⟨hf, -⟩ | ⟨hu, -⟩ | ⟨-, -, rfl⟩⟩ | ⟨-, -, -, rfl⟩ | ⟨-, -, -, hr, hw, rfl⟩
  · cases hg.symm.trans hf
  · cases hg.symm.trans hu
  · exact .failed .strip fun _ => hl
  · exact .ok _ (he s (.inl rfl))
  · exact .ok _ (he _ (.inr ⟨_, _, hr, hw, rfl⟩))

/-- A constructor past the gate and the lock. -/
theorem constructor_ends {s : State} (hopen : s.gateError .registers = none) (proto : Proto) (pin : Pin)
    (ord : BitVec 3) (count : BitVec 16) :
    s.EndsBy (proto.constructor pin ord count) (exec (proto.constructor pin ord count) s) := by
  obtain ⟨hg, hp⟩ := State.open_of_registers hopen
  have hlisted : ∀ e : Err, e.code = 3#8 ∨ e.code = 9#8 ∨ e.code = 6#8 →
      e.code ∈ statusCodes (proto.constructor pin ord count) := by
    rintro e (h | h | h) <;> rw [h] <;> cases proto <;> simp [Proto.constructor, statusCodes]
  have hrow : gateRow (proto.constructor pin ord count) = .registers := by cases proto <;> rfl
  rw [exec_constructor_eq_mkStrip]
  intro t ht
  rcases mkStrip_cases ht with
    ⟨c, rfl, ⟨hf, -⟩ | ⟨hu, -⟩ | ⟨-, hl, -⟩ | ⟨-, -, hc⟩⟩ | ⟨hr, hp, hd, rfl⟩ | ⟨o, rfl, hc, hv, rfl⟩
  · cases hg.symm.trans hf
  · cases hg.symm.trans hu
  · exact absurd hl hp
  · rcases hc with rfl | rfl | rfl
    · exact .failed .pin fun _ => hlisted .pin (.inl rfl)
    · exact .failed .strip fun _ => hlisted .strip (.inr (.inl rfl))
    · exact .failed .alloc fun _ => hlisted .alloc (.inr (.inr rfl))
  · exact .fatally hrow hr hp hd
  · exact .ok _ (.construct hc hv)

/-- Every end of every command but `TRANSMIT`. -/
theorem exec_ends {i : Instr} {s t : State} (hi : i ≠ .transmit) (h : exec i s = .next t) : s.Ends i t := by
  cases hg : s.gateError (gateRow i) with
  | some e =>
    rw [exec_gated hg] at h
    exact State.endsBy_fails_listed (gateError_listed hg) t h
  | none =>
    cases i with
    | nop => exact State.endsBy_respond _ .nop t h
    | clrerr => exact State.endsBy_respond _ .clrerr t h
    | rdreg addr pin => exact execRdreg_ends s addr pin t h
    | buscfg clk strat freq => exact execBuscfg_ends hg clk strat freq t h
    | regline pin len => exact execRegline_ends hg pin len t h
    | mkws2801 pin ord count => exact constructor_ends hg .ws2801 pin ord count t h
    | mklpd6803 pin ord count => exact constructor_ends hg .lpd6803 pin ord count t h
    | mklpd8806 pin ord count => exact constructor_ends hg .lpd8806 pin ord count t h
    | mkapa102 pin ord count => exact constructor_ends hg .apa102 pin ord count t h
    | mksk9822 pin ord count => exact constructor_ends hg .sk9822 pin ord count t h
    | setbyte pin pos val => exact execSetbyte_ends hg pin pos val t h
    | setpix8 pin idx r g b =>
      rw [exec_setpix8_eq_setPixel] at h
      exact setPixel_ends (i := .setpix8 pin idx r g b) hg pin idx _ (by simp [statusCodes, Err.code])
        (fun u => .setpix8 idx r g b ((State.gate_none_iff s).1 hg)) t h
    | setpix16 pin idx r g b =>
      rw [exec_setpix16_eq_setPixel] at h
      exact setPixel_ends (i := .setpix16 pin idx r g b) hg pin idx _ (by simp [statusCodes, Err.code])
        (fun u => .setpix16 idx r g b ((State.gate_none_iff s).1 hg)) t h
    | setbrt pin rs gs bs => exact execSetbrt_ends hg pin rs gs bs t h
    | rmstrip pin => exact execRmstrip_ends hg pin t h
    | transmit => exact absurd rfl hi

end Sys2Proof.Machine
end

section
/-! Status, response and error record of every command (60_exceptions.md R310 to R312), the phase, and the output port
of the commands that do not transmit (R326). -/

namespace Sys2Proof.Machine

/-! What an effect leaves unchanged. -/

theorem State.PixelEffect.frame {s u : State} {pin : Pin} (h : s.PixelEffect pin u) :
    u = { s with plane := u.plane } := by
  rcases h with rfl | ⟨base, vs, -, -, rfl⟩
  · rfl
  · rfl

theorem State.Stored.pixelEffect {s u : State} {pin : Pin} {base : Nat} {vs : List Byte} (h : s.Stored pin base vs u) :
    s.PixelEffect pin u := .inr ⟨base, vs, h⟩

/-- The fields an effect can change: the error record, the bus, the topology, the plane and the strips. -/
theorem State.Effect.frame {s u : State} {i : Instr} (h : s.Effect i u) :
    u = { s with
      errFlags := u.errFlags
      lastErr := u.lastErr
      clkPin := u.clkPin
      strategy := u.strategy
      freq := u.freq
      phase := u.phase
      outPins := u.outPins
      outenTrace := u.outenTrace
      dataMask := u.dataMask
      size := u.size
      plane := u.plane
      strips := u.strips } := by
  cases h with
  | nop | rdreg | clrerr | buscfg | setbrt | rmstrip => rfl
  | regline can => rw [State.registerLine_eq]
  | construct can free => rw [State.withStrip_eq]
  | setbyte ready stored => rw [stored.pixelEffect.frame]
  | setpix8 idx r g b ready pixel | setpix16 idx r g b ready pixel => rw [pixel.frame]

/-- Only `CLRERR` touches the error record by its effect. -/
theorem State.Effect.record {s u : State} {i : Instr} (h : s.Effect i u) (hi : i ≠ .clrerr) :
    u.errFlags = s.errFlags ∧ u.lastErr = s.lastErr := by
  cases h with
  | nop | rdreg | buscfg | setbrt | rmstrip => exact ⟨rfl, rfl⟩
  | clrerr => exact absurd rfl hi
  | regline can => rw [State.registerLine_eq]; exact ⟨rfl, rfl⟩
  | construct can free => rw [State.withStrip_eq]; exact ⟨rfl, rfl⟩
  | setbyte ready stored => rw [stored.pixelEffect.frame]; exact ⟨rfl, rfl⟩
  | setpix8 idx r g b ready pixel | setpix16 idx r g b ready pixel => rw [pixel.frame]; exact ⟨rfl, rfl⟩

/-- The bus and the topology. -/
def State.SameBus (s t : State) : Prop :=
  t.phase = s.phase ∧ t.dataMask = s.dataMask ∧ t.size = s.size ∧ t.clkPin = s.clkPin ∧ t.strategy = s.strategy ∧
    t.freq = s.freq

/-- Bus and topology change by `BUSCFG` before there is a bus, and by a registration in phase `OPEN` (10_state.md R22). -/
theorem State.Effect.bus {s u : State} {i : Instr} (h : s.Effect i u) :
    s.SameBus u ∨ (gateRow i = .creates ∧ s.phase = .unconfigured ∧ u.phase = .opened) ∨
      (s.phase = .opened ∧ u.phase = .opened) := by
  have same : s.SameBus s := ⟨rfl, rfl, rfl, rfl, rfl, rfl⟩
  cases h with
  | nop | rdreg | clrerr | setbrt | rmstrip => exact .inl same
  | buscfg strat freq gate valid =>
    refine .inr (.inl ⟨rfl, ?_, rfl⟩)
    rw [State.gateBuscfg] at gate
    by_cases hp : s.phase = .unconfigured
    · exact hp
    · cases hf : s.fatal <;> simp [hp, hf] at gate
  | regline can =>
    refine .inr (.inr ⟨can.opened, ?_⟩)
    rw [State.registerLine_eq]
    exact can.opened
  | construct can free =>
    refine .inr (.inr ⟨can.opened, ?_⟩)
    rw [State.withStrip_eq]
    exact can.opened
  | setbyte ready stored => rw [stored.pixelEffect.frame]; exact .inl same
  | setpix8 idx r g b ready pixel | setpix16 idx r g b ready pixel => rw [pixel.frame]; exact .inl same

/-! The response (30_encoding.md R108). -/

/-- A response as R108 and R310 want it of the command. -/
def State.Answered (t : State) (i : Instr) : Prop :=
  ∃ r, t.rsp = some r ∧ r.extractLsb' 8 8 = i.opcode ∧ r.extractLsb' 0 8 ∈ statusCodes i ∧
    (r.extractLsb' 16 16 ≠ 0#16 → r.extractLsb' 0 8 = 7#8)

theorem rspOf_subCause (code opc : BitVec 8) (sub : SubCause) (v : Word) :
    (rspOf code opc sub v).extractLsb' 16 16 = 0#8 ++ sub.code := by
  unfold rspOf
  generalize sub.code = c
  apply BitVec.eq_of_getLsbD_eq
  intro i hi
  simp only [BitVec.getLsbD_extractLsb', BitVec.getLsbD_append, hi]
  by_cases h : i < 8
  · simp [h, show ¬16 + i < 8 by omega, show ¬16 + i - 8 < 8 by omega, show 16 + i - 8 - 8 = i by omega]
  · simp [h, show ¬16 + i < 8 by omega, show ¬16 + i - 8 < 8 by omega, show ¬16 + i - 8 - 8 < 8 by omega,
      show 16 + i - 8 - 8 - 8 < 8 by omega]

theorem State.answered_of_rspOf {t : State} {i : Instr} {code : BitVec 8} {sub : SubCause} {v : Word}
    (h : t.rsp = some (rspOf code i.opcode sub v)) (hc : code ∈ statusCodes i) (hs : sub = .none ∨ code = 7#8) :
    t.Answered i := by
  obtain ⟨hcode, -, hopc⟩ := response_fields (v ++ 0#8 ++ sub.code) i.opcode code
  refine ⟨_, h, hopc, hcode.symm ▸ hc, fun hne => ?_⟩
  rcases hs with rfl | rfl
  · rw [rspOf_subCause] at hne
    exact absurd rfl hne
  · exact hcode

theorem okCode_listed (i : Instr) : okCode ∈ statusCodes i := by
  cases i <;> simp [statusCodes, okCode]

theorem State.Ends.answered {s t : State} {i : Instr} (h : s.Ends i t) (hwf : i.wf = true) : t.Answered i := by
  cases h with
  | failed e listed =>
    rw [← State.raise_eq_failed]
    exact State.answered_of_rspOf (s.raise_rsp i.opcode e .none) (listed hwf) (.inl rfl)
  | fatally row ready unlocked dma =>
    have hc : Err.alloc.code ∈ statusCodes i := by cases i <;> simp_all [gateRow, statusCodes, Err.code]
    rw [show (6#8 : BitVec 8) = Err.alloc.code from rfl, ← State.raise_eq_failed]
    exact State.answered_of_rspOf (State.raise_rsp _ i.opcode .alloc .none) hc (.inl rfl)
  | ok v effect => exact State.answered_of_rspOf (State.respond_rsp _ i.opcode v) (okCode_listed i) (.inl rfl)

/-! `TRANSMIT` and the error record: nothing before its end touches it. -/

/-- The error record and the response port. -/
def State.SameRecord (s t : State) : Prop := t.errFlags = s.errFlags ∧ t.lastErr = s.lastErr

theorem State.SameRecord.trans {s t u : State} (h : s.SameRecord t) (k : t.SameRecord u) : s.SameRecord u :=
  ⟨k.1.trans h.1, k.2.trans h.2⟩

theorem State.shift_record (s : State) (r n : Nat) : s.SameRecord (s.shift r n) := by
  induction n generalizing s r with
  | zero => exact ⟨rfl, rfl⟩
  | succ n ih =>
    have hwrite : s.SameRecord ((s.logicalWrite r).atWrite (r + 1)) := ⟨State.atWrite_errFlags _ _, State.atWrite_lastErr _ _⟩
    exact hwrite.trans (ih _ _)

theorem State.Sequenced.record {s t : State} (h : s.Sequenced t) : s.SameRecord t := by
  rw [h]
  exact ⟨rfl, rfl⟩

theorem State.runTransmit_record (s : State) : s.SameRecord s.runTransmit := by
  rw [State.runTransmit]
  cases s.strategy with
  | direct => exact s.shift_record _ _
  | dma =>
    cases s.dmacs.active with
    | true => exact s.sequencerRound_sequenced.record
    | false => exact ⟨rfl, rfl⟩

theorem State.memWrites_record {s t : State} {ws : List (Nat × Word)} (h : s.memWrites ws = .ok t) :
    s.SameRecord t := by
  rw [(State.memWrites_ok h).2]
  exact ⟨rfl, rfl⟩

theorem State.startDma_record {s t : State} (h : s.startDma = .ok t) : s.SameRecord t := by
  have hchain : ∀ u, (if s.chainBuilt then Except.ok s else s.buildChain) = .ok u → s.SameRecord u := by
    intro u hu
    split at hu
    · cases hu
      exact ⟨rfl, rfl⟩
    · exact (State.memWrites_record hu :)
  rw [State.startDma] at h
  split at h
  · cases h
  · next u hu =>
    split at h
    · cases h
    · next v hv =>
      cases h
      have hcopy : u.SameRecord v := State.memWrites_record hv
      exact (hchain u hu).trans hcopy

theorem State.beginTransmit_record {s t : State} (h : s.beginTransmit = .ok t) : s.SameRecord t := by
  rw [State.beginTransmit] at h
  split at h
  · cases h
    rw [State.startDirect]
    split
    · exact ⟨State.atWrite_errFlags _ _, State.atWrite_lastErr _ _⟩
    · rw [State.calibrate_eq]
      exact ⟨State.atWrite_errFlags _ _, State.atWrite_lastErr _ _⟩
  · exact (State.startDma_record h :)

/-- How a `TRANSMIT` that has ended did so: from a state with the error record of the start. -/
theorem execTransmit_ended {s t : State} (hg : s.gate = none) (h : execTransmit s = .next t) (hb : t.busy = false) :
    ∃ u, s.SameRecord u ∧ (t = u.endOk ∨ t = u.endDmaError) := by
  rw [execTransmit, hg] at h
  cases hv : s.beginTransmit with
  | error f => rw [hv] at h; cases h
  | ok v =>
    rw [hv] at h
    cases h
    have hrec : s.SameRecord v.runTransmit := (State.beginTransmit_record hv).trans v.runTransmit_record
    have hbusy : v.runTransmit.busy = true := v.runTransmit_busy.trans (State.beginTransmit_busy hv)
    rw [State.resume] at hb ⊢
    generalize v.runTransmit = w at *
    rw [State.finishTransmit] at hb ⊢
    split
    · exact ⟨w, hrec, .inl rfl⟩
    · split
      · next hd ha => simp [hd, ha, hbusy] at hb
      · split
        · exact ⟨w.dmaReset, hrec, .inr rfl⟩
        · exact ⟨w.dmaReset, hrec, .inl rfl⟩

/-! The statements. -/

/-- Settles O16: by the ends of a command, and for `TRANSMIT` by its two. -/
theorem commandEndsWithItsStatus : Obligations.CommandEndsWithItsStatus := by
  intro i s t hwf h hb
  change t.Answered i
  by_cases hi : i = .transmit
  · subst hi
    cases hg : s.gateError .usesBus with
    | some e =>
      rw [exec_gated (i := .transmit) hg] at h
      cases h
      exact State.answered_of_rspOf (s.raise_rsp Opc.transmit e .none) (gateError_listed (i := .transmit) hg)
        (.inl rfl)
    | none =>
      obtain ⟨u, -, rfl | rfl⟩ := execTransmit_ended hg h (hb rfl)
      · exact State.answered_of_rspOf (i := .transmit) u.endOk_rsp (okCode_listed .transmit) (.inl rfl)
      · exact State.answered_of_rspOf (i := .transmit) u.endDmaError_rsp (by decide) (.inr rfl)
  · exact (exec_ends hi h).answered hwf

/-- Settles O17: of the ends of a command the effect answers `OK`. -/
theorem failureLeavesOnlyItsRecord : Obligations.FailureLeavesOnlyItsRecord := by
  intro i s t c hi h hc hne
  cases exec_ends hi h with
  | failed e listed =>
    rw [State.status_failed] at hc
    cases hc
    exact .inl rfl
  | fatally row ready unlocked dma =>
    rw [State.status_failed] at hc
    cases hc
    exact .inr ⟨rfl, row, dma, rfl⟩
  | ok v effect =>
    rw [State.status_respond] at hc
    cases hc
    exact absurd rfl hne

theorem Err.code_ne_zero (e : Err) : e.code ≠ 0#8 := by
  cases e <;> decide

/-- Settles O19: a failure has a nonzero status, and no effect but that of `CLRERR` touches the record. -/
theorem okLeavesErrorRecord : Obligations.OkLeavesErrorRecord := by
  intro i s t hclr h hb hok
  by_cases hi : i = .transmit
  · subst hi
    cases hg : s.gateError .usesBus with
    | some e =>
      rw [exec_gated (i := .transmit) hg, fails_eq] at h
      cases h
      rw [State.status_failed, Option.some_inj] at hok
      exact absurd hok e.code_ne_zero
    | none =>
      obtain ⟨u, hrec, rfl | rfl⟩ := execTransmit_ended hg h (hb rfl)
      · exact hrec
      · rw [State.endDmaError, State.status_raise, Option.some_inj] at hok
        exact absurd hok Err.dma.code_ne_zero
  · cases exec_ends hi h with
    | failed e listed =>
      rw [State.status_failed, Option.some_inj] at hok
      exact absurd hok e.code_ne_zero
    | fatally row ready unlocked dma =>
      rw [State.status_failed, Option.some_inj] at hok
      exact absurd hok Err.alloc.code_ne_zero
    | ok v effect => exact effect.record hclr

/-- What a `TRANSMIT` past the gate leaves, whatever its outcome (R160). -/
theorem exec_transmit_kept {s t : State} (hs : s.Ready) (h : exec .transmit s = .next t) :
    t.phase = .locked ∧ t.plane = s.plane ∧ t.size = s.size ∧ t.dataMask = s.dataMask ∧ t.strips = s.strips ∧
      t.clkPin = s.clkPin ∧ t.strategy = s.strategy ∧ t.freq = s.freq ∧ t.fatal = s.fatal ∧ t.params = s.params ∧
      t.outPins = s.outPins ∧ t.outenTrace = s.outenTrace ∧ t.hostIn = s.hostIn := by
  rw [execTransmit_transmitted ((State.gate_none_iff s).2 hs) h]
  exact ⟨State.occupy_locked hs.2, rfl, rfl, rfl, rfl, rfl, rfl, rfl, rfl, rfl, rfl, rfl, rfl⟩

/-- Settles O49. -/
theorem transmitLocksAndKeepsBuffer : Obligations.TransmitLocksAndKeepsBuffer :=
  fun _ _ hs h => exec_transmit_kept hs h

/-- Settles O18: by the ends of a command, and for `TRANSMIT` by what it keeps. -/
theorem phaseOnlyAdvances : Obligations.PhaseOnlyAdvances := by
  intro i s t h
  have kept : s.SameBus t → (t.phase = s.phase ∨ (gateRow i = .creates ∧ s.phase = .unconfigured ∧ t.phase = .opened) ∨
        (i = .transmit ∧ s.phase = .opened ∧ t.phase = .locked)) ∧
      (s.phase = .locked → t.phase = .locked ∧ t.dataMask = s.dataMask ∧ t.size = s.size ∧ t.clkPin = s.clkPin ∧
        t.strategy = s.strategy ∧ t.freq = s.freq) := by
    rintro ⟨hp, hbus⟩
    exact ⟨.inl hp, fun hl => ⟨hp.trans hl, hbus⟩⟩
  have same : ∀ opc c, s.SameBus (s.failed opc c) := fun _ _ => ⟨rfl, rfl, rfl, rfl, rfl, rfl⟩
  by_cases hi : i = .transmit
  · subst hi
    cases hg : s.gateError .usesBus with
    | some e =>
      rw [exec_gated (i := .transmit) hg, fails_eq] at h
      cases h
      exact kept (same _ _)
    | none =>
      have hs := (State.gate_none_iff s).1 hg
      obtain ⟨hlock, -, hsize, hmask, -, hclk, hstrat, hfreq, -⟩ := exec_transmit_kept hs h
      refine ⟨?_, fun _ => ⟨hlock, hmask, hsize, hclk, hstrat, hfreq⟩⟩
      cases hp : s.phase with
      | unconfigured => exact absurd hp hs.2
      | opened => exact .inr (.inr ⟨rfl, rfl, hlock⟩)
      | locked => exact .inl hlock
  · cases exec_ends hi h with
    | failed e listed => exact kept (same _ _)
    | fatally row ready unlocked dma => exact kept ⟨rfl, rfl, rfl, rfl, rfl, rfl⟩
    | ok v effect =>
      rcases effect.bus with hbus | ⟨hrow, hp, hq⟩ | ⟨hp, hq⟩
      · exact kept hbus
      · exact ⟨.inr (.inl ⟨hrow, hp, hq⟩), fun hl => nomatch hp.symm.trans hl⟩
      · exact ⟨.inl (hq.trans hp.symm), fun hl => nomatch hp.symm.trans hl⟩

/-- No command but `TRANSMIT` issues an operation or changes a line (R326; log 21 for a line that becomes an output). -/
theorem State.Ends.output {s t : State} {i : Instr} (h : s.Ends i t) : t.lines = s.lines ∧ t.physTrace = s.physTrace := by
  cases h with
  | failed e listed => exact ⟨rfl, rfl⟩
  | fatally row ready unlocked dma => exact ⟨rfl, rfl⟩
  | ok v effect =>
    rw [State.respond_lines, State.respond_physTrace, effect.frame]
    exact ⟨rfl, rfl⟩

end Sys2Proof.Machine
end

section
/-! The command port and reset (30_encoding.md R92, 20_memory.md R72, 70_reset_and_hazards.md R350 to R352, R374). -/

namespace Sys2Proof.Machine

theorem step_idle {s : State} (hb : s.busy = false) (hh : s.hostIn = []) : step s = .next s := by
  rw [step, hostStep, hb, hh]

theorem step_reset {s : State} {rest : List HostEvent} (hh : s.hostIn = .reset :: rest) :
    step s = .next (s.accept rest).resetPin := by
  rw [step, hostStep, hh]
  cases s.busy <;> rfl

theorem step_busy {s : State} (hb : s.busy = true) (hh : ∀ rest, s.hostIn ≠ .reset :: rest) :
    step s = .next s.resume := by
  rw [step, hostStep, hb]
  cases hs : s.hostIn with
  | nil => rfl
  | cons e rest =>
    cases e with
    | reset => exact absurd hs (hh rest)
    | command w => rfl
    | commandReset w n => rfl

theorem step_commandReset {s t : State} {w : Command} {n : Nat} {rest : List HostEvent} (hb : s.busy = false)
    (hh : s.hostIn = .commandReset w n :: rest) (ht : runCommand w (s.accept rest) = .next t) :
    step s = .next ((s.accept rest).abandon t n) := by
  rw [step, hostStep, hb, hh]
  simp only [ht]

theorem runCommand_of_decoded {w : Command} {i : Instr} (hd : decode w = .ok i) (s : State) :
    runCommand w s = exec i s := by
  rw [runCommand, hd]

/-- Settles O5. -/
theorem stepRunsDecodedCommand : Obligations.StepRunsDecodedCommand := by
  intro s w i hd
  refine ⟨fun rest hb hw => ?_, ?_⟩
  · rw [step_command hb hw, runCommand_of_decoded hd]
    rfl
  · have hw : BitVec.ofNat 128 (w.toNat % 2 ^ 128) = w := by
      rw [Nat.mod_eq_of_lt w.isLt, BitVec.ofNat_toNat, BitVec.setWidth_eq]
    rw [State.withFetchWord, State.present, hw]
    exact (step_command rfl rfl).trans (runCommand_of_decoded hd _)

/-- Settles O7: a busy machine goes on with its `TRANSMIT`, which leaves the host's events in place. -/
theorem busyPortTakesNoCommand : Obligations.BusyPortTakesNoCommand := by
  intro s hb hh
  refine ⟨s.resume, step_busy hb hh, ?_⟩
  rw [s.resume_transmitted]

/-- Settles O8. -/
theorem idleMachineHoldsState : Obligations.IdleMachineHoldsState := fun _ => step_idle

/-! Reset. -/

/-- What the reset pin leaves is at the reset values but for the fields that are not the engine's (R350, R351). -/
theorem State.atReset_of_reset (P : Params) (l outs : Word) (host : List HostEvent) (times : List TimeRead)
    (faults : List Bool) (draws : Nat) :
    ({ State.reset with
      params := P
      lines := l
      outPins := outs
      hostIn := host
      timeIn := times
      dmaFaultIn := faults
      drawNo := draws } : State).AtReset where
  phase := rfl
  flags := ⟨rfl, rfl, rfl, rfl⟩
  bus := ⟨rfl, rfl, rfl⟩
  buffer := ⟨rfl, rfl⟩
  calibration := ⟨rfl, rfl⟩
  record := ⟨rfl, rfl, rfl⟩
  strips p := by simp [State.strip, State.reset, Strip.blank]
  channel := ⟨rfl, rfl⟩
  chain := ⟨rfl, rfl⟩
  trace := rfl
  port := rfl

/-- Settles O9. -/
theorem resetValues : Obligations.ResetValues := State.atReset_of_reset _ _ _ _ _ _ _

/-- Settles O10. -/
theorem resetPinResetsEngine : Obligations.ResetPinResetsEngine := fun _ _ hh =>
  ⟨_, step_reset hh, State.atReset_of_reset _ _ _ _ _ _ _, rfl, rfl, rfl, rfl⟩

theorem exec_hostIn {i : Instr} {s t : State} (h : exec i s = .next t) : t.hostIn = s.hostIn := by
  by_cases hi : i = .transmit
  · subst hi
    cases hg : s.gateError .usesBus with
    | some e =>
      rw [exec_gated (i := .transmit) hg, fails_eq] at h
      cases h
      rfl
    | none =>
      rw [execTransmit_transmitted hg h]
      rfl
  · cases exec_ends hi h with
    | failed e listed => rfl
    | fatally row ready unlocked dma => rfl
    | ok v effect => rw [State.respond_hostIn, effect.frame]

/-- Settles O11: the abandoned command's state is reset, but for the lines, which `State.abandon` computes. -/
theorem resetAbandonsCommand : Obligations.ResetAbandonsCommand := by
  intro s t w i n rest hb hh hd ht
  have ht : exec i (s.accept rest) = .next t := ht
  refine ⟨_, step_commandReset hb hh ((runCommand_of_decoded hd _).trans ht), State.atReset_of_reset _ _ _ _ _ _ _,
    exec_hostIn ht, rfl, rfl⟩

end Sys2Proof.Machine
end

section
/-! The invariant (`Inv`): what each part of an effect keeps of it. -/

namespace Sys2Proof.Machine

/-! Reset. -/

theorem exampleParams_legal : exampleParams.Legal where
  validPins_two := by decide
  maxBytes_pos := by decide
  maxBytes_le := by decide
  minWrites_pos := by decide
  calN_pos := by decide
  calDefaultRepeat_ge := by decide
  maxSpan_ge := by decide
  dmaBase_aligned := by decide
  dmaBase_pos := by decide
  dmaMemBytes_aligned := by decide
  dmaMemBytes_ge := by decide
  dmaMem_fits := by decide
  gpioSetAddr_aligned := by decide
  gpioSetAddr_outside := by decide

/-- A machine at the reset values on a legal platform meets the invariant. -/
theorem inv_of_reset {P : Params} (hP : P.Legal) (l outs : Word) (host : List HostEvent) (times : List TimeRead)
    (faults : List Bool) (draws : Nat) :
    Inv { State.reset with
      params := P
      lines := l
      outPins := outs
      hostIn := host
      timeIn := times
      dmaFaultIn := faults
      drawNo := draws } where
  params := hP
  idle := rfl
  channel_idle := rfl
  conblk_idle := rfl
  clock_not_data := BitVec.zero_and
  lines_valid := BitVec.zero_and
  clock_valid := fun h => absurd rfl h
  no_bus := fun _ => ⟨rfl, rfl, rfl⟩
  fatal_open := nofun
  size_le := Nat.zero_le _
  image_fits := nofun
  plane_wf := rfl
  plane_bounded := nofun
  lanes := fun _ => BitVec.zero_and
  strips p hp := nomatch ((State.atReset_of_reset P l outs host times faults draws).strips p).symm.trans hp
  err_reserved := BitVec.zero_and
  calibrated := nofun
  uncalibrated := fun _ => ⟨rfl, rfl⟩
  dma_uncalibrated := nofun
  locked_once_sent := fun h => h.elim nofun nofun
  no_chain := fun _ => ⟨rfl, rfl⟩
  chain := nofun
  dmem_wf := rfl
  dmem_bounded := nofun

/-- Settles O12. -/
theorem resetMeetsInvariant : Obligations.ResetMeetsInvariant := inv_of_reset exampleParams_legal _ _ _ _ _ _

variable {s : State}

/-! Fields that the invariant does not read, and its fields one group at a time. -/

theorem State.ChainIntact.of_eq {t : State} (h : s.ChainIntact) (hn : t.ncb = s.ncb) (hr : t.rowBase = s.rowBase)
    (hp : t.params = s.params) (hs : t.size = s.size) (hd : t.dmem = s.dmem) : t.ChainIntact where
  ncb := by rw [hn, hp, hs, h.ncb]
  rowBase := by rw [hr, hp, hs, h.rowBase]
  words := by
    intro w hw
    rw [State.chainWords_congr hp hs] at hw
    rw [State.memRead, hd]
    exact h.words w hw

theorem State.StripOk.of_eq {t : State} {p : Pin} (h : s.StripOk p) (hm : t.dataMask = s.dataMask)
    (hc : t.clkPin = s.clkPin) (hs : t.size = s.size) (hp : t.strips = s.strips) : t.StripOk p where
  registered := by rw [State.registered, hm]; exact h.registered
  not_clock := hc ▸ h.not_clock
  frame_fits := by rw [hs, State.strip, hp]; exact h.frame_fits
  level_pos := by rw [State.strip, hp]; exact h.level_pos

theorem Inv.of_frame {t : State} (h : Inv s)
    (ht : t = { s with
      lastErr := t.lastErr
      txCount := t.txCount
      tick := t.tick
      ph := t.ph
      srcp := t.srcp
      dstp := t.dstp
      rowCnt := t.rowCnt
      rowNo := t.rowNo
      subCause := t.subCause
      rsp := t.rsp
      lines := t.lines
      physTrace := t.physTrace
      outPins := t.outPins
      outenTrace := t.outenTrace
      hostIn := t.hostIn
      timeIn := t.timeIn
      dmaFaultIn := t.dmaFaultIn
      drawNo := t.drawNo }) : Inv t := by
  rw [ht]
  exact { h with
    strips := fun p hp => (h.strips p hp).of_eq rfl rfl rfl rfl
    chain := fun hc => ⟨(h.chain hc).1, (h.chain hc).2.of_eq rfl rfl rfl rfl rfl⟩ }

/-- A bit of either word under a mask, word by word. -/
theorem or_and_right_distrib {n : Nat} (a b m : BitVec n) : (a ||| b) &&& m = a &&& m ||| b &&& m := by
  apply BitVec.eq_of_getLsbD_eq
  intro i _
  simp only [BitVec.getLsbD_and, BitVec.getLsbD_or]
  exact Bool.and_or_distrib_right _ _ _

theorem Inv.withErrFlags (h : Inv s) {f : BitVec 16} (hf : f &&& 0xFC01#16 = 0#16) : Inv { s with errFlags := f } :=
  { h with
    strips := fun p hp => (h.strips p hp).of_eq rfl rfl rfl rfl
    chain := fun hc => ⟨(h.chain hc).1, (h.chain hc).2.of_eq rfl rfl rfl rfl rfl⟩
    err_reserved := hf }

/-- No error has one of the reserved bits (10_state.md R30). -/
theorem Inv.raised_reserved (h : Inv s) (e : Err) : (s.errFlags ||| e.flag) &&& 0xFC01#16 = 0#16 := by
  have he : e.flag &&& 0xFC01#16 = 0#16 := by cases e <;> rfl
  rw [or_and_right_distrib, h.err_reserved, he]
  rfl

theorem Inv.failed (h : Inv s) (opc : BitVec 8) (e : Err) : Inv (s.failed opc e.code) :=
  (h.withErrFlags (h.raised_reserved e)).of_frame rfl

theorem State.opened_of_ready (hr : s.Ready) (hl : s.phase ≠ .locked) : s.phase = .opened := by
  cases hp : s.phase with
  | unconfigured => exact absurd hp hr.2
  | opened => rfl
  | locked => exact absurd hp hl

theorem Inv.withFatal (h : Inv s) (hr : s.Ready) (hl : s.phase ≠ .locked) (hd : s.strategy = .dma) :
    Inv { s with fatal := true } :=
  { h with
    strips := fun p hp => (h.strips p hp).of_eq rfl rfl rfl rfl
    chain := fun hc => ⟨(h.chain hc).1, (h.chain hc).2.of_eq rfl rfl rfl rfl rfl⟩
    fatal_open := fun _ => by
      exact ⟨State.opened_of_ready (s := s) hr hl, hd⟩ }

/-! The creation of the bus. -/

theorem needBytes_zero {P : Params} (hP : P.Legal) : needBytes P 0 = 40 := by
  have hpos := rowsPerBlock_pos hP
  have hone : ceilDiv 1 (rowsPerBlock P) = 1 := by
    rw [ceilDiv, Nat.add_sub_cancel_left, Nat.div_self hpos]
  rw [needBytes, ncbNeeded, nRows, hone]

/-- A bus that has sent nothing is not calibrated and has no chain. -/
theorem Inv.nothing_sent (h : Inv s) (hl : s.phase ≠ .locked) : s.calDone = false ∧ s.chainBuilt = false := by
  refine ⟨?_, ?_⟩
  · cases hc : s.calDone with
    | false => rfl
    | true => exact absurd (h.locked_once_sent (.inl hc)) hl
  · cases hc : s.chainBuilt with
    | false => rfl
    | true => exact absurd (h.locked_once_sent (.inr hc)) hl

theorem Inv.configure (h : Inv s) {clk : Pin} (strat : Strategy) (freq : Word) (hg : s.gateBuscfg = none)
    (hv : s.pinValid clk = true) : Inv (s.configure clk strat freq) := by
  obtain ⟨hf, hp⟩ : s.fatal = false ∧ s.phase = .unconfigured := by
    rw [State.gateBuscfg] at hg
    cases hf : s.fatal <;> cases hp : s.phase <;> simp [hf, hp] at hg ⊢
  obtain ⟨hmask, hsize, -⟩ := h.no_bus hp
  obtain ⟨hcal, hchain⟩ := h.nothing_sent (by rw [hp]; nofun)
  exact { h with
    clock_not_data := by
      change s.dataMask &&& _ = _
      rw [hmask, BitVec.zero_and]
    clock_valid := fun _ => hv
    no_bus := nofun
    fatal_open := fun hc => nomatch hf.symm.trans hc
    image_fits := fun _ => by
      change needBytes s.params s.size.toNat ≤ s.params.dmaMemBytes
      rw [hsize]
      exact (needBytes_zero h.params).trans_le (Nat.le_trans (by decide) h.params.dmaMemBytes_ge)
    strips := fun p hp => by
      have hreg := (h.strips p hp).registered
      rw [State.registered, hmask, BitVec.getLsbD_zero] at hreg
      cases hreg
    dma_uncalibrated := fun _ => hcal
    locked_once_sent := fun hc => by
      rcases hc with hc | hc
      · cases hcal.symm.trans hc
      · cases hchain.symm.trans hc
    chain := fun hc => nomatch hchain.symm.trans hc }

/-! The registration of a line. -/

theorem pinBit_and_eq_zero_of_getLsbD {p : Pin} {m : Word} (h : m.getLsbD p.toNat = false) : pinBit p &&& m = 0#32 := by
  apply BitVec.eq_of_getLsbD_eq
  intro i _
  rw [BitVec.getLsbD_and, getLsbD_pinBit, BitVec.getLsbD_zero]
  by_cases hi : i = p.toNat
  · rw [hi, h, Bool.and_false]
  · simp [hi]

theorem State.CanRegister.len_lt {pin : Pin} {len : Nat} (can : s.CanRegister pin len) (hP : s.params.Legal) :
    len < 2 ^ 32 := by
  have := hP.maxBytes_le
  have := can.capacity
  omega

/-- A new data line, and a buffer that has grown by zeros or has stayed. -/
theorem Inv.grown (h : Inv s) {pin : Pin} {len : Nat} (can : s.CanRegister pin len) {size : Word}
    {plane : List (Nat × Word)} (hsize : size.toNat = max s.size.toNat len) (hwf : Memory.wf plane = true)
    (hbound : ∀ e ∈ plane, e.1 < 8 * size.toNat)
    (hread : ∀ t, Memory.read plane t = s.planeAt t ∨ Memory.read plane t = 0#32) :
    Inv { s with dataMask := s.dataMask ||| pinBit pin, size := size, plane := plane } := by
  obtain ⟨hcal, hchain⟩ := h.nothing_sent (by rw [can.opened]; nofun)
  have hclk : pinBit pin &&& s.clkBit = 0#32 := by
    refine pinBit_and_eq_zero_of_getLsbD ?_
    rw [State.getLsbD_clkBit, decide_eq_false_iff_not]
    exact fun e => can.not_clock (BitVec.eq_of_toNat_eq e)
  have hvalid : pinBit pin &&& ~~~s.params.validPins = 0#32 := by
    refine pinBit_and_eq_zero_of_getLsbD ?_
    rw [BitVec.getLsbD_not, show s.params.validPins.getLsbD pin.toNat = true from can.pin_valid, Bool.not_true,
      Bool.and_false]
  have hlane : ∀ t, Memory.read plane t &&& ~~~(s.dataMask ||| pinBit pin) = 0#32 := by
    intro t
    rcases hread t with ht | ht
    · have hold := h.lanes t
      rw [ht]
      apply BitVec.eq_of_getLsbD_eq
      intro i hi
      have hbit := congrArg (BitVec.getLsbD · i) hold
      simp only [BitVec.getLsbD_and, BitVec.getLsbD_not, BitVec.getLsbD_or, BitVec.getLsbD_zero, hi] at hbit ⊢
      cases hp : (s.planeAt t).getLsbD i <;> cases hm : s.dataMask.getLsbD i <;> simp_all
    · rw [ht, BitVec.zero_and]
  exact { h with
    clock_not_data := by
      change (s.dataMask ||| pinBit pin) &&& s.clkBit = 0#32
      rw [or_and_right_distrib, h.clock_not_data, hclk]
      rfl
    lines_valid := by
      change (s.dataMask ||| pinBit pin) &&& ~~~s.params.validPins = 0#32
      rw [or_and_right_distrib, h.lines_valid, hvalid]
      rfl
    no_bus := fun hp => nomatch can.opened.symm.trans hp
    size_le := by
      change size.toNat ≤ s.params.maxBytes
      rw [hsize]
      exact Nat.max_le.2 ⟨h.size_le, can.capacity⟩
    image_fits := by
      change _ → needBytes s.params size.toNat ≤ _
      rw [hsize]
      exact can.fits
    plane_wf := hwf
    plane_bounded := hbound
    lanes := hlane
    strips := fun p hp =>
      { registered := by
          have hreg := (h.strips p hp).registered
          rw [State.registered] at hreg ⊢
          rw [BitVec.getLsbD_or, hreg, Bool.true_or]
        not_clock := (h.strips p hp).not_clock
        frame_fits := (h.strips p hp).frame_fits.trans (hsize ▸ Nat.le_max_left _ _)
        level_pos := (h.strips p hp).level_pos }
    chain := fun hc => nomatch hchain.symm.trans hc }

theorem Inv.registerLine (h : Inv s) {pin : Pin} {len : Nat} (can : s.CanRegister pin len) :
    Inv (s.registerLine pin len) := by
  have hsize := s.registerLine_size pin (can.len_lt h.params)
  rw [State.registerLine_eq] at hsize ⊢
  by_cases hl : len > s.size.toNat
  · simp only [if_pos hl] at hsize ⊢
    refine (h.grown can hsize (Memory.wf_below _ h.plane_wf) (fun e he => ?_) fun t => ?_).of_frame rfl
    · have := (Memory.listed_below he).2
      omega
    · rw [Memory.read_below]
      split
      · exact .inl rfl
      · exact .inr rfl
  · simp only [if_neg hl] at hsize ⊢
    exact (h.grown can hsize h.plane_wf h.plane_bounded fun t => .inl rfl).of_frame rfl

/-! Bytes and strips. -/

theorem Inv.withBytes (h : Inv s) {pin : Pin} {base : Nat} {vs : List Byte} (hr : s.registered pin = true)
    (hw : ∀ w ∈ placed base vs, w.1 < s.size.toNat) : Inv (s.withBytes pin base vs) :=
  { h with
    plane_wf := wf_busSetAll _ _ _ h.plane_wf
    plane_bounded := listed_busSetAll h.plane_bounded hw
    lanes := fun t => by
      change Memory.read (busSetAll pin s.plane (placed base vs)) t &&& ~~~s.dataMask = 0#32
      have hold := h.lanes t
      apply BitVec.eq_of_getLsbD_eq
      intro i hi
      rw [BitVec.getLsbD_and, BitVec.getLsbD_not]
      by_cases hp : i = pin.toNat
      · rw [hp, show s.dataMask.getLsbD pin.toNat = true from hr]
        simp
      · rw [getLsbD_busSetAll_lane _ _ _ _ _ hp, ← BitVec.getLsbD_not, ← BitVec.getLsbD_and]
        exact congrArg (BitVec.getLsbD · i) hold
    strips := fun p hp => (h.strips p hp).of_eq rfl rfl rfl rfl
    chain := fun hc => ⟨(h.chain hc).1, (h.chain hc).2.of_eq rfl rfl rfl rfl rfl⟩ }

theorem Inv.setStrip (h : Inv s) {pin : Pin} {S : Strip}
    (hS : S.valid = true → s.registered pin = true ∧ pin ≠ s.clkPin ∧ S.frameLen ≤ s.size.toNat ∧
      (S.proto = .apa102 ∨ S.proto = .sk9822 → 1 ≤ S.level0.toNat)) : Inv (s.setStrip pin S) :=
  { h with
    strips := fun p hp => by
      by_cases hpin : p = pin
      · subst hpin
        have hstrip : (s.setStrip p S).strip p = S := by rw [State.strip_setStrip, if_pos rfl]
        rw [hstrip] at hp
        obtain ⟨hreg, hclk, hfit, hlevel⟩ := hS hp
        exact ⟨hreg, hclk, hstrip.symm ▸ hfit, hstrip.symm ▸ hlevel⟩
      · have hstrip : (s.setStrip pin S).strip p = s.strip p := by rw [State.strip_setStrip, if_neg hpin]
        rw [hstrip] at hp
        obtain ⟨hreg, hclk, hfit, hlevel⟩ := h.strips p hp
        exact ⟨hreg, hclk, hstrip.symm ▸ hfit, hstrip.symm ▸ hlevel⟩
    chain := fun hc => ⟨(h.chain hc).1, (h.chain hc).2.of_eq rfl rfl rfl rfl rfl⟩ }

theorem State.registered_createStrip (s : State) (proto : Proto) (pin : Pin) (o : Order) (count : BitVec 16) :
    (s.createStrip proto pin o count).registered pin = true := by
  have hreg := s.registered_registerLine pin pin (proto.frameLen count.toNat)
  rw [decide_eq_true rfl, Bool.or_true] at hreg
  exact hreg

/-- The frame a constructor lays lies in the buffer it has grown (43_strip_factory.md R233). -/
theorem State.CanRegister.frame_inside {proto : Proto} {pin : Pin} {o : Order} {count : BitVec 16}
    (can : s.CanRegister pin (proto.frameLen count.toNat)) (hP : s.params.Legal) :
    ∀ w ∈ placed 0 (proto.blackFrame count.toNat), w.1 < (s.createStrip proto pin o count).size.toNat := by
  intro w hw
  have hsize : (s.createStrip proto pin o count).size.toNat = max s.size.toNat (proto.frameLen count.toNat) :=
    s.registerLine_size pin (can.len_lt hP)
  have hlt := (mem_placed hw).2
  rw [Proto.blackFrame_length] at hlt
  omega

theorem Inv.withStrip (h : Inv s) {proto : Proto} {pin : Pin} {o : Order} {count : BitVec 16}
    (can : s.CanRegister pin (proto.frameLen count.toNat)) : Inv (s.withStrip proto pin o count) := by
  have hsize := s.registerLine_size pin (can.len_lt h.params)
  have hreg := s.registered_createStrip proto pin o count
  have hclk : (s.registerLine pin (proto.frameLen count.toNat)).clkPin = s.clkPin := by rw [State.registerLine_eq]
  have hcreated : Inv (s.createStrip proto pin o count) := by
    refine (h.registerLine can).setStrip fun _ => ⟨hreg, ?_, ?_, fun _ => show 1 ≤ (31#5).toNat by decide⟩
    · rw [hclk]
      exact can.not_clock
    · rw [hsize]
      exact Nat.le_max_right _ _
  exact hcreated.withBytes hreg (can.frame_inside h.params)

theorem Inv.clearedRecord (h : Inv s) : Inv { s with errFlags := 0#16, lastErr := 0#16 } :=
  (h.withErrFlags BitVec.zero_and).of_frame rfl

/-! Every command but `TRANSMIT`. -/

theorem Inv.pixelEffect (h : Inv s) {pin : Pin} {u : State} (hp : s.PixelEffect pin u) : Inv u := by
  rcases hp with rfl | ⟨base, vs, hr, hw, rfl⟩
  · exact h
  · exact h.withBytes hr hw

theorem Inv.effect (h : Inv s) {i : Instr} {u : State} (he : s.Effect i u) : Inv u := by
  cases he with
  | nop | rdreg => exact h
  | clrerr => exact h.clearedRecord
  | buscfg strat freq gate valid => exact h.configure strat freq gate valid
  | regline can => exact h.registerLine can
  | construct can free => exact h.withStrip can
  | setbyte ready stored => exact h.pixelEffect stored.pixelEffect
  | setpix8 idx r g b ready pixel | setpix16 idx r g b ready pixel => exact h.pixelEffect pixel
  | @setbrt pin rs gs bs ready valid =>
    have hok := h.strips pin valid
    exact h.setStrip fun _ => ⟨hok.registered, hok.not_clock, hok.frame_fits, fun _ => (level0Of_range rs gs bs).1⟩
  | rmstrip ready valid => exact h.setStrip nofun

theorem Inv.ends (h : Inv s) {i : Instr} {t : State} (he : s.Ends i t) : Inv t := by
  cases he with
  | failed e listed => exact h.failed _ e
  | fatally row ready unlocked dma => exact (h.withFatal ready unlocked dma).failed _ .alloc
  | ok v effect => exact (h.effect effect).of_frame rfl

end Sys2Proof.Machine
end

section
/-! `TRANSMIT` as the statements see it (41_transmit_direct.md R160 to R170, 42_transmit_dma.md R190 to R213): what each
strategy leaves, and that it keeps the invariant. -/

namespace Sys2Proof.Machine

variable {s : State}

/-! The direct strategy. -/

/-- The state in which a direct `TRANSMIT` sends its frame: locked, and calibrated if it was not (R161). -/
def State.directReady (s : State) : State := if s.calDone then s.occupy else s.occupy.calibrate

theorem exec_transmit_direct (hs : s.Ready) (hd : s.strategy = .direct) :
    exec .transmit s =
      .next ((s.directReady.issue s.directReady.directOps).atWrite (nRows s.size.toNat)).endOk :=
  execTransmit_direct ((State.gate_none_iff s).2 hs) hd

theorem State.directReady_of_calDone (h : s.calDone = true) : s.directReady = s.occupy := if_pos h

theorem State.directReady_of_not_calDone (h : s.calDone = false) : s.directReady = s.occupy.calibrate :=
  if_neg (by rw [h]; decide)

theorem State.directOps_congr {t : State} (hp : t.plane = s.plane) (hd : t.dataMask = s.dataMask)
    (hs : t.size = s.size) (hc : t.clkPin = s.clkPin) (hr : t.calRep = s.calRep) : t.directOps = s.directOps := by
  rw [State.directOps, State.directOps, State.rowOps_congr hp hd hs hc, hs, hr]

theorem State.atWrite_frame (s : State) (r : Nat) : ∃ tick ph, s.atWrite r = { s with tick := tick, ph := ph } := by
  rw [State.atWrite]
  split <;> exact ⟨_, _, rfl⟩

theorem State.occupy_eq (hs : s.Ready) : s.occupy = { s with busy := true, phase := .locked } := by
  have hp := State.occupy_locked hs.2
  calc s.occupy = { s with busy := true, phase := s.occupy.phase } := rfl
    _ = _ := by rw [hp]

/-- Calibrated, the command is the lock, the frame and the end. -/
theorem exec_transmit_calibrated (hs : s.Ready) (hd : s.strategy = .direct) (hc : s.calDone = true) :
    ∃ tick ph, exec .transmit s = .next { s with
      rsp := some (okRsp 0x04#8 0#32)
      phase := .locked
      busy := false
      txCount := s.txCount + 1#32
      physTrace := s.physTrace ++ s.directOps
      lines := linesAfter s.lines s.directOps
      tick := tick
      ph := ph } := by
  have hops : s.occupy.directOps = s.directOps := State.directOps_congr rfl rfl rfl rfl rfl
  have ht := exec_transmit_direct hs hd
  rw [State.directReady_of_calDone hc, hops, State.occupy_eq hs] at ht
  obtain ⟨tick, ph, hw⟩ := State.atWrite_frame (State.issue { s with busy := true, phase := .locked } s.directOps)
    (nRows s.size.toNat)
  refine ⟨tick, ph, ht.trans ?_⟩
  rw [hw, ← rspOf_ok]
  rfl

/-- The first `TRANSMIT`: three draws, the empty clears, the counts solved, and the frame at the rate found. -/
theorem exec_transmit_first (hs : s.Ready) (hd : s.strategy = .direct) (hc : s.calDone = false) {c : Word × Word}
    (hsolve : c = solveTiming s.params s.freq (s.timeSample 0) (s.timeSample 1) (s.timeSample 2)) :
    ∃ tick ph, exec .transmit s = .next { s with
      calRep := c.1
      calBusy := c.2
      calDone := true
      rsp := some (okRsp 0x04#8 0#32)
      phase := .locked
      busy := false
      txCount := s.txCount + 1#32
      physTrace := s.physTrace ++ List.replicate s.params.calN (.clr 0#32) ++
        ({ s with calRep := c.1 } : State).directOps
      lines := linesAfter s.lines ({ s with calRep := c.1 } : State).directOps
      timeIn := s.timeIn.drop 3
      drawNo := s.drawNo + 3
      tick := tick
      ph := ph } := by
  have hready : s.directReady = s.occupy.calibrate := State.directReady_of_not_calDone hc
  rw [State.calibrate_eq, State.occupy_eq hs] at hready
  have hops : s.directReady.directOps = ({ s with calRep := c.1 } : State).directOps := by
    rw [hready, hsolve]
    exact State.directOps_congr rfl rfl rfl rfl rfl
  have hlines : linesAfter s.lines ({ s with calRep := c.1 } : State).directOps =
      linesAfter (linesAfter s.lines (List.replicate s.params.calN (.clr 0#32)))
        ({ s with calRep := c.1 } : State).directOps := by rw [linesAfter_empty_clears]
  obtain ⟨tick, ph, hw⟩ := State.atWrite_frame (s.directReady.issue s.directReady.directOps) (nRows s.size.toNat)
  refine ⟨tick, ph, (exec_transmit_direct hs hd).trans ?_⟩
  rw [hw, hops, hready, hlines, ← rspOf_ok, hsolve]
  rfl

/-- Settles O47. -/
theorem directTransmitSendsFrame : Obligations.DirectTransmitSendsFrame := by
  intro s hs hd hc
  obtain ⟨tick, ph, ht⟩ := exec_transmit_calibrated hs hd hc
  exact ⟨_, ht, rfl, rfl, rfl, rfl, rfl, rfl, rfl⟩

/-! The calibration arithmetic (R168, R169). -/

theorem sat32_toNat (v : Nat) : (sat32 v).toNat = min v (2 ^ 32 - 1) := by
  rw [sat32, BitVec.toNat_ofNat, Nat.mod_eq_of_lt (by omega)]

/-- The three readings give no timing: one is not ok, or time does not advance (R169). -/
def badReadings (r0 r1 r2 : TimeRead) : Prop :=
  r0.ok = false ∨ r1.ok = false ∨ r2.ok = false ∨ r1.ns.toNat ≤ r0.ns.toNat ∨ r2.ns.toNat ≤ r1.ns.toNat

theorem solveTiming_of_bad {r0 r1 r2 : TimeRead} (h : badReadings r0 r1 r2) (P : Params) (freq : Word) :
    solveTiming P freq r0 r1 r2 = defaultTiming P := by
  rw [solveTiming, if_pos]
  rcases h with h | h | h | h | h <;> simp [h]

theorem solveTiming_of_good {r0 r1 r2 : TimeRead} (h : ¬badReadings r0 r1 r2) (P : Params) (freq : Word) :
    solveTiming P freq r0 r1 r2 =
      if freq = 0#32 then (sat32 P.minWrites, 0#32)
      else
        (sat32 (calRepeats P freq (r1.ns.toNat - r0.ns.toNat)),
          sat32 (calLeft P freq (r1.ns.toNat - r0.ns.toNat) / (r2.ns.toNat - r1.ns.toNat))) := by
  rw [solveTiming, if_neg]
  intro hc
  apply h
  simp only [Bool.or_eq_true, Bool.not_eq_true', Bool.and_eq_false_iff, decide_eq_true_eq] at hc
  unfold badReadings
  tauto

/-- The solution of the calibration, as numbers: the defaults, the floor, or the counts of R168. -/
theorem solveTiming_toNat (P : Params) (freq : Word) (r0 r1 r2 : TimeRead) (hrep : P.calDefaultRepeat < 2 ^ 32)
    (hbusy : P.calDefaultBusy < 2 ^ 32) :
    let tw := r1.ns.toNat - r0.ns.toNat
    let budget := 1000000000 / (2 * freq.toNat) * P.calN
    let rep := max P.minWrites (budget / (2 * tw))
    if r0.ok = false ∨ r1.ok = false ∨ r2.ok = false ∨ r1.ns.toNat ≤ r0.ns.toNat ∨ r2.ns.toNat ≤ r1.ns.toNat then
      (solveTiming P freq r0 r1 r2).1.toNat = P.calDefaultRepeat ∧
        (solveTiming P freq r0 r1 r2).2.toNat = P.calDefaultBusy
    else if freq = 0#32 then
      (solveTiming P freq r0 r1 r2).1.toNat = min P.minWrites (2 ^ 32 - 1) ∧
        (solveTiming P freq r0 r1 r2).2.toNat = 0
    else
      (solveTiming P freq r0 r1 r2).1.toNat = min rep (2 ^ 32 - 1) ∧
        (solveTiming P freq r0 r1 r2).2.toNat =
          min ((budget - min budget (2 * rep * tw)) / (r2.ns.toNat - r1.ns.toNat)) (2 ^ 32 - 1) := by
  intro tw budget rep
  split
  · next hbad =>
    rw [solveTiming_of_bad hbad]
    exact ⟨Nat.mod_eq_of_lt hrep, Nat.mod_eq_of_lt hbusy⟩
  · next hgood =>
    rw [solveTiming_of_good hgood]
    split
    · exact ⟨sat32_toNat _, rfl⟩
    · exact ⟨sat32_toNat _, sat32_toNat _⟩

/-- Settles O48. -/
theorem firstDirectTransmitCalibrates : Obligations.FirstDirectTransmitCalibrates := by
  intro s hs hd hc hrep hbusy r0 r1 r2 tw budget rep
  obtain ⟨tick, ph, ht⟩ := exec_transmit_first hs hd hc rfl
  exact ⟨_, ht, solveTiming_toNat s.params s.freq r0 r1 r2 hrep hbusy, rfl, rfl, rfl, rfl, rfl, rfl, rfl, rfl, rfl, rfl⟩

/-! The DMA strategy. -/

/-- What a DMA `TRANSMIT` needs: a bus under DMA whose image fits and whose chain, if built, is intact. -/
structure State.DmaBus (s : State) : Prop where
  ready : s.Ready
  dma : s.strategy = .dma
  laid : s.Laid
  chain : s.chainBuilt = true → s.ChainIntact

/-- The state in which the sequencer starts, after the lock (42_transmit_dma.md R190). -/
abbrev State.sequencerStart (s : State) : State := s.occupy.dmaReady

theorem State.DmaBus.occupied (h : s.DmaBus) : s.occupy.Laid ∧ (s.occupy.chainBuilt = true → s.occupy.ChainIntact) :=
  ⟨⟨h.laid.legal, h.laid.fits⟩, fun hc => (h.chain hc).of_eq rfl rfl rfl rfl rfl⟩

theorem State.DmaBus.started (h : s.DmaBus) : s.sequencerStart.Started :=
  State.dmaReady_started h.occupied.1 h.occupied.2

/-- The start changes `DMEM`, the chain's registers and the channel's, and locks the bus. -/
theorem State.DmaBus.start_frame (h : s.DmaBus) :
    ∃ ncb rowBase dmem, s.sequencerStart =
      { s with
        busy := true
        phase := .locked
        ncb := ncb
        rowBase := rowBase
        chainBuilt := true
        dmem := dmem
        dmacs := { active := true, ended := false, error := false }
        subCause := .none
        rowNo := 0#32
        conblk := s.params.dmaBase } := by
  refine ⟨s.sequencerStart.ncb, s.sequencerStart.rowBase, s.sequencerStart.dmem, s.occupy.dmaReady_eq.trans ?_⟩
  rw [← State.occupy_locked h.ready.2]
  rfl

theorem State.DmaBus.faultSample_start (h : s.DmaBus) : s.sequencerStart.faultSample = s.faultSample := by
  obtain ⟨ncb, rowBase, dmem, hu⟩ := h.start_frame
  rw [hu]
  rfl

theorem State.DmaBus.size_start (h : s.DmaBus) : s.sequencerStart.size = s.size := by
  obtain ⟨ncb, rowBase, dmem, hu⟩ := h.start_frame
  rw [hu]

theorem State.DmaBus.strategy_start (h : s.DmaBus) : s.sequencerStart.strategy = .dma := by
  obtain ⟨ncb, rowBase, dmem, hu⟩ := h.start_frame
  rw [hu]
  exact h.dma

theorem State.DmaBus.frameOps_start (h : s.DmaBus) : s.sequencerStart.frameOps = s.frameOps := by
  obtain ⟨ncb, rowBase, dmem, hu⟩ := h.start_frame
  rw [hu]
  exact State.frameOps_congr rfl rfl rfl rfl

/-- The bytes the start writes (R193, R196). -/
theorem State.DmaBus.dmem_start (h : s.DmaBus) :
    ∃ ws, s.sequencerStart.dmem = writeWords s.dmem ws ∧
      ∀ w ∈ ws, s.params.dmaBase.toNat ≤ w.1 ∧ w.1 + 4 ≤ s.params.dmaBase.toNat + needBytes s.params s.size.toNat := by
  obtain ⟨ws, hdmem, hws⟩ := s.occupy.dmaReady_dmem
  exact ⟨ws, hdmem, fun w hw => State.dmaReady_words_lie h.occupied.1 h.occupied.2 (hws w hw)⟩

theorem State.DmaBus.dmem_start_other (h : s.DmaBus) {a : Nat}
    (ha : a < s.params.dmaBase.toNat ∨ s.params.dmaBase.toNat + needBytes s.params s.size.toNat ≤ a) :
    Memory.read s.sequencerStart.dmem a = Memory.read s.dmem a := by
  obtain ⟨ws, hdmem, hws⟩ := h.dmem_start
  rw [hdmem]
  refine read_writeWords_other _ _ _ fun w hw => ?_
  have := hws w hw
  omega

theorem State.ImageIntact.of_eq {t : State} (h : s.ImageIntact) (hr : t.rowBase = s.rowBase) (hm : t.dmem = s.dmem)
    (hp : t.plane = s.plane) (hd : t.dataMask = s.dataMask) (hs : t.size = s.size) (hc : t.clkPin = s.clkPin) :
    t.ImageIntact where
  set r hlt := by
    rw [State.memRead, hr, hm, (State.masks_congr hp hd hs hc r).1]
    exact h.set r (hs ▸ hlt)
  clr r hlt := by
    rw [State.memRead, hr, hm, (State.masks_congr hp hd hs hc r).2]
    exact h.clr r (hs ▸ hlt)

theorem exec_transmit_dma (h : s.DmaBus) :
    exec .transmit s = .next s.sequencerStart.sequencerRound.finishTransmit :=
  execTransmit_dma ((State.gate_none_iff s).2 h.ready) h.dma h.laid h.chain

/-- With no fault sampled the sequencer comes to the end of the chain (R213). -/
theorem exec_transmit_dma_ok (h : s.DmaBus) (hf : ∀ r, r < nRows s.size.toNat → s.faultSample r = false) :
    ∃ src dst cnt, exec .transmit s = .next (s.sequencerStart.completed src dst cnt).dmaReset.endOk := by
  rw [← h.size_start, ← h.faultSample_start] at hf
  obtain ⟨src, dst, cnt, hround⟩ := h.started.sequencerRound_ok hf
  refine ⟨src, dst, cnt, ?_⟩
  rw [exec_transmit_dma h, hround, State.finishTransmit_completed h.strategy_start h.started]

/-- A fault first sampled before row `k` stops the sequencer there (R208). -/
theorem exec_transmit_dma_fault (h : s.DmaBus) {k : Nat} (hk : k < nRows s.size.toNat) (hs : s.faultSample k = true)
    (hf : ∀ r, r < k → s.faultSample r = false) :
    ∃ con src dst cnt, exec .transmit s = .next (s.sequencerStart.faulted con src dst cnt k).dmaReset.endDmaError := by
  rw [← h.size_start] at hk
  rw [← h.faultSample_start] at hs hf
  obtain ⟨con, src, dst, cnt, hround⟩ := h.started.sequencerRound_fault hk hs hf
  refine ⟨con, src, dst, cnt, ?_⟩
  rw [exec_transmit_dma h, hround, State.finishTransmit_faulted h.strategy_start]

/-- Settles O56. -/
theorem dmaTransmitReplaysFrame : Obligations.DmaTransmitReplaysFrame := by
  intro s hs hd hP hfit hc hf
  have h : s.DmaBus := ⟨hs, hd, ⟨hP, hfit⟩, hc⟩
  obtain ⟨src, dst, cnt, hexec⟩ := exec_transmit_dma_ok h hf
  refine ⟨_, hexec, ?_⟩
  have hchain := h.started.chain
  have himage := h.started.image
  have hother := fun a ha => h.dmem_start_other (a := a) ha
  have hops := congrFun h.frameOps_start (nRows s.size.toNat)
  obtain ⟨ncb, rowBase, dmem, hu⟩ := h.start_frame
  rw [hu] at hchain himage hother hops ⊢
  rw [State.completed, State.replayed, hops]
  exact ⟨(State.endOk_rsp _).trans (congrArg some (rspOf_ok _ _)), rfl, rfl, rfl, rfl, rfl, rfl, rfl, rfl,
    hchain.of_eq rfl rfl rfl rfl rfl, himage.of_eq rfl rfl rfl rfl rfl rfl, hother, rfl, rfl, rfl⟩

theorem lastErrOf_extFault : lastErrOf .dma .extFault = 0x0607#16 := by decide

/-- Settles O57. -/
theorem dmaFaultStopsFrame : Obligations.DmaFaultStopsFrame := by
  intro s k hs hd hP hfit hc hk hfault hf
  have h : s.DmaBus := ⟨hs, hd, ⟨hP, hfit⟩, hc⟩
  obtain ⟨con, src, dst, cnt, hexec⟩ := exec_transmit_dma_fault h hk hfault hf
  refine ⟨_, hexec, ?_⟩
  have hchain := h.started.chain
  have himage := h.started.image
  have hother := fun a ha => h.dmem_start_other (a := a) ha
  have hops := congrFun h.frameOps_start k
  obtain ⟨ncb, rowBase, dmem, hu⟩ := h.start_frame
  rw [hu] at hchain himage hother hops ⊢
  rw [State.faulted, hops]
  exact ⟨rfl, rfl, lastErrOf_extFault, rfl, rfl, rfl, rfl, rfl, rfl, rfl,
    hchain.of_eq rfl rfl rfl rfl rfl, himage.of_eq rfl rfl rfl rfl rfl rfl, hother, rfl, rfl, rfl⟩

end Sys2Proof.Machine
end

section
/-! Every step keeps the invariant, and takes place (70_reset_and_hazards.md section 3). -/

namespace Sys2Proof.Machine

variable {s : State}

/-! `TRANSMIT`, part by part. -/

/-- The lock, once the command has ended. -/
theorem Inv.locked (h : Inv s) (hs : s.Ready) : Inv { s with busy := false, phase := .locked } :=
  { h with
    idle := rfl
    clock_valid := fun _ => h.clock_valid hs.2
    no_bus := nofun
    fatal_open := fun hf => nomatch hs.1.symm.trans hf
    locked_once_sent := fun _ => rfl
    strips := fun p hp => (h.strips p hp).of_eq rfl rfl rfl rfl
    chain := fun hc => ⟨(h.chain hc).1, (h.chain hc).2.of_eq rfl rfl rfl rfl rfl⟩ }

/-- The floor of the repeat count (10_state.md R29). -/
theorem minWrites_le_solveTiming {P : Params} (hP : P.Legal) (hd : P.calDefaultRepeat < 2 ^ 32) (freq : Word)
    (r0 r1 r2 : TimeRead) : P.minWrites ≤ (solveTiming P freq r0 r1 r2).1.toNat := by
  have hmin := hP.calDefaultRepeat_ge
  by_cases hbad : badReadings r0 r1 r2
  · rw [solveTiming_of_bad hbad, defaultTiming, BitVec.toNat_ofNat, Nat.mod_eq_of_lt hd]
    exact hmin
  · rw [solveTiming_of_good hbad]
    split
    · rw [sat32_toNat]
      omega
    · rw [sat32_toNat, calRepeats]
      omega

theorem Inv.calibrated_by (h : Inv s) (hl : s.phase = .locked) (hd : s.strategy = .direct) {rep busy : Word}
    (hr : s.params.calDefaultRepeat < 2 ^ 32 → s.params.minWrites ≤ rep.toNat) :
    Inv { s with calRep := rep, calBusy := busy, calDone := true } :=
  { h with
    calibrated := fun _ => hr
    uncalibrated := nofun
    dma_uncalibrated := fun hdma => nomatch hd.symm.trans hdma
    locked_once_sent := fun _ => hl
    strips := fun p hp => (h.strips p hp).of_eq rfl rfl rfl rfl
    chain := fun hc => ⟨(h.chain hc).1, (h.chain hc).2.of_eq rfl rfl rfl rfl rfl⟩ }

theorem Inv.chained (h : Inv s) (hl : s.phase = .locked) (hd : s.strategy = .dma) {ncb rowBase : Word}
    {dmem : List Host.Cell} (hc : ({ s with ncb := ncb, rowBase := rowBase, dmem := dmem } : State).ChainIntact)
    (hwf : Memory.wf dmem = true)
    (hb : ∀ e ∈ dmem, s.params.dmaBase.toNat ≤ e.1 ∧ e.1 < s.params.dmaBase.toNat + s.params.dmaMemBytes) :
    Inv { s with
      ncb := ncb
      rowBase := rowBase
      chainBuilt := true
      dmem := dmem
      dmacs := { active := false, ended := false, error := false }
      conblk := 0#32 } :=
  { h with
    channel_idle := rfl
    conblk_idle := rfl
    locked_once_sent := fun _ => hl
    no_chain := nofun
    chain := fun _ => ⟨hd, hc.of_eq rfl rfl rfl rfl rfl⟩
    strips := fun p hp => (h.strips p hp).of_eq rfl rfl rfl rfl
    dmem_wf := hwf
    dmem_bounded := hb }

theorem Inv.transmit_direct (h : Inv s) (hs : s.Ready) (hd : s.strategy = .direct) :
    ∃ t, exec .transmit s = .next t ∧ Inv t := by
  cases hc : s.calDone with
  | true =>
    obtain ⟨tick, ph, ht⟩ := exec_transmit_calibrated hs hd hc
    exact ⟨_, ht, (h.locked hs).of_frame rfl⟩
  | false =>
    obtain ⟨c, hsolve⟩ : ∃ c, c = solveTiming s.params s.freq (s.timeSample 0) (s.timeSample 1) (s.timeSample 2) := ⟨_, rfl⟩
    obtain ⟨tick, ph, ht⟩ := exec_transmit_first hs hd hc hsolve
    have hfloor : s.params.calDefaultRepeat < 2 ^ 32 → s.params.minWrites ≤ c.1.toNat := fun hrep =>
      hsolve ▸ minWrites_le_solveTiming h.params hrep s.freq _ _ _
    exact ⟨_, ht, ((h.locked hs).calibrated_by (busy := c.2) rfl hd hfloor).of_frame rfl⟩

theorem Inv.dmaBus (h : Inv s) (hs : s.Ready) (hd : s.strategy = .dma) : s.DmaBus :=
  ⟨hs, hd, ⟨h.params, h.image_fits hd⟩, fun hc => (h.chain hc).2⟩

/-- The state a DMA `TRANSMIT` leaves but for the error record, of the fields the invariant reads. -/
theorem Inv.sequenced (h : Inv s) (hs : s.Ready) (hd : s.strategy = .dma) :
    Inv { s.sequencerStart with
      busy := false
      dmacs := { active := false, ended := false, error := false }
      conblk := 0#32 } := by
  have hbus := h.dmaBus hs hd
  have hchain := hbus.started.chain
  obtain ⟨ws, hdmem, hws⟩ := hbus.dmem_start
  have hwf : Memory.wf s.sequencerStart.dmem = true := hdmem ▸ wf_writeWords ws h.dmem_wf
  have hbound : ∀ e ∈ s.sequencerStart.dmem,
      s.params.dmaBase.toNat ≤ e.1 ∧ e.1 < s.params.dmaBase.toNat + s.params.dmaMemBytes := by
    intro e he
    rw [hdmem] at he
    rcases listed_writeWords he with ⟨w, hw, hlo, hhi⟩ | he
    · have := hws w hw
      have := h.image_fits hd
      omega
    · exact h.dmem_bounded e he
  obtain ⟨ncb, rowBase, dmem, hu⟩ := hbus.start_frame
  rw [hu] at hchain hwf hbound ⊢
  exact ((h.locked hs).chained rfl hd (hchain.of_eq rfl rfl rfl rfl rfl) hwf hbound).of_frame rfl

section
variable (h : Inv { s with busy := false, dmacs := { active := false, ended := false, error := false }, conblk := 0#32 })
include h

/-- The end of a replay, on a state the sequencer was started in (42_transmit_dma.md R198, R199). -/
theorem Inv.completed (src dst : Word) (cnt : BitVec 16) : Inv (s.completed src dst cnt).dmaReset.endOk :=
  h.of_frame rfl

theorem Inv.faulted (con src dst : Word) (cnt : BitVec 16) (k : Nat) :
    Inv (s.faulted con src dst cnt k).dmaReset.endDmaError :=
  (h.withErrFlags (h.raised_reserved .dma)).of_frame rfl

end

theorem Inv.transmit_dma (h : Inv s) (hs : s.Ready) (hd : s.strategy = .dma) :
    ∃ t, exec .transmit s = .next t ∧ Inv t := by
  have hbus := h.dmaBus hs hd
  rcases firstFault s (nRows s.size.toNat) with hf | ⟨k, hk, hfault, hf⟩
  · obtain ⟨src, dst, cnt, hexec⟩ := exec_transmit_dma_ok hbus hf
    exact ⟨_, hexec, (h.sequenced hs hd).completed src dst cnt⟩
  · obtain ⟨con, src, dst, cnt, hexec⟩ := exec_transmit_dma_fault hbus hk hfault hf
    exact ⟨_, hexec, (h.sequenced hs hd).faulted con src dst cnt k⟩

theorem Inv.transmit (h : Inv s) : ∃ t, exec .transmit s = .next t ∧ Inv t := by
  cases hg : s.gateError .usesBus with
  | some e => exact ⟨_, (exec_gated (i := .transmit) hg).trans (fails_eq s _ e), h.failed _ e⟩
  | none =>
    have hs := (State.gate_none_iff s).1 hg
    cases hd : s.strategy with
    | direct => exact h.transmit_direct hs hd
    | dma => exact h.transmit_dma hs hd

/-! Every command. -/

theorem Inv.exec (h : Inv s) {i : Instr} {t : State} (ht : exec i s = .next t) : Inv t := by
  by_cases hi : i = .transmit
  · subst hi
    obtain ⟨u, hu, hinv⟩ := h.transmit
    cases ht.symm.trans hu
    exact hinv
  · exact h.ends (exec_ends hi ht)

theorem Inv.runCommand (h : Inv s) {w : Command} {t : State} (ht : runCommand w s = .next t) : Inv t := by
  cases hd : decode w with
  | ok i =>
    rw [runCommand_of_decoded hd] at ht
    exact h.exec ht
  | error e =>
    rw [runCommand_of_not_decoded hd] at ht
    cases ht
    exact h.failed _ .illegal

theorem Inv.accept (h : Inv s) (rest : List HostEvent) : Inv (s.accept rest) := h.of_frame rfl

/-! A command that meets the invariant has an outcome. -/

/-- The command takes place: a next state, no fault and no refusal. -/
def Proceeds (o : Host.Outcome State Fault Refusal) : Prop := ∃ t, o = .next t

theorem proceeds_next (t : State) : Proceeds (.next t) := ⟨t, rfl⟩

theorem proceeds_ite {c : Prop} [Decidable c] {a b : Host.Outcome State Fault Refusal} (ha : c → Proceeds a)
    (hb : ¬c → Proceeds b) : Proceeds (if c then a else b) := by
  split
  · next h => exact ha h
  · next h => exact hb h

theorem execSetbyte_proceeds (hg : s.gate = none) (pin : Pin) (pos : Word) (val : Byte) :
    Proceeds (execSetbyte pin pos val s) := by
  rw [execSetbyte, hg]
  refine proceeds_ite (fun _ => proceeds_next _) fun hr => proceeds_ite (fun _ => proceeds_next _) fun hp => ?_
  rw [State.busSetBytes_eq s pin _ (by simpa using hr) (by simpa using hp)]
  exact proceeds_next _

/-- The frame of a strip lies in the buffer (10_state.md R37), so its pixels do. -/
theorem Inv.setPixel_proceeds (h : Inv s) (hg : s.gate = none) (opc : BitVec 8) (pin : Pin) (idx : BitVec 16)
    (bytes : Strip → List Byte) (hb : ∀ S, (bytes S).length = S.proto.pixW) :
    Proceeds (setPixel opc pin idx bytes s) := by
  by_cases hv : (s.strip pin).valid = true
  · by_cases hi : idx.toNat < (s.strip pin).count.toNat
    · have hok := h.strips pin hv
      exact ⟨_, setPixel_eq ⟨(State.gate_none_iff s).1 hg, hv, hi, hok.registered, hok.frame_fits⟩ opc bytes hb⟩
    · exact ⟨_, setPixel_past_end ((State.gate_none_iff s).1 hg) hv (Nat.le_of_not_lt hi) opc bytes⟩
  · rw [setPixel, hg]
    simp only [hv]
    exact proceeds_next _

theorem Inv.mkStrip_proceeds (h : Inv s) (hg : s.gate = none) (opc : BitVec 8) (proto : Proto) (pin : Pin)
    (ord : BitVec 3) (count : BitVec 16) : Proceeds (mkStrip opc proto pin ord count s) := by
  rw [mkStrip, hg]
  cases hl : s.lockPinError pin with
  | some e => exact proceeds_next _
  | none =>
    cases Order.ofCode ord with
    | none => exact proceeds_next _
    | some o =>
      refine proceeds_ite (fun _ => proceeds_next _) fun _ => proceeds_ite (fun _ => proceeds_next _) fun hc =>
        proceeds_ite (fun _ => proceeds_next _) fun hi => ?_
      have can := State.canRegister_of_checks hg hl hc hi
      have hin := can.frame_inside (o := o) h.params
      rw [State.busSetBytes_eq _ pin _ (s.registered_createStrip proto pin o count) (by simpa using hin)]
      exact proceeds_next _

theorem execRegline_proceeds (hg : s.gate = none) (pin : Pin) (len : Word) : Proceeds (execRegline pin len s) := by
  rw [execRegline, hg]
  cases s.lockPinError pin with
  | some e => exact proceeds_next _
  | none => exact proceeds_ite (fun _ => proceeds_next _) fun _ =>
      proceeds_ite (fun _ => proceeds_next _) fun _ => proceeds_next _

theorem Inv.exec_proceeds (h : Inv s) (i : Instr) : Proceeds (Machine.exec i s) := by
  cases hg : s.gateError (gateRow i) with
  | some e => exact ⟨_, exec_gated hg⟩
  | none =>
    cases i with
    | nop | clrerr => exact proceeds_next _
    | rdreg addr pin =>
      change Proceeds (execRdreg addr pin s)
      rw [execRdreg]
      cases s.csr addr pin <;> exact proceeds_next _
    | buscfg clk strat freq =>
      change Proceeds (execBuscfg clk strat freq s)
      rw [execBuscfg, show s.gateBuscfg = none from hg]
      exact proceeds_ite (fun _ => proceeds_next _) fun _ => proceeds_next _
    | regline pin len => exact execRegline_proceeds (State.open_of_registers hg).1 pin len
    | mkws2801 pin ord count | mklpd6803 pin ord count | mklpd8806 pin ord count | mkapa102 pin ord count
    | mksk9822 pin ord count => exact h.mkStrip_proceeds (State.open_of_registers hg).1 _ _ pin ord count
    | setbyte pin pos val => exact execSetbyte_proceeds hg pin pos val
    | setpix8 pin idx r g b => exact h.setPixel_proceeds hg _ pin idx _ fun S => pixelBytes8_length S _
    | setpix16 pin idx r g b => exact h.setPixel_proceeds hg _ pin idx _ fun S => pixelBytes16_length s.params S _
    | setbrt pin rs gs bs =>
      change Proceeds (execSetbrt pin rs gs bs s)
      rw [execSetbrt, show s.gate = none from hg]
      exact proceeds_ite (fun _ => proceeds_next _) fun _ => proceeds_next _
    | rmstrip pin =>
      change Proceeds (execRmstrip pin s)
      rw [execRmstrip, show s.gate = none from hg]
      exact proceeds_ite (fun _ => proceeds_next _) fun _ => proceeds_next _
    | transmit =>
      obtain ⟨t, ht, -⟩ := h.transmit
      exact ⟨t, ht⟩

theorem Inv.runCommand_proceeds (h : Inv s) (w : Command) : Proceeds (Machine.runCommand w s) := by
  cases hd : decode w with
  | ok i =>
    rw [runCommand_of_decoded hd]
    exact h.exec_proceeds i
  | error e => exact ⟨_, runCommand_of_not_decoded hd s⟩

/-! The statements. -/

/-- Settles O13: an idle machine takes the host's next event; a command keeps the invariant, and a reset meets it. -/
theorem stepKeepsInvariant : Obligations.StepKeepsInvariant := by
  intro s t h ht
  cases hh : s.hostIn with
  | nil =>
    cases (step_idle h.idle hh).symm.trans ht
    exact h
  | cons event rest =>
    cases event with
    | reset =>
      cases (step_reset hh).symm.trans ht
      exact inv_of_reset h.params _ _ _ _ _ _
    | command w =>
      rw [step_command h.idle hh] at ht
      exact (h.accept rest).runCommand ht
    | commandReset w n =>
      obtain ⟨u, hu⟩ := (h.accept rest).runCommand_proceeds w
      cases (step_commandReset h.idle hh hu).symm.trans ht
      exact inv_of_reset ((h.accept rest).runCommand hu).params _ _ _ _ _ _

/-- Settles O14: whatever command the host presents takes place. -/
theorem invariantMachineNeverStops : Obligations.InvariantMachineNeverStops := by
  intro s h
  cases hh : s.hostIn with
  | nil => exact ⟨_, step_idle h.idle hh⟩
  | cons event rest =>
    cases event with
    | reset => exact ⟨_, step_reset hh⟩
    | command w =>
      rw [step_command h.idle hh]
      exact (h.accept rest).runCommand_proceeds w
    | commandReset w n =>
      obtain ⟨u, hu⟩ := (h.accept rest).runCommand_proceeds w
      exact ⟨_, step_commandReset h.idle hh hu⟩

end Sys2Proof.Machine
end

section
/-! `REGLINE`, the constructors and `RMSTRIP` (40_bus_commands.md R132, R137, 43_strip_factory.md R231 to R242): their
checks in order, and what they leave. -/

namespace Sys2Proof.Machine

variable {s : State}

/-! The checks of a registration, after the prologue. -/

theorem State.lockPinError_of_bad_pin {pin : Pin} (ho : s.phase = .opened)
    (hp : s.params.validPins.getLsbD pin.toNat = false ∨ pin = s.clkPin) : s.lockPinError pin = some .pin := by
  rw [State.lockPinError, if_neg (by rw [ho]; nofun), if_pos]
  rcases hp with hp | hp
  · simp [State.pinValid, hp]
  · simp [hp]

theorem State.lockPinError_of_good_pin {pin : Pin} (ho : s.phase = .opened)
    (hv : s.params.validPins.getLsbD pin.toNat = true) (hc : pin ≠ s.clkPin) : s.lockPinError pin = none :=
  (State.lockPinError_none_iff s pin).2 ⟨by rw [ho]; nofun, hv, hc⟩

theorem State.ready_of_opened (hf : s.fatal = false) (ho : s.phase = .opened) : s.Ready := ⟨hf, by rw [ho]; nofun⟩

theorem State.overCapacity_eq_false {len : Nat} (h : len ≤ s.params.maxBytes) : s.overCapacity len = false :=
  eq_false_of_ne_true fun hc => absurd ((State.overCapacity_iff s len).1 hc) (Nat.not_lt.2 h)

/-! `REGLINE`. -/

section
variable {pin : Pin} {len : Word}

theorem exec_regline_locked (hs : s.Ready) (hl : s.phase = .locked) :
    exec (.regline pin len) s = .next (s.failed 0x02#8 4#8) := by
  have hg : s.gateError .registers = some .locked := by
    rw [State.gateError, (State.gate_none_iff s).2 hs, State.lockGate, if_pos hl]
    rfl
  rw [exec_gated (i := .regline pin len) hg, fails_eq]
  rfl

theorem exec_regline_bad_pin (hs : s.Ready) (hl : s.lockPinError pin = some .pin) :
    exec (.regline pin len) s = .next (s.failed 0x02#8 3#8) := by
  change execRegline pin len s = _
  rw [execRegline, (State.gate_none_iff s).2 hs]
  simp only [hl]
  exact fails_eq s _ .pin

theorem exec_regline_over_capacity (hs : s.Ready) (hl : s.lockPinError pin = none)
    (hc : s.params.maxBytes < len.toNat) : exec (.regline pin len) s = .next (s.failed 0x02#8 6#8) := by
  change execRegline pin len s = _
  rw [execRegline, (State.gate_none_iff s).2 hs]
  simp only [hl]
  rw [if_pos ((State.overCapacity_iff s _).2 hc)]
  exact fails_eq s _ .alloc

theorem exec_regline_image_too_large (hs : s.Ready) (hl : s.lockPinError pin = none)
    (hc : len.toNat ≤ s.params.maxBytes) (hi : s.imageTooLarge len.toNat = true) :
    exec (.regline pin len) s = .next (({ s with fatal := true } : State).failed 0x02#8 6#8) := by
  change execRegline pin len s = _
  rw [execRegline, (State.gate_none_iff s).2 hs]
  simp only [hl, State.overCapacity_eq_false hc, hi]
  exact failsFatally_eq s _

theorem exec_regline_registers (can : s.CanRegister pin len.toNat) :
    exec (.regline pin len) s =
      .next ((s.registerLine pin len.toNat).respond Opc.regline (s.registerLine pin len.toNat).size) := by
  obtain ⟨hg, hl, hc, hi⟩ := can.checks
  change execRegline pin len s = _
  rw [execRegline, hg]
  simp only [hl, hc, hi]
  rfl

end

/-- Growth zero-fills, and a registration touches no other byte (10_state.md R28). -/
theorem State.byteAt_registerLine (s : State) (p q : Pin) (len pos : Nat) :
    (s.registerLine p len).byteAt q pos =
      if s.size.toNat < len ∧ s.size.toNat ≤ pos then 0x00#8 else s.byteAt q pos := by
  rw [State.byteAt_eq_byteOf, State.byteAt_eq_byteOf, State.registerLine_eq]
  simp only
  by_cases hl : len > s.size.toNat
  · rw [if_pos hl, byteOf_below]
    by_cases hp : pos < s.size.toNat
    · rw [if_pos hp, if_neg (by omega)]
    · rw [if_neg hp, if_pos (by omega)]
  · rw [if_neg hl, if_neg (by omega)]

/-- Settles O23. -/
theorem reglineRegistersLine : Obligations.ReglineRegistersLine := by
  refine ⟨by decide, fun s pin len hf hp => ⟨exec_regline_locked ⟨hf, hp⟩, fun ho => ⟨fun hbad => ?_, fun hv hclk => ?_⟩⟩⟩
  · exact exec_regline_bad_pin ⟨hf, hp⟩ (State.lockPinError_of_bad_pin ho hbad)
  have hl := State.lockPinError_of_good_pin ho hv hclk
  refine ⟨exec_regline_over_capacity ⟨hf, hp⟩ hl, fun hcap => ⟨fun him => ?_, fun hfit => ?_⟩⟩
  · exact exec_regline_image_too_large ⟨hf, hp⟩ hl hcap ((State.imageTooLarge_iff s _).2 him)
  refine ⟨_, exec_regline_registers ⟨hf, ho, hv, hclk, hcap, hfit⟩, ?_⟩
  have hsize : (s.registerLine pin len.toNat).size = if s.size.toNat < len.toNat then len else s.size := by
    rw [State.registerLine_eq]
    simp only [gt_iff_lt, BitVec.ofNat_toNat, BitVec.setWidth_eq]
  refine ⟨?_, hsize, ?_, ?_, ?_, fun q pos => s.byteAt_registerLine pin q len.toNat pos, ?_⟩
  · rw [State.respond_dataMask, State.registerLine_eq, pinBit_eq]
  · rw [State.respond_rsp, State.respond_size, rspOf_ok]
    rfl
  · rw [State.respond_outPins, State.registerLine_eq, pinBit_eq]
  · rw [State.respond_outenTrace, State.registerLine_eq]
  · rw [State.respond_eq, State.registerLine_eq]

/-! The constructors. -/

section
variable {pin : Pin} {proto : Proto} {ord : BitVec 3} {count : BitVec 16} {opc : BitVec 8}

theorem mkStrip_bad_pin (hs : s.Ready) (hl : s.lockPinError pin = some .pin) :
    mkStrip opc proto pin ord count s = .next (s.failed opc 3#8) := by
  rw [mkStrip, (State.gate_none_iff s).2 hs]
  simp only [hl]
  exact fails_eq s opc .pin

theorem mkStrip_bad_strip (hs : s.Ready) (hl : s.lockPinError pin = none)
    (hb : (s.strip pin).valid = true ∨ 5 < ord.toNat) :
    mkStrip opc proto pin ord count s = .next (s.failed opc 9#8) := by
  rw [mkStrip, (State.gate_none_iff s).2 hs]
  simp only [hl]
  cases ho : Order.ofCode ord with
  | none => exact fails_eq s opc .strip
  | some o =>
    have hord : ¬5 < ord.toNat := fun h => nomatch ho.symm.trans ((Order.ofCode_none_iff ord).2 h)
    simp only [hb.resolve_right hord]
    exact fails_eq s opc .strip

theorem order_of_code (ho : ord.toNat ≤ 5) : ∃ o, Order.ofCode ord = some o := by
  cases h : Order.ofCode ord with
  | some o => exact ⟨o, rfl⟩
  | none => exact absurd ((Order.ofCode_none_iff ord).1 h) (Nat.not_lt.2 ho)

theorem mkStrip_over_capacity (hs : s.Ready) (hl : s.lockPinError pin = none) (hv : (s.strip pin).valid = false)
    (ho : ord.toNat ≤ 5) (hc : s.params.maxBytes < proto.frameLen count.toNat) :
    mkStrip opc proto pin ord count s = .next (s.failed opc 6#8) := by
  obtain ⟨o, ho⟩ := order_of_code ho
  rw [mkStrip, (State.gate_none_iff s).2 hs]
  simp only [hl, ho, hv, (State.overCapacity_iff s _).2 hc]
  exact fails_eq s opc .alloc

theorem mkStrip_image_too_large (hs : s.Ready) (hl : s.lockPinError pin = none) (hv : (s.strip pin).valid = false)
    (ho : ord.toNat ≤ 5) (hc : proto.frameLen count.toNat ≤ s.params.maxBytes)
    (hi : s.imageTooLarge (proto.frameLen count.toNat) = true) :
    mkStrip opc proto pin ord count s = .next (({ s with fatal := true } : State).failed opc 6#8) := by
  obtain ⟨o, ho⟩ := order_of_code ho
  rw [mkStrip, (State.gate_none_iff s).2 hs]
  simp only [hl, ho, hv, State.overCapacity_eq_false hc, hi]
  exact failsFatally_eq s opc

end

/-- Settles O29. -/
theorem constructorChecksInOrder : Obligations.ConstructorChecksInOrder := by
  intro proto s pin ord count hf ho
  have hs := State.ready_of_opened hf ho
  simp only [exec_constructor_eq_mkStrip, ← frameBytes_eq]
  refine ⟨fun hbad => mkStrip_bad_pin hs (State.lockPinError_of_bad_pin ho hbad), fun hv hclk => ?_⟩
  have hl := State.lockPinError_of_good_pin ho hv hclk
  exact ⟨mkStrip_bad_strip hs hl, fun hfree hord => ⟨mkStrip_over_capacity hs hl hfree hord, fun hcap hdma hmem =>
    mkStrip_image_too_large hs hl hfree hord hcap ((State.imageTooLarge_iff s _).2 ⟨hdma, hmem⟩)⟩⟩

/-- The bytes a constructor leaves: its black frame, zeros where the buffer has grown, the old ones (R233). -/
theorem State.byteAt_withStrip_eq (s : State) (proto : Proto) (pin q : Pin) (o : Order) (count : BitVec 16) (pos : Nat) :
    (s.withStrip proto pin o count).byteAt q pos =
      if q = pin ∧ pos < proto.frameLen count.toNat then blackByte proto count.toNat pos
      else if s.size.toNat < proto.frameLen count.toNat ∧ s.size.toNat ≤ pos then 0x00#8
      else s.byteAt q pos := by
  rw [State.withStrip, State.byteAt_withBytes, Proto.blackFrame_length, Nat.zero_add, Nat.sub_zero]
  by_cases h : q = pin ∧ pos < proto.frameLen count.toNat
  · rw [if_pos ⟨h.1, Nat.zero_le _, h.2⟩, if_pos h, blackFrame_byte proto _ _ h.2]
  · rw [if_neg fun hc => h ⟨hc.1, hc.2.2⟩, if_neg h]
    exact s.byteAt_registerLine pin q (proto.frameLen count.toNat) pos

theorem State.strip_withStrip (s : State) (proto : Proto) (pin q : Pin) (o : Order) (count : BitVec 16) :
    (s.withStrip proto pin o count).strip q = if q = pin then Strip.fresh proto o count else s.strip q := by
  have hold : (s.registerLine pin (proto.frameLen count.toNat)).strip q = s.strip q := by rw [State.registerLine_eq]; rfl
  rw [← hold]
  exact State.strip_setStrip _ _ _ _

/-- Settles O28. -/
theorem constructorLaysBlackFrame : Obligations.ConstructorLaysBlackFrame := by
  intro proto s pin o count can hfree hmax
  rw [← frameBytes_eq] at can ⊢
  have hlen : proto.frameLen count.toNat < 2 ^ 32 := by
    have := can.capacity
    omega
  have hsize : (s.withStrip proto pin o count).size.toNat = max s.size.toNat (proto.frameLen count.toNat) :=
    s.registerLine_size pin hlen
  refine ⟨_, (exec_constructor_eq_mkStrip proto pin o.code count s).trans (mkStrip_eq can hfree hlen _ o), ?_, hsize,
    ?_, ?_, ?_, ?_, fun q hq => ?_, fun q pos => ?_, ?_⟩
  · rw [State.respond_dataMask, State.withStrip_eq, pinBit_eq]
  · rw [State.respond_rsp, State.respond_size, rspOf_ok]
  · rw [State.respond_outPins, State.withStrip_eq, pinBit_eq]
  · rw [State.respond_outenTrace, State.withStrip_eq]
  · rw [State.strip_respond, State.strip_withStrip, if_pos rfl]
    rfl
  · rw [State.strip_respond, State.strip_withStrip, if_neg hq]
  · rw [State.byteAt_respond, State.byteAt_withStrip_eq]
  · rw [State.respond_eq, State.withStrip_eq]

/-! Two lines of one buffer (40_bus_commands.md R137). -/

/-- A registration on a direct bus that has room, from O23. -/
theorem exec_regline_direct {pin : Pin} {len : Word} (hf : s.fatal = false) (ho : s.phase = .opened)
    (hd : s.strategy = .direct) (hv : s.params.validPins.getLsbD pin.toNat = true) (hclk : pin ≠ s.clkPin)
    (hcap : len.toNat ≤ s.params.maxBytes) :
    ∃ t, exec (.regline pin len) s = .next t ∧ t.dataMask = s.dataMask ||| 1#32 <<< pin.toNat ∧
      t.size = (if s.size.toNat < len.toNat then len else s.size) ∧
      (∀ p pos, t.byteAt p pos = if s.size.toNat < len.toNat ∧ s.size.toNat ≤ pos then 0x00#8 else s.byteAt p pos) ∧
      t.fatal = s.fatal ∧ t.phase = s.phase ∧ t.strategy = s.strategy ∧ t.params = s.params ∧ t.clkPin = s.clkPin := by
  obtain ⟨-, -, hgood⟩ := (reglineRegistersLine.2 s pin len hf (State.ready_of_opened hf ho).2).imp_right fun h => h ho
  obtain ⟨t, ht, hmask, hsize, -, -, -, hbyte, hframe⟩ :=
    ((hgood hv hclk).2 hcap).2 fun hdma => nomatch hd.symm.trans hdma
  exact ⟨t, ht, hmask, hsize, hbyte, (congrArg State.fatal hframe :), (congrArg State.phase hframe :),
    (congrArg State.strategy hframe :), (congrArg State.params hframe :), (congrArg State.clkPin hframe :)⟩

/-- Settles O27: the second line is shorter, so it grows nothing, and its bytes are the zeros of the first growth. -/
theorem twoLinesShareOneLength : Obligations.TwoLinesShareOneLength := by
  intro s clk freq hp hf hm hz h5 h6 hvc hv5 hv6 hmax
  have ha := exec_buscfg_creates clk .direct freq hf hp hvc
  obtain ⟨b, hb, hbm, hbz, hbb, hbf, hbp, hbs, hbP, hbc⟩ :=
    exec_regline_direct (s := { s.configure clk .direct freq with rsp := some (okRsp 0x01#8 0#32) }) (pin := 5#5)
      (len := 48#32) hf rfl rfl hv5 h5.symm hmax
  have hzero : (s.configure clk .direct freq).size = 0#32 := hz
  have hbz : b.size = 48#32 := by
    rw [hbz, hzero]
    rfl
  obtain ⟨c, hc, hcm, hcz, hcb, -⟩ := exec_regline_direct (s := b) (pin := 6#5) (len := 32#32) (hbf.trans hf) hbp hbs
    (hbP ▸ hv6) (hbc ▸ h6.symm) (hbP ▸ Nat.le_trans (by decide) hmax)
  refine ⟨_, b, c, ha, hb, hc, ?_, ?_, fun pos hpos => ?_⟩
  · rw [hcm, hbm, show (s.configure clk .direct freq).dataMask = 0#32 from hm]
    rfl
  · rw [hcz, hbz]
    rfl
  · rw [hcb, hbz, if_neg (fun h => absurd h.1 (by decide)), hbb, hzero, if_pos ⟨by decide, Nat.zero_le _⟩]

/-! `RMSTRIP` and commands on a pin without a strip. -/

theorem exec_rmstrip_no_strip {pin : Pin} (hs : s.Ready) (hv : (s.strip pin).valid = false) :
    exec (.rmstrip pin) s = .next (s.failed 0x1B#8 9#8) := by
  change execRmstrip pin s = _
  rw [execRmstrip, (State.gate_none_iff s).2 hs]
  simp only [hv]
  exact fails_eq s _ .strip

theorem exec_rmstrip_clears {pin : Pin} (hs : s.Ready) (hv : (s.strip pin).valid = true) :
    exec (.rmstrip pin) s =
      .next ((s.setStrip pin { s.strip pin with valid := false }).respond Opc.rmstrip 0#32) := by
  change execRmstrip pin s = _
  rw [execRmstrip, (State.gate_none_iff s).2 hs]
  exact if_pos hv

/-- Settles O30. -/
theorem rmstripClearsValid : Obligations.RmstripClearsValid := by
  refine ⟨by decide, fun s pin hs => ⟨exec_rmstrip_no_strip hs, fun hv => ?_⟩⟩
  refine ⟨_, exec_rmstrip_clears hs hv, (State.respond_rsp _ _ _).trans (congrArg some (rspOf_ok _ _)), ?_,
    fun q hq => ?_, rfl⟩
  · rw [State.strip_respond, State.strip_setStrip, if_pos rfl]
  · rw [State.strip_respond, State.strip_setStrip, if_neg hq]

theorem setPixel_no_strip {pin : Pin} (hs : s.Ready) (hv : (s.strip pin).valid = false) (opc : BitVec 8)
    (idx : BitVec 16) (bytes : Strip → List Byte) :
    setPixel opc pin idx bytes s = .next (s.failed opc 9#8) := by
  rw [setPixel, (State.gate_none_iff s).2 hs]
  simp only [hv]
  exact fails_eq s opc .strip

/-- Settles O31. -/
theorem pixelCommandsNeedStrip : Obligations.PixelCommandsNeedStrip := by
  intro s pin hs hv
  refine ⟨fun idx r g b => ?_, fun idx r g b => ?_, fun rs gs bs => exec_setbrt_no_strip rs gs bs hs hv,
    exec_rmstrip_no_strip hs hv⟩
  · rw [exec_setpix8_eq_setPixel]
    exact setPixel_no_strip hs hv _ idx _
  · rw [exec_setpix16_eq_setPixel]
    exact setPixel_no_strip hs hv _ idx _

end Sys2Proof.Machine
end

section
/-! The 16-bit path of APA102 and SK9822 (44_pixel_encoders.md R273, R275), and the registers `RDREG` reads
(10_state.md R49, R50). -/

namespace Sys2Proof.Machine

/-! The level and the reciprocal table. -/

section
variable (S : Strip) (v : Chan → Nat)

theorem apaWanted_eq (X : Chan) : apaWanted S v X = min 65535 (v X * (S.scale X).toNat / 65536) := by
  rw [apaWanted, scaled_eq]

theorem apaWanted_le (X : Chan) : apaWanted S v X ≤ 65535 := Nat.min_le_left _ _

/-- The largest of the three intensities wanted (R273). -/
def apaLargest : Nat := max (max (apaWanted S v .red) (apaWanted S v .green)) (apaWanted S v .blue)

theorem apaWanted_le_largest (X : Chan) : apaWanted S v X ≤ apaLargest S v := by
  unfold apaLargest
  cases X <;> omega

theorem apaLevel_eq : apaLevel S v = apaLargest S v * 31 / 65536 + 1 := by
  rw [apaLevel, Nat.shiftRight_eq_div_pow]
  rfl

/-- The level is the least at which the largest intensity fits. -/
theorem largest_fits_iff (L : Nat) : apaLargest S v * 31 < 65536 * L ↔ apaLevel S v ≤ L := by
  rw [apaLevel_eq]
  omega

theorem apaWanted_fits (X : Chan) : apaWanted S v X * 31 < 65536 * apaLevel S v := by
  have := (largest_fits_iff S v _).2 le_rfl
  have := apaWanted_le_largest S v X
  omega

theorem apaLevel_toNat : (BitVec.ofNat 5 (apaLevel S v)).toNat = apaLevel S v :=
  Nat.mod_eq_of_lt (Nat.lt_succ_of_le (apaLevel_range S v).2)

end

/-- Each entry of `RTAB_APA` is `(31 << 16) div L` (10_state.md R46). -/
theorem rtabApa_bounds (level : BitVec 5) (h : level ≠ 0#5) :
    rtabAt rtabApa level * level.toNat ≤ 31 * 65536 ∧ 31 * 65536 < (rtabAt rtabApa level + 1) * level.toNat := by
  revert level
  decide

/-- At a level that fits, the product with the reciprocal stays below 2^32. -/
theorem product_lt {w T L : Nat} (hw : w * 31 < 65536 * L) (hT : T * L ≤ 31 * 65536) : w * T < 2 ^ 32 := by
  rcases Nat.eq_zero_or_pos T with rfl | hpos
  · omega
  · have h1 : w * 31 * T < 65536 * L * T := Nat.mul_lt_mul_of_pos_right hw hpos
    nlinarith

theorem rtabApa_at_level (S : Strip) (v : Chan → Nat) :
    rtabAt rtabApa (BitVec.ofNat 5 (apaLevel S v)) * apaLevel S v ≤ 31 * 65536 ∧
      31 * 65536 < (rtabAt rtabApa (BitVec.ofNat 5 (apaLevel S v)) + 1) * apaLevel S v := by
  have h := rtabApa_bounds _ (ofNat_level_ne_zero (apaLevel_range S v))
  rwa [apaLevel_toNat] at h

/-- Settles O45. -/
theorem pixelLevelIsLeast : Obligations.PixelLevelIsLeast := by
  intro S r g b v m
  refine ⟨apaLevel_range S v, fun L _ _ => largest_fits_iff S v L, fun X => ?_⟩
  have := product_lt (apaWanted_fits S v X) (rtabApa_at_level S v).1
  omega

/-! The bytes. -/

/-- The colour byte at a channel's slot on the 16-bit path. -/
theorem apaPixel16_slot (P : Params) (S : Strip) (v : Chan → Nat) (X : Chan) :
    (apaPixel16 P S v)[S.ord.slot X + 1]'(Nat.succ_lt_succ (S.ord.slot_lt X)) =
      BitVec.ofNat 8 (min 255 (apaWanted S v X *
        rtabAt (rtab P S.proto X) (BitVec.ofNat 5 (apaLevel S v)) / 16777216)) := by
  have h := wireOrder_slot S.ord (fun X => BitVec.ofNat 8 (min 255 ((apaWanted S v X *
    rtabAt (rtab P S.proto X) (BitVec.ofNat 5 (apaLevel S v))) >>> 24))) X
  rw [Nat.shiftRight_eq_div_pow] at h
  exact h

/-- What `SETPIX16` leaves on APA102 and SK9822, in the model's own words. -/
theorem exec_setpix16_apa {s : State} {pin : Pin} {idx : BitVec 16} (h : s.CanWritePixel pin idx)
    (hp : (s.strip pin).proto = .apa102 ∨ (s.strip pin).proto = .sk9822) (r g b : BitVec 16) :
    ∃ t, exec (.setpix16 pin idx r g b) s = .next t ∧ s.PixelWritten t 0x19#8 pin (4 + 4 * idx.toNat) 4 ∧
      t.byteAt pin (4 + 4 * idx.toNat) = 0b111#3 ++ BitVec.ofNat 5 (apaLevel (s.strip pin) (chanValue r g b)) ∧
      ∀ X, t.byteAt pin (4 + 4 * idx.toNat + 1 + (s.strip pin).ord.slot X) =
        BitVec.ofNat 8 (min 255 (apaWanted (s.strip pin) (chanValue r g b) X *
          rtabAt (rtab s.params (s.strip pin).proto X)
            (BitVec.ofNat 5 (apaLevel (s.strip pin) (chanValue r g b))) / 16777216)) := by
  obtain ⟨t, ht, hstored⟩ := exec_setpix16_stores_apa h hp r g b
  refine ⟨t, ht, hstored.written, ?level, fun X => ?slot⟩
  case level =>
    rw [← brightnessByte_eq]
    exact hstored.byte 0 (Nat.zero_lt_succ _)
  case slot =>
    rw [Nat.add_right_comm _ 1, Nat.add_assoc, hstored.byte _ (Nat.succ_lt_succ ((s.strip pin).ord.slot_lt X)),
      apaPixel16_slot]

/-- Settles O37. -/
theorem setpix16EncodesApa102 : Obligations.Setpix16EncodesApa102 := by
  intro s pin idx r g b h hp w level
  have hw : w = apaWanted (s.strip pin) (chanValue r g b) := funext fun X => (apaWanted_eq _ _ X).symm
  have hlevel : level = apaLevel (s.strip pin) (chanValue r g b) := by
    rw [apaLevel_eq]
    simp only [level, hw, apaLargest]
  rw [hw, hlevel]
  exact exec_setpix16_apa h hp r g b

/-- The intensity of a byte `o = w*T / 2^24` at level `L`, with `T` the reciprocal of `L`, against the wanted `w`. -/
theorem intensity_within_step {w T L : Nat} (hw : w ≤ 65535) (hL : 1 ≤ L) (hlo : T * L ≤ 31 * 65536)
    (hhi : 31 * 65536 < (T + 1) * L) :
    w * T / 16777216 * L * 256 ≤ w * 31 ∧ w * 31 < w * T / 16777216 * L * 256 + 257 * L := by
  have hdiv : w * T / 16777216 * 16777216 ≤ w * T := Nat.div_mul_le_self _ _
  have hmod : w * T < (w * T / 16777216 + 1) * 16777216 := by omega
  generalize w * T / 16777216 = o at *
  constructor
  · have h1 : o * 16777216 * L ≤ w * T * L := Nat.mul_le_mul_right L hdiv
    have h2 : w * (T * L) ≤ w * (31 * 65536) := Nat.mul_le_mul_left w hlo
    nlinarith
  · have h1 : w * T * L < (o + 1) * 16777216 * L := Nat.mul_lt_mul_of_pos_right hmod hL
    have h2 : w * (31 * 65536) ≤ w * ((T + 1) * L) := Nat.mul_le_mul_left w hhi.le
    have h3 : w * L ≤ 65535 * L := Nat.mul_le_mul_right L hw
    nlinarith

/-- The low five bits of a brightness byte are its level (30_encoding.md R115). -/
theorem toNat_brightness (level : BitVec 5) : (0b111#3 ++ level).toNat % 32 = level.toNat := by
  revert level
  decide

/-- Settles O41: the level written is the level of the pixel, and no byte is clamped. -/
theorem sixteenBitPathIsPrecise : Obligations.SixteenBitPathIsPrecise := by
  intro s t pin idx r g b X h hp ht w level o
  have hproto : (s.strip pin).proto = .apa102 ∨ (s.strip pin).proto = .sk9822 := hp.imp_right And.left
  have htab : rtab s.params (s.strip pin).proto X = rtabApa := by
    rcases hp with hp | ⟨hp, hr, hgb⟩
    · rw [hp]
      rfl
    · rw [hp]
      cases X
      · exact hr
      · exact hgb
      · exact hgb
  obtain ⟨t', ht', -, hlevel, hslot⟩ := exec_setpix16_apa h hproto r g b
  cases ht.symm.trans ht'
  have hw : w = apaWanted (s.strip pin) (chanValue r g b) X := (apaWanted_eq _ _ X).symm
  have hlevel : level = apaLevel (s.strip pin) (chanValue r g b) := by
    simp only [level, hlevel, toNat_brightness, apaLevel_toNat]
  have ho : o = apaWanted (s.strip pin) (chanValue r g b) X *
      rtabAt rtabApa (BitVec.ofNat 5 (apaLevel (s.strip pin) (chanValue r g b))) / 16777216 := by
    have := product_lt (apaWanted_fits (s.strip pin) (chanValue r g b) X)
      (rtabApa_at_level (s.strip pin) (chanValue r g b)).1
    simp only [o, hslot, htab, BitVec.toNat_ofNat]
    omega
  rw [ho, hw, hlevel]
  exact intensity_within_step (apaWanted_le _ _ _) (apaLevel_range _ _).1 (rtabApa_at_level _ _).1
    (rtabApa_at_level _ _).2

/-! `RDREG`. -/

theorem exec_rdreg {s : State} {addr : BitVec 8} {pin : Pin} {v : Word} (h : s.csr addr pin = some v) :
    exec (.rdreg addr pin) s = .next { s with rsp := some (okRsp 0x05#8 v) } := by
  change execRdreg addr pin s = _
  rw [execRdreg, h]
  exact congrArg Host.Outcome.next (State.respond_eq s _ v)

theorem setWidth_eq_append {m n : Nat} (x : BitVec n) : x.setWidth (m + n) = 0#m ++ x := by
  apply BitVec.eq_of_getLsbD_eq
  intro i hi
  rw [BitVec.getLsbD_setWidth, BitVec.getLsbD_append]
  by_cases h : i < n
  · simp [h, hi]
  · simp [h, BitVec.getLsbD_of_ge x i (Nat.le_of_not_lt h)]

theorem State.statusWord_eq (s : State) :
    s.statusWord =
      ((if s.phase ≠ .unconfigured then 0x01#32 else 0#32) ||| (if s.phase = .locked then 0x02#32 else 0#32) |||
        (if s.busy then 0x04#32 else 0#32) ||| (if s.fatal then 0x08#32 else 0#32) |||
        (if s.calDone then 0x10#32 else 0#32) ||| (if s.strategy = .dma then 0x20#32 else 0#32) |||
        (if s.chainBuilt then 0x40#32 else 0#32)) := by
  rw [State.statusWord]
  generalize s.phase = phase, s.busy = busy, s.fatal = fatal, s.calDone = cal, s.strategy = strat, s.chainBuilt = chain
  cases phase <;> cases strat <;> revert busy fatal cal chain <;> decide

theorem Dmacs.word_eq (d : Dmacs) :
    d.word = ((if d.active then 0x001#32 else 0#32) ||| (if d.ended then 0x002#32 else 0#32) |||
      (if d.error then 0x100#32 else 0#32)) := by
  obtain ⟨active, ended, error⟩ := d
  revert active ended error
  decide

/-- Settles O25: register by register, the word the state assembles is the one R50 gives. -/
theorem rdregReadsBusRegister : Obligations.RdregReadsBusRegister := by
  intro s addr v h
  apply exec_rdreg
  rw [← State.statusWord_eq, ← Dmacs.word_eq, ← setWidth_eq_append, ← setWidth_eq_append, ← setWidth_eq_append] at h
  simp only [List.mem_cons, Prod.mk.injEq, List.not_mem_nil, or_false] at h
  rcases h with h | h | h | h | h | h | h | h | h | h | h | h | h | h | h <;> (obtain ⟨rfl, rfl⟩ := h; rfl)

theorem State.csr_strip (s : State) (pin : Pin) {addr : BitVec 8} {v : Word} (ha : 0x20 ≤ addr.toNat)
    (h : (s.strip pin).valid = true → (s.strip pin).register addr.toNat = some v)
    (hd : (s.strip pin).register addr.toNat ≠ none) :
    s.csr addr pin = some (if (s.strip pin).valid then v else 0#32) := by
  rw [State.csr, if_neg (Nat.not_lt.2 ha)]
  cases hv : (s.strip pin).valid with
  | true =>
    rw [h hv]
    rfl
  | false =>
    obtain ⟨u, hu⟩ := Option.ne_none_iff_exists'.1 hd
    rw [hu]
    rfl

theorem Strip.ctlWord_of_valid {S : Strip} (h : S.valid = true) :
    S.ctlWord = S.count ++ 0#9 ++ S.ord.code ++ S.proto.code ++ 1#1 := by
  rw [Strip.ctlWord, h]
  rfl

/-- Settles O26. -/
theorem rdregReadsStripRegister : Obligations.RdregReadsStripRegister := by
  intro s pin addr v h
  apply exec_rdreg
  rw [← setWidth_eq_append, ← frameBytes_eq] at h
  simp only [List.mem_cons, Prod.mk.injEq, List.not_mem_nil, or_false] at h
  rcases h with h | h | h | h | h | h | h | h | h | h <;> obtain ⟨rfl, rfl⟩ := h
  · exact s.csr_strip pin (by decide) (fun hv => congrArg some (Strip.ctlWord_of_valid hv)) nofun
  on_goal 9 =>
    refine s.csr_strip pin (by decide) (fun _ => ?_) nofun
    change some (BitVec.ofNat 32 (s.strip pin).proto.startLen) = _
    cases (s.strip pin).proto <;> rfl
  all_goals exact s.csr_strip pin (by decide) (fun _ => rfl) nofun

end Sys2Proof.Machine
end

section
/-! What `TRANSMIT` puts on the lines (41_transmit_direct.md R162 to R171, 60_exceptions.md R326, R373): the masks, the
levels, what the chips latch, the edges and the waveform. -/

namespace Sys2Proof.Machine

variable {s : State}

/-! The masks (R162). -/

theorem State.Wired.masks_together (h : s.Wired) (r : Nat) : s.setMask r ||| s.clrMask r = s.outs := by
  apply BitVec.eq_of_getLsbD_eq
  intro i _
  obtain ⟨hset, hclr⟩ := s.getLsbD_masks r i
  rw [BitVec.getLsbD_or, hset, hclr, State.outs, BitVec.getLsbD_or, State.getLsbD_clkBit]
  by_cases hr : r < 16 * s.size.toNat
  · have hlane := h.lane (t := r / 2) (i := i)
    cases hp : (s.planeAt (r / 2)).getLsbD i with
    | true => simp [hr, hlane hp]
    | false =>
      rcases Nat.mod_two_eq_zero_or_one r with hm | hm
      · simp [hr, hm]
      · simp [hr, hm, Bool.or_comm]
  · simp [hr]

/-- Settles O46. -/
theorem frameMasks : Obligations.FrameMasks := by
  intro s hlanes hclk
  have h : s.Wired := ⟨hlanes, hclk⟩
  refine ⟨rfl, fun t ht => ?_, if_neg (lt_irrefl _), if_neg (lt_irrefl _), fun r _ => ⟨h.disjoint r, h.masks_together r⟩⟩
  have heven : 2 * t < 16 * s.size.toNat ∧ 2 * t % 2 = 0 ∧ 2 * t / 2 = t := by omega
  have hodd : 2 * t + 1 < 16 * s.size.toNat ∧ (2 * t + 1) % 2 ≠ 0 ∧ (2 * t + 1) / 2 = t := by omega
  obtain ⟨hlt, hmod, hdiv⟩ := heven
  obtain ⟨hlt', hmod', hdiv'⟩ := hodd
  refine ⟨?_, ?_, ?_, ?_⟩
  · rw [State.setMask, if_pos hlt, if_pos hmod, hdiv]
  · rw [State.clrMask, if_pos hlt, if_pos hmod, hdiv, State.lowLines]
  · rw [State.setMask, if_pos hlt', if_neg hmod', hdiv']
  · rw [State.clrMask, if_pos hlt', if_neg hmod', hdiv', State.lowLines]

/-! The operations of a `TRANSMIT`, whatever its outcome. -/

/-- The calibration writes of a direct `TRANSMIT` (R170): none once calibrated. -/
def State.calibrationOps (s : State) : List GpioOp := List.replicate (if s.calDone then 0 else s.params.calN) (.clr 0#32)

/-- The operations a `TRANSMIT` from `s` has issued in `t`, and how it has ended. -/
inductive State.Transmits (s t : State) : Prop where
  | refused (e : Err) (eq : t = s.failed Opc.transmit e.code)
  | direct (mode : s.strategy = .direct)
      (trace : t.physTrace = s.physTrace ++ (s.calibrationOps ++ s.repeatedOps t.calRep.toNat (nRows s.size.toNat)))
      (lines : t.lines = linesAfter s.lines (s.repeatedOps t.calRep.toNat (nRows s.size.toNat)))
      (calibrated : t.calDone = true) (params : t.params = s.params)
  | dma (mode : s.strategy = .dma) (trace : t.physTrace = s.physTrace ++ s.frameOps (nRows s.size.toNat))
      (lines : t.lines = linesAfter s.lines (s.frameOps (nRows s.size.toNat)))
  | fault (k : Nat) (trace : t.physTrace = s.physTrace ++ s.frameOps k)
      (lines : t.lines = linesAfter s.lines (s.frameOps k)) (status : t.status = some 7#8)

theorem State.repeatedOps_congr {t : State} (hp : t.plane = s.plane) (hd : t.dataMask = s.dataMask)
    (hs : t.size = s.size) (hc : t.clkPin = s.clkPin) : t.repeatedOps = s.repeatedOps := by
  funext k n
  rw [State.repeatedOps, State.repeatedOps, State.rowOps_congr hp hd hs hc]

theorem transmits_direct (hs : s.Ready) (hd : s.strategy = .direct) {t : State} (ht : exec .transmit s = .next t) :
    s.Transmits t := by
  cases hc : s.calDone with
  | true =>
    obtain ⟨tick, ph, hu⟩ := exec_transmit_calibrated hs hd hc
    cases ht.symm.trans hu
    refine .direct hd ?_ rfl hc rfl
    rw [State.calibrationOps, hc]
    rfl
  | false =>
    obtain ⟨tick, ph, hu⟩ := exec_transmit_first hs hd hc rfl
    cases ht.symm.trans hu
    refine .direct hd ?_ rfl rfl rfl
    rw [State.calibrationOps, hc]
    exact List.append_assoc _ _ _

theorem transmits_dma (h : s.DmaBus) {t : State} (ht : exec .transmit s = .next t) : s.Transmits t := by
  have hops := h.frameOps_start
  rcases firstFault s (nRows s.size.toNat) with hf | ⟨k, hk, hfault, hf⟩
  · obtain ⟨u, hu, -, -, -, -, htrace, hlines, -⟩ :=
      dmaTransmitReplaysFrame s h.ready h.dma h.laid.legal h.laid.fits h.chain hf
    cases ht.symm.trans hu
    exact .dma h.dma htrace hlines
  · obtain ⟨u, hu, hrsp, -, -, -, -, htrace, hlines, -⟩ :=
      dmaFaultStopsFrame s k h.ready h.dma h.laid.legal h.laid.fits h.chain hk hfault hf
    cases ht.symm.trans hu
    refine .fault k htrace hlines ?_
    rw [State.status, hrsp]
    decide

/-- Every `TRANSMIT` of a machine that meets the invariant. -/
theorem Inv.transmits (h : Inv s) {t : State} (ht : Machine.exec .transmit s = .next t) : s.Transmits t := by
  cases hg : s.gateError .usesBus with
  | some e =>
    rw [exec_gated (i := .transmit) hg, fails_eq] at ht
    cases ht
    exact .refused e rfl
  | none =>
    have hs := (State.gate_none_iff s).1 hg
    cases hd : s.strategy with
    | direct => exact transmits_direct hs hd ht
    | dma => exact transmits_dma (h.dmaBus hs hd) ht

theorem Inv.wired (h : Inv s) : s.Wired := ⟨h.lanes, h.clock_not_data⟩

theorem opsIssued_of_append {t : State} {ops : List GpioOp} (h : t.physTrace = s.physTrace ++ ops) :
    opsIssued s t = ops := by
  rw [opsIssued, h, List.drop_left]

/-! No mask leaves the outputs (R326). -/

/-- The mask of the operation lies inside `m`. -/
def GpioOp.Within (m : Word) : GpioOp → Prop
  | .set a => a &&& ~~~m = 0#32
  | .clr a => a &&& ~~~m = 0#32

theorem and_not_eq_zero_of_or {a b m : Word} (h : a ||| b = m) : a &&& ~~~m = 0#32 := by
  subst h
  apply BitVec.eq_of_getLsbD_eq
  intro i hi
  simp only [BitVec.getLsbD_and, BitVec.getLsbD_not, BitVec.getLsbD_or, BitVec.getLsbD_zero, hi]
  cases a.getLsbD i <;> simp

theorem State.Wired.rowOps_within (h : s.Wired) (r : Nat) : ∀ op ∈ s.rowOps r, op.Within s.outs := by
  have htogether := h.masks_together r
  intro op hop
  rcases List.mem_pair.1 hop with rfl | rfl
  · exact and_not_eq_zero_of_or htogether
  · exact and_not_eq_zero_of_or ((BitVec.or_comm _ _).trans htogether)

theorem State.Wired.repeatedOps_within (h : s.Wired) (k n : Nat) : ∀ op ∈ s.repeatedOps k n, op.Within s.outs := by
  intro op hop
  obtain ⟨r, -, hr⟩ := List.mem_flatMap.1 hop
  obtain ⟨ops, hops, hmem⟩ := List.mem_flatten.1 hr
  rw [List.eq_of_mem_replicate hops] at hmem
  exact h.rowOps_within r op hmem

theorem State.Wired.frameOps_within (h : s.Wired) (n : Nat) : ∀ op ∈ s.frameOps n, op.Within s.outs := by
  rw [← State.repeatedOps_one]
  exact h.repeatedOps_within 1 n

theorem State.Transmits.within (h : s.Wired) {t : State} (ht : s.Transmits t) :
    ∀ op ∈ opsIssued s t, op.Within s.outs := by
  cases ht with
  | refused e eq =>
    rw [opsIssued_of_append (ops := []) (by rw [eq, List.append_nil]; rfl)]
    exact nofun
  | direct mode trace lines calibrated params =>
    rw [opsIssued_of_append trace]
    intro op hop
    rcases List.mem_append.1 hop with hop | hop
    · rw [List.eq_of_mem_replicate hop]
      exact BitVec.zero_and
    · exact h.repeatedOps_within _ _ op hop
  | dma mode trace lines =>
    rw [opsIssued_of_append trace]
    exact h.frameOps_within _
  | fault k trace lines status =>
    rw [opsIssued_of_append trace]
    exact h.frameOps_within _

/-- Settles O51. -/
theorem onlyTransmitDrivesTheLines : Obligations.OnlyTransmitDrivesTheLines := by
  refine ⟨fun i s t hi ht => (exec_ends hi ht).output, fun s t hinv ht op hop => ?_⟩
  have hwithin := (hinv.transmits ht).within hinv.wired op hop
  cases op with
  | set m => exact hwithin
  | clr m => exact hwithin

/-- Operations inside a mask leave every line outside it. -/
theorem lines_outside {m : Word} (ops : List GpioOp) (h : ∀ op ∈ ops, op.Within m) (l : Word) :
    linesAfter l ops &&& ~~~m = l &&& ~~~m := by
  have apply_outside : ∀ (op : GpioOp) (l : Word), op.Within m → GpioOp.apply l op &&& ~~~m = l &&& ~~~m := by
    intro op l hop
    apply BitVec.eq_of_getLsbD_eq
    intro i hi
    cases op with
    | set a | clr a =>
      have hbit := congrArg (BitVec.getLsbD · i) hop
      simp only [GpioOp.apply, BitVec.getLsbD_and, BitVec.getLsbD_not, BitVec.getLsbD_or, BitVec.getLsbD_zero, hi] at hbit ⊢
      cases hm : m.getLsbD i <;> simp_all
  induction ops generalizing l with
  | nil => rfl
  | cons op ops ih =>
    rw [linesAfter_cons, ih (fun o ho => h o (List.mem_cons_of_mem _ ho)), apply_outside op l (h op List.mem_cons_self)]

theorem State.Transmits.lines_outside (h : s.Wired) {t : State} (ht : s.Transmits t) :
    t.lines &&& ~~~s.outs = s.lines &&& ~~~s.outs := by
  cases ht with
  | refused e eq => rw [eq, State.failed]
  | direct mode trace lines calibrated params => rw [lines, Machine.lines_outside _ (h.repeatedOps_within _ _)]
  | dma mode trace lines => rw [lines, Machine.lines_outside _ (h.frameOps_within _)]
  | fault k trace lines status => rw [lines, Machine.lines_outside _ (h.frameOps_within _)]

/-! The frame on the wires. -/

/-- The last row clears every output (R162, R167). -/
theorem State.Wired.lines_frame (h : s.Wired) (l : Word) :
    linesAfter l (s.frameOps (nRows s.size.toNat)) &&& s.outs = 0#32 := by
  apply BitVec.eq_of_getLsbD_eq
  intro i _
  rw [BitVec.getLsbD_and, BitVec.getLsbD_zero]
  cases hi : s.outs.getLsbD i with
  | false => rw [Bool.and_false]
  | true =>
    have hout : s.dataMask.getLsbD i = true ∨ i = s.clkPin.toNat := by
      rwa [State.outs, BitVec.getLsbD_or, State.getLsbD_clkBit, Bool.or_eq_true, decide_eq_true_eq] at hi
    rw [nRows, State.frameOps_rowOps, linesAfter_append, h.lines_row _ _ hout]
    simp

/-- Before an odd row of the frame the clock is low and every data line at its bit of the tick. -/
theorem State.Wired.lines_before_odd (h : s.Wired) (l : Word) {n i : Nat} (hn : n < 16 * s.size.toNat)
    (hodd : n % 2 = 1) (hi : s.dataMask.getLsbD i = true ∨ i = s.clkPin.toNat) :
    (linesAfter l (s.frameOps n)).getLsbD i =
      if i = s.clkPin.toNat then false else (s.planeAt (n / 2)).getLsbD i := by
  obtain ⟨m, rfl⟩ : ∃ m, n = m + 1 := ⟨n - 1, by omega⟩
  have hm : m < 16 * s.size.toNat ∧ m % 2 ≠ 1 ∧ m / 2 = (m + 1) / 2 := by omega
  obtain ⟨hlt, heven, hdiv⟩ := hm
  rw [State.frameOps_rowOps, linesAfter_append, h.lines_row _ _ hi, hdiv, decide_eq_true hlt, decide_eq_false heven,
    Bool.true_and]

/-- The bits of the ticks whose clock has risen within the first `n` rows. -/
theorem State.Wired.latched_frame (h : s.Wired) (l : Word) {p : Pin} (hp : s.dataMask.getLsbD p.toNat = true) (n : Nat)
    (hn : n ≤ 16 * s.size.toNat) :
    latched s.clkPin p l (s.frameOps n) = (List.range (n / 2)).map fun t => (s.planeAt t).getLsbD p.toNat := by
  have hne : p.toNat ≠ s.clkPin.toNat := by
    intro e
    rw [e, h.clock_off] at hp
    cases hp
  induction n with
  | zero => rfl
  | succ n ih =>
    have hrow := h.latched_row (linesAfter l (s.frameOps n)) n hp fun hlt hodd => by
      rw [h.lines_before_odd l hlt hodd (.inr rfl), h.lines_before_odd l hlt hodd (.inl hp), if_pos rfl, if_neg hne]
      exact ⟨rfl, rfl⟩
    rw [State.frameOps_rowOps, latched_append, ih (by omega), hrow]
    rcases Nat.mod_two_eq_zero_or_one n with hm | hm
    · rw [if_neg (by omega), List.append_nil, show (n + 1) / 2 = n / 2 by omega]
    · rw [if_pos ⟨by omega, hm⟩, show (n + 1) / 2 = n / 2 + 1 by omega, List.range_succ, List.map_append]
      rfl

/-- Byte by byte, eight at a time. -/
theorem map_range_mul {α : Type} (f : Nat → α) (n : Nat) :
    (List.range (8 * n)).map f = (List.range n).flatMap fun i => (List.range 8).map fun k => f (8 * i + k) := by
  induction n with
  | zero => rfl
  | succ n ih =>
    rw [Nat.mul_succ, List.range_add, List.map_append, ih, List.range_succ (n := n), List.flatMap_append, List.map_map,
      List.flatMap_singleton]
    rfl

/-- The bits of a line tick by tick are its bytes, most significant bit first (20_memory.md R62, R64). -/
theorem State.stream_bits (s : State) (p : Pin) :
    (List.range (8 * s.size.toNat)).map (fun t => (s.planeAt t).getLsbD p.toNat) = (s.stream p).flatMap msbFirst := by
  rw [map_range_mul, State.stream, List.flatMap_map]
  congr 1
  funext pos
  exact List.map_congr_left fun k hk => s.getLsbD_planeAt p pos (List.mem_range.1 hk)

/-- A whole frame latches the line's stream (R165, R166). -/
theorem State.Wired.latched_whole_frame (h : s.Wired) (l : Word) {p : Pin} (hp : s.dataMask.getLsbD p.toNat = true) :
    latched s.clkPin p l (s.frameOps (nRows s.size.toNat)) = (s.stream p).flatMap msbFirst := by
  have hlast := h.latched_row (linesAfter l (s.frameOps (16 * s.size.toNat))) (16 * s.size.toNat) hp
    fun hlt => absurd hlt (lt_irrefl _)
  rw [nRows, State.frameOps_rowOps, latched_append, hlast, if_neg fun hc => absurd hc.1 (lt_irrefl _), List.append_nil,
    h.latched_frame l hp _ le_rfl, show 16 * s.size.toNat / 2 = 8 * s.size.toNat by omega, s.stream_bits p]

theorem latched_empty_clears (clk p : Pin) (l : Word) (n : Nat) : latched clk p l (List.replicate n (.clr 0#32)) = [] := by
  induction n with
  | zero => rfl
  | succ n ih =>
    rw [List.replicate_succ, latched, GpioOp.apply_empty_clear, if_neg, ih]
    rintro ⟨hlow, hhigh⟩
    exact absurd (hlow.symm.trans hhigh) (by decide)

/-! A `TRANSMIT` that ends with `OK` sends one whole frame, every row at least once. -/

/-- The operations of a `TRANSMIT` that sends a whole frame, each row `k + 1` times, after `c` empty clears. -/
structure State.SendsFrame (s t : State) (c k : Nat) : Prop where
  issued : opsIssued s t = List.replicate c (.clr 0#32) ++ s.repeatedOps (k + 1) (nRows s.size.toNat)
  lines : t.lines = linesAfter s.lines (s.repeatedOps (k + 1) (nRows s.size.toNat))
  direct : s.strategy = .direct → c = (if s.calDone then 0 else s.params.calN) ∧ t.calRep.toNat = k + 1
  dma : s.strategy = .dma → c = 0 ∧ k = 0

theorem Inv.sendsFrame (h : Inv s) (hd : s.strategy = .direct → s.params.calDefaultRepeat < 2 ^ 32) {t : State}
    (ht : Machine.exec .transmit s = .next t) (hok : t.status = some 0#8) : ∃ c k, s.SendsFrame t c k := by
  cases h.transmits ht with
  | refused e eq =>
    rw [eq, State.status_failed, Option.some_inj] at hok
    exact absurd hok e.code_ne_zero
  | direct mode trace lines calibrated params =>
    have hrate : 1 ≤ t.calRep.toNat := by
      have hmin := (h.exec ht).calibrated calibrated (params ▸ hd mode)
      have := (h.exec ht).params.minWrites_pos
      omega
    obtain ⟨k, hk⟩ : ∃ k, t.calRep.toNat = k + 1 := ⟨t.calRep.toNat - 1, by omega⟩
    rw [hk] at trace lines
    exact ⟨_, k, opsIssued_of_append trace, lines, fun _ => ⟨rfl, hk⟩, fun hdma => (nomatch mode.symm.trans hdma)⟩
  | dma mode trace lines =>
    rw [← State.repeatedOps_one] at trace lines
    exact ⟨0, 0, opsIssued_of_append trace, lines, fun hdirect => (nomatch mode.symm.trans hdirect), fun _ => ⟨rfl, rfl⟩⟩
  | fault k trace lines status =>
    cases hok.symm.trans status

/-- Settles O50. -/
theorem transmitLeavesOutputsLow : Obligations.TransmitLeavesOutputsLow := by
  refine ⟨fun s t h hd ht hok => ?_, fun i s t h ht => ?_⟩
  · obtain ⟨c, k, hsent⟩ := h.sendsFrame (fun _ => hd) ht hok
    rw [hsent.lines, h.wired.lines_repeated, h.wired.lines_frame]
  · by_cases hi : i = .transmit
    · subst hi
      exact (h.transmits ht).lines_outside h.wired
    · rw [(exec_ends hi ht).output.1]

theorem State.SendsFrame.latched (h : s.Wired) {t : State} {c k : Nat} (hs : s.SendsFrame t c k) (p : Pin) :
    latched s.clkPin p s.lines (opsIssued s t) = Machine.latched s.clkPin p s.lines (s.frameOps (nRows s.size.toNat)) := by
  rw [hs.issued, latched_append, latched_empty_clears, linesAfter_empty_clears, List.nil_append, h.latched_repeated]

/-- Settles O52. -/
theorem chipsLatchTheStream : Obligations.ChipsLatchTheStream := by
  intro s t h hd ht hok p hp
  obtain ⟨c, k, hsent⟩ := h.sendsFrame (fun _ => hd) ht hok
  rw [hsent.latched h.wired, h.wired.latched_whole_frame _ hp]

/-! The clock's edges (R373). -/

theorem risingEdges_append (clk : Pin) (l : Word) (a b : List GpioOp) :
    risingEdges clk l (a ++ b) = risingEdges clk l a + risingEdges clk (linesAfter l a) b := by
  rw [risingEdges, latched_append, List.length_append]
  rfl

/-- The clock rises in the odd rows, once. -/
theorem State.Wired.risingEdges_row (h : s.Wired) (l : Word) (r : Nat)
    (hl : r < 16 * s.size.toNat → r % 2 = 1 → l.getLsbD s.clkPin.toNat = false) :
    risingEdges s.clkPin l (s.rowOps r) = if r < 16 * s.size.toNat ∧ r % 2 = 1 then 1 else 0 := by
  have hclk : (s.setMask r).getLsbD s.clkPin.toNat = (decide (r < 16 * s.size.toNat) && decide (r % 2 = 1)) := by
    rw [(s.getLsbD_masks r s.clkPin.toNat).1, h.plane_clock_off]
    simp
  rw [risingEdges, State.rowOps, latched_pair, hclk]
  by_cases hr : r < 16 * s.size.toNat ∧ r % 2 = 1
  · simp [hr.1, hr.2, hl hr.1 hr.2]
  · rw [if_neg hr, if_neg]
    · rfl
    · simpa using fun _ => not_and.1 hr

theorem State.Wired.risingEdges_frame (h : s.Wired) (l : Word) (n : Nat) (hn : n ≤ 16 * s.size.toNat) :
    risingEdges s.clkPin l (s.frameOps n) = n / 2 := by
  induction n with
  | zero => rfl
  | succ n ih =>
    rw [State.frameOps_rowOps, risingEdges_append, ih (by omega), h.risingEdges_row]
    · split <;> omega
    · intro hlt hodd
      rw [h.lines_before_odd l hlt hodd (.inr rfl), if_pos rfl]

theorem State.Wired.risingEdges_whole_frame (h : s.Wired) (l : Word) :
    risingEdges s.clkPin l (s.frameOps (nRows s.size.toNat)) = 8 * s.size.toNat := by
  rw [nRows, State.frameOps_rowOps, risingEdges_append, h.risingEdges_frame l _ le_rfl,
    h.risingEdges_row _ _ fun hlt => absurd hlt (lt_irrefl _), if_neg fun hc => absurd hc.1 (lt_irrefl _)]
  omega

/-- Settles O53. -/
theorem eventCounts : Obligations.EventCounts := by
  intro s t h hd ht hok
  obtain ⟨c, k, hsent⟩ := h.sendsFrame (fun _ => hd) ht hok
  refine ⟨?_, fun hdma => ?_, fun hdirect => ?_⟩
  · rw [risingEdges, hsent.latched h.wired]
    exact h.wired.risingEdges_whole_frame s.lines
  · obtain ⟨rfl, rfl⟩ := hsent.dma hdma
    rw [hsent.issued, List.length_append, List.length_replicate, State.repeatedOps_length, nRows]
    omega
  · obtain ⟨rfl, hrep⟩ := hsent.direct hdirect
    rw [hsent.issued, List.length_append, List.length_replicate, State.repeatedOps_length, hrep, nRows]
    omega

/-! The waveform (R171). -/

/-- A row on lines already where it leaves them changes nothing. -/
theorem levels_settled_pair (mask l a b : Word) (h : a &&& b = 0#32) :
    levels mask (linesAfter l [.set a, .clr b]) [GpioOp.set a, .clr b] =
      List.replicate 2 (linesAfter l [.set a, .clr b] &&& mask) := by
  have hset : linesAfter l [.set a, .clr b] ||| a = linesAfter l [.set a, .clr b] := by
    apply BitVec.eq_of_getLsbD_eq
    intro i hi
    have hbit := congrArg (BitVec.getLsbD · i) h
    simp only [linesAfter_cons, linesAfter_nil, GpioOp.apply, BitVec.getLsbD_and, BitVec.getLsbD_not, BitVec.getLsbD_or,
      BitVec.getLsbD_zero, hi] at hbit ⊢
    cases ha : a.getLsbD i <;> simp_all
  have hclr : linesAfter l [.set a, .clr b] &&& ~~~b = linesAfter l [.set a, .clr b] := by
    rw [linesAfter_cons, linesAfter_cons, linesAfter_nil, GpioOp.apply, GpioOp.apply, BitVec.and_assoc, BitVec.and_self]
  rw [levels, levels, levels, GpioOp.apply, GpioOp.apply, hset, hclr]
  rfl

/-- The levels of a row and of its repetitions: after its first pass the row changes nothing. -/
theorem levels_replicate_pair (mask l a b : Word) (k : Nat) (h : a &&& b = 0#32) :
    levels mask l (List.replicate (k + 1) [GpioOp.set a, .clr b]).flatten =
      levels mask l [.set a, .clr b] ++ List.replicate (2 * k) (linesAfter l [.set a, .clr b] &&& mask) := by
  induction k with
  | zero => simp
  | succ k ih =>
    rw [List.replicate_succ', List.flatten_concat, levels_append, ih, linesAfter_replicate_pair l a b k h,
      levels_settled_pair mask l a b h, List.append_assoc, List.replicate_append_replicate]
    rfl

theorem merged_cons_replicate (v : Word) (m : Nat) (vs : List Word) :
    merged (v :: (List.replicate m v ++ vs)) = merged (v :: vs) := by
  induction m with
  | zero => rfl
  | succ m ih => rw [List.replicate_succ, List.cons_append, merged_dup, ih]

/-- Repetition leaves the waveform of a row as it is, whatever follows. -/
theorem merged_levels_replicate_pair (mask l a b : Word) (k : Nat) (h : a &&& b = 0#32) (vs : List Word) :
    merged (levels mask l (List.replicate (k + 1) [GpioOp.set a, .clr b]).flatten ++ vs) =
      merged (levels mask l [.set a, .clr b] ++ vs) := by
  rw [levels_replicate_pair mask l a b k h, List.append_assoc]
  exact merged_append_congr [_] (merged_cons_replicate _ (2 * k) vs)

/-- Repetition leaves the waveform of a run of rows. -/
theorem State.Wired.merged_repeated (h : s.Wired) (mask : Word) (k : Nat) (rs : List Nat) (l : Word) :
    merged (levels mask l (rs.flatMap fun r => (List.replicate (k + 1) (s.rowOps r)).flatten)) =
      merged (levels mask l (rs.flatMap s.rowOps)) := by
  induction rs generalizing l with
  | nil => rfl
  | cons r rs ih =>
    have hlines : linesAfter l (List.replicate (k + 1) (s.rowOps r)).flatten = linesAfter l (s.rowOps r) :=
      linesAfter_replicate_pair l _ _ k (h.disjoint r)
    rw [List.flatMap_cons, List.flatMap_cons, levels_append, levels_append, hlines]
    exact (merged_levels_replicate_pair mask l _ _ k (h.disjoint r) _).trans (merged_append_congr _ (ih _))

theorem State.Wired.waveform_repeated (h : s.Wired) (mask l : Word) (k n : Nat) :
    waveform mask l (s.repeatedOps (k + 1) n) = waveform mask l (s.frameOps n) :=
  h.merged_repeated mask k (List.range n) l

/-- A frame begins with a set operation (R163). -/
theorem State.logicalOps_repeated (s : State) (k n : Nat) :
    logicalOps (s.repeatedOps (k + 1) (n + 1)) = s.repeatedOps (k + 1) (n + 1) := by
  rw [State.repeatedOps, List.range_succ_eq_map, List.flatMap_cons, List.replicate_succ, List.flatten_cons,
    State.rowOps]
  rfl

theorem State.SendsFrame.frameWaveform (h : s.Wired) {t : State} {c k : Nat} (hs : s.SendsFrame t c k) (mask l : Word) :
    frameWaveform mask l (opsIssued s t) = waveform mask l (s.frameOps (nRows s.size.toNat)) := by
  rw [hs.issued, frameWaveform_calibration, Machine.frameWaveform, nRows, s.logicalOps_repeated, h.waveform_repeated]

theorem State.SendsFrame.waveform (h : s.Wired) {t : State} {k : Nat} (hs : s.SendsFrame t 0 k) (mask l : Word) :
    waveform mask l (opsIssued s t) = Machine.waveform mask l (s.frameOps (nRows s.size.toNat)) := by
  rw [hs.issued, List.replicate_zero, List.nil_append, h.waveform_repeated]

theorem State.SendsFrame.waveform_first (h : s.Wired) {t : State} {c k : Nat} (hs : s.SendsFrame t (c + 1) k)
    (mask l : Word) : Machine.waveform mask l (opsIssued s t) =
      merged ((l &&& mask) :: Machine.waveform mask l (s.frameOps (nRows s.size.toNat))) := by
  rw [hs.issued, waveform_calibration, h.waveform_repeated]

theorem State.SendsFrame.lines_frame (h : s.Wired) {t : State} {c k : Nat} (hs : s.SendsFrame t c k) :
    t.lines = linesAfter s.lines (s.frameOps (nRows s.size.toNat)) := by
  rw [hs.lines, h.lines_repeated]

/-- Settles O54. -/
theorem strategiesGiveOneWaveform : Obligations.StrategiesGiveOneWaveform := by
  intro a b t u ha hb hda hdirect hdma hplane hsize hdata hclk hlines ht hu htok huok
  have hframe : b.frameOps (nRows b.size.toNat) = a.frameOps (nRows a.size.toNat) := by
    rw [State.frameOps_congr hplane hdata hsize hclk, hsize]
  have houts : b.outs = a.outs := by rw [State.outs, State.outs, State.clkBit, State.clkBit, hdata, hclk]
  obtain ⟨c, k, hsent⟩ := ha.sendsFrame (fun _ => hda) ht htok
  obtain ⟨hc, -⟩ := hsent.direct hdirect
  obtain ⟨d, m, hreplayed⟩ := hb.sendsFrame (fun hdir => (nomatch hdma.symm.trans hdir)) hu huok
  obtain ⟨rfl, rfl⟩ := hreplayed.dma hdma
  have hdmaWave : waveform b.outs b.lines (opsIssued b u) =
      waveform a.outs a.lines (a.frameOps (nRows a.size.toNat)) := by
    rw [hreplayed.waveform hb.wired, hframe, houts, hlines]
  refine ⟨?_, fun hcal => ?_, fun hcal => ?_, ?_⟩
  · rw [hsent.frameWaveform ha.wired, hdmaWave]
  · rw [hcal, if_pos rfl] at hc
    subst hc
    rw [hsent.waveform ha.wired, hdmaWave]
  · have hcalN := ha.params.calN_pos
    obtain ⟨n, hn⟩ : ∃ n, c = n + 1 := ⟨c - 1, by rw [hcal, if_neg Bool.false_ne_true] at hc; omega⟩
    subst hn
    rw [hsent.waveform_first ha.wired, hdmaWave]
  · rw [hsent.lines_frame ha.wired, hreplayed.lines_frame hb.wired, hframe, hlines]

end Sys2Proof.Machine
end

section
/-! The memory a DMA bus needs (42_transmit_dma.md R191) and one word transfer of its sequencer (R205, R207). -/

namespace Sys2Proof.Machine

variable {s : State}

theorem needBytes_strictMono (P : Params) : StrictMono (needBytes P) := by
  intro m n hmn
  have hrows : nRows m < nRows n := by
    rw [nRows, nRows]
    omega
  have hblocks : ncbNeeded P m ≤ ncbNeeded P n := Nat.div_le_div_right (by omega)
  rw [needBytes, needBytes]
  omega

theorem ncbNeeded_le_nRows {P : Params} (h : P.Legal) (n : Nat) : ncbNeeded P n ≤ nRows n := by
  have hbound := (ncbNeeded_bounds h n).2
  have hq := rowsPerBlock_pos h
  generalize rowsPerBlock P = q at hbound hq
  by_contra hgt
  have hmul : (nRows n + 1) * q ≤ ncbNeeded P n * q := Nat.mul_le_mul_right q (by omega)
  have hge : nRows n ≤ nRows n * q := Nat.le_mul_of_pos_right _ hq
  rw [Nat.succ_mul] at hmul
  omega

/-- Settles O55. -/
theorem needBytesGrows : Obligations.NeedBytesGrows := by
  intro P hP
  refine ⟨needBytes_zero hP, needBytes_strictMono P, fun n => ⟨rfl, rfl, rowsPerBlock_span P, rfl, rfl, fun hn => ?_⟩⟩
  have hblocks := ncbNeeded_le_nRows hP n
  rw [needBytes, nRows]
  rw [nRows] at hblocks
  omega

/-! One word of the sequencer. -/

/-- The source address of a word transfer passes its check (R205, R207). -/
def State.SourceOk (s : State) (a : Nat) : Prop :=
  a % 4 = 0 ∧ s.params.dmaBase.toNat ≤ a ∧ a + 4 ≤ s.params.dmaBase.toNat + s.params.dmaMemBytes

theorem State.fetchWord?_of_ok {a : Nat} (h : s.SourceOk a) : s.fetchWord? a = some (s.memRead a) :=
  if_pos ⟨h.1, (s.wordInDmem_iff a).2 h.2⟩

theorem State.fetchWord?_of_not_ok {a : Nat} (h : ¬s.SourceOk a) : s.fetchWord? a = none :=
  if_neg fun hok => h ⟨hok.1, (s.wordInDmem_iff a).1 hok.2⟩

theorem State.transferWord_of_not_ok (h : ¬s.SourceOk s.srcp.toNat) : s.transferWord = s.stop .srcFault := by
  rw [State.transferWord, State.fetchWord?_of_not_ok h]

theorem State.transferWord_of_op (h : s.SourceOk s.srcp.toNat) {op : GpioOp}
    (hop : s.gpioAt s.dstp (s.memRead s.srcp.toNat) = some op) :
    s.transferWord = { s.issue [op] with srcp := s.srcp + 4#32, dstp := s.dstp + 4#32 } := by
  rw [State.transferWord, State.fetchWord?_of_ok h]
  simp only [hop]

theorem State.transferWord_of_no_op (h : s.SourceOk s.srcp.toNat)
    (hop : s.gpioAt s.dstp (s.memRead s.srcp.toNat) = none) : s.transferWord = s.stop .dstFault := by
  rw [State.transferWord, State.fetchWord?_of_ok h]
  simp only [hop]

/-- Settles O59. -/
theorem wordTransferChecksAddresses : Obligations.WordTransferChecksAddresses := by
  intro s
  refine ⟨fun hbad => State.transferWord_of_not_ok hbad, fun hok hset => ?_, fun hok hclr => ?_, fun hok hset hclr => ?_⟩
  · exact State.transferWord_of_op hok (if_pos hset)
  · have hset : s.dstp ≠ s.params.gpioSetAddr := by
      rw [hclr]
      bv_omega
    exact State.transferWord_of_op hok ((if_neg hset).trans (if_pos hclr))
  · exact State.transferWord_of_no_op hok ((if_neg hset).trans (if_neg hclr))

end Sys2Proof.Machine
end
